-- ==== Sys2Proof/Word.lean ====
section
/-! DEFINITION. The two word types of FCODEC: the byte and the 16-bit register (00_scope.md R9, 10_state.md R10). -/

namespace Sys2Proof

/-- A byte: an unsigned integer 0..255 (00_scope.md R9), and the contents of an 8-bit register (10_state.md R10). -/
abbrev Byte := BitVec 8

/-- The contents of a 16-bit register (10_state.md R10). -/
abbrev Half := BitVec 16

end Sys2Proof
end

