-- ==== Sys2Proof/Config.lean ====
section
/-! DEFINITION. The implementation parameters of an instance (00_scope.md R4 to R8), and the free values the spec
leaves open (93_implementation_defined.md U1, U4). -/

namespace Sys2Proof

/-- The parameters of one FCODEC instance. They are fixed for the instance and are no state (10_state.md R27);
"a model takes [them] as an argument", so the machine carries them beside its state and no step changes them. -/
structure Config where
  /-- MAXLEN, the protocol maximum payload length (00_scope.md R4). -/
  maxLen : Nat
  /-- HAS_NDEF, whether the NDEF record header parser exists (00_scope.md R6). -/
  hasNdef : Bool
  /-- NDEF_HDR_SKIP, the size of the fixed header region (00_scope.md R8, 44_ndef_header.md R161). -/
  ndefHdrSkip : Nat
  /-- NDEF_TRAIL_SKIP, the size of the fixed trailing region (00_scope.md R8, 44_ndef_header.md R161). -/
  ndefTrailSkip : Nat
  deriving DecidableEq, Repr

namespace Config

/-- The values the spec gives "for this hardware" (00_scope.md R4, R6) and the defaults of R8. -/
def hardware : Config where
  maxLen := 255
  hasNdef := true
  ndefHdrSkip := 9
  ndefTrailSkip := 2

/-- 1 <= MAXLEN <= 255 (00_scope.md R4).
DESIGN CHOICE (log 5): the header skip fits the 16-bit POS that reports it; the spec gives the skip no bound. -/
def wf (c : Config) : Bool :=
  decide (1 ≤ c.maxLen) && decide (c.maxLen ≤ 255) && decide (c.ndefHdrSkip < 65536)

/-- PB_SIZE = MAXLEN (00_scope.md R5). -/
def pbSize (c : Config) : Nat := c.maxLen

/-- FB_SIZE = MAXLEN + 8 (00_scope.md R5). -/
def fbSize (c : Config) : Nat := c.maxLen + 8

/-- EB_SIZE = FB_SIZE (00_scope.md R5). -/
def ebSize (c : Config) : Nat := c.fbSize

/-- FREE VALUE (93_implementation_defined.md U1; log 1): what the buffer byte at a flat address holds between a reset
and the first write to it. The first argument counts the resets, so that each reset leaves contents of its own; the
second is the flat address of 20_memory.md R41. Nothing can evaluate it. -/
opaque freeByte : Nat → Nat → Byte

/-- FREE VALUE (00_scope.md R8, 93_implementation_defined.md U4; log 6): T_SETTLE, the duration asked of the sleeper.
No rule depends on it. -/
opaque tSettle : Nat

end Config

end Sys2Proof
end

