-- ==== Sys2Proof/Syntax.lean ====
section
/-! DEFINITION. The nine operations (30_encoding.md R71), and the actions of the agents around the block: the host's
script (30_encoding.md R75) and whose turn it is (43_verify.md R150). -/

namespace Sys2Proof

/-- The operations of FCODEC, one constructor per row of the opcode table. "An operation has no operand fields"
(30_encoding.md R73): operands come from the registers and buffers its rule names. -/
inductive Instr where
  /-- LCS (40_checksum.md R93). -/
  | lcs
  /-- CHKL (40_checksum.md R94). -/
  | chkl
  /-- DCS (40_checksum.md R95). -/
  | dcs
  /-- CHKD (40_checksum.md R96). -/
  | chkd
  /-- BUILD (41_frame_build.md R111). -/
  | build
  /-- PARSE (42_frame_parse.md R120). -/
  | parse
  /-- VERIFY (43_verify.md R142). -/
  | verify
  /-- VACK (43_verify.md R144). -/
  | vack
  /-- NDEFHDR (44_ndef_header.md R162). -/
  | ndefhdr
  deriving DecidableEq, Repr

/-- The three byte buffers (10_state.md R23). -/
inductive Buffer where
  | pbuf
  | fbuf
  | ebuf
  deriving DecidableEq, Repr

/-- The host-addressable spaces (20_memory.md R40). -/
inductive Space where
  | reg
  | buf (b : Buffer)
  deriving DecidableEq, Repr

/-- The registers, in the order of their numbers (10_state.md R10). -/
inductive RegName where
  | cmd
  | status
  | ctrl
  | ecode
  | a
  | b
  | r
  | pcnt
  | fcnt
  | ecnt
  | pos
  | payoff
  | paylen
  | hidx
  | langlen
  | textlen
  | textoff
  deriving DecidableEq, Repr

/-- One action of the host (30_encoding.md R75). `write` and `read` are WR, WB, RD and RB by space and index;
`writeAt` and `readAt` are the same accesses by the flat address of 20_memory.md R41; `wait` is WAIT. A mnemonic is a
write of its code to register 0x00. -/
inductive HostAction where
  | write (sp : Space) (index : Nat) (data : Half)
  | read (sp : Space) (index : Nat)
  | writeAt (addr : BitVec 12) (data : Half)
  | readAt (addr : BitVec 12)
  | wait
  deriving DecidableEq, Repr

/-- Who acts in a step: the host, the transport, the sleeper (43_verify.md R150), or the reset input
(70_reset_and_hazards.md R210). -/
inductive Agent where
  | host
  | transport
  | sleeper
  | resetPin
  deriving DecidableEq, Repr

end Sys2Proof
end

