-- ==== Sys2Proof/WellFormed.lean ====
section
/-! DEFINITION. Which operations an instance has, and which host accesses its interface can express. -/

namespace Sys2Proof

/-- Every operation is legal, NDEFHDR only when HAS_NDEF == 1 (30_encoding.md R71, R72). -/
def Instr.wf (c : Config) (i : Instr) : Bool :=
  match i with
  | .ndefhdr => c.hasNdef
  | .lcs | .chkl | .dcs | .chkd | .build | .parse | .verify | .vack => true

/-- The width in bits of the register with a number (10_state.md R10). A write to an unassigned number is dropped
whatever it carries (20_memory.md R43). -/
def registerWidth (n : Nat) : Nat :=
  match n with
  | 0x00 | 0x01 | 0x02 | 0x03 | 0x04 | 0x05 | 0x06 | 0x0C | 0x0E | 0x0F => 8
  | _ => 16

/-- "A write of a value wider than the register cannot be expressed: the interface carries exactly the register's
width" (10_state.md R21), and a buffer access moves exactly one byte (20_memory.md R42). -/
def HostAction.wf (a : HostAction) : Bool :=
  match a with
  | .write .reg n d => decide (d.toNat < 2 ^ registerWidth n)
  | .write (.buf _) _ d => decide (d.toNat < 2 ^ 8)
  | .writeAt addr d => if addr.toNat < 0x100 then decide (d.toNat < 2 ^ registerWidth addr.toNat)
      else decide (d.toNat < 2 ^ 8)
  | .read _ _ | .readAt _ | .wait => true

end Sys2Proof
end

