-- ==== Sys2Proof/Decode.lean ====
section
/-! DEFINITION. The command word (30_encoding.md R70 to R72), decoded and encoded; the register numbers of
10_state.md R10; the flat address map of 20_memory.md R41. -/

namespace Sys2Proof

/-- Why a CMD byte is no legal command (30_encoding.md R72). Every one of them ends in the error ILLOP. -/
inductive Illegal where
  /-- One of bits 7:4 is set. -/
  | highBits
  /-- The byte 0x00, "deliberately illegal". -/
  | zero
  /-- An operation code 0xA to 0xF. -/
  | unassigned
  /-- The byte 0x09 of an instance with HAS_NDEF == 0. -/
  | ndefAbsent
  deriving DecidableEq, Repr

/-- The field OP, bits 3:0 of a command (30_encoding.md R70). -/
def cmdOp (c : Byte) : BitVec 4 := c.extractLsb' 0 4

/-- The field that must be 0, bits 7:4 of a command (30_encoding.md R70). -/
def cmdHigh (c : Byte) : BitVec 4 := c.extractLsb' 4 4

/-- The operation a CMD byte encodes (30_encoding.md R71), or why it is illegal (R72). -/
def decode (cfg : Config) (c : Byte) : Except Illegal Instr :=
  if cmdHigh c ≠ 0 then .error .highBits
  else
    match (cmdOp c).toNat with
    | 0x0 => .error .zero
    | 0x1 => .ok .lcs
    | 0x2 => .ok .chkl
    | 0x3 => .ok .dcs
    | 0x4 => .ok .chkd
    | 0x5 => .ok .build
    | 0x6 => .ok .parse
    | 0x7 => .ok .verify
    | 0x8 => .ok .vack
    | 0x9 => if cfg.hasNdef then .ok .ndefhdr else .error .ndefAbsent
    | _ => .error .unassigned

/-- The CMD byte of an operation (30_encoding.md R71). -/
def encode (i : Instr) : Byte :=
  match i with
  | .lcs => 0x01
  | .chkl => 0x02
  | .dcs => 0x03
  | .chkd => 0x04
  | .build => 0x05
  | .parse => 0x06
  | .verify => 0x07
  | .vack => 0x08
  | .ndefhdr => 0x09

/-- The command byte of a table word: its low eight bits, the bits above `nbits` being zero. A command has one length,
8 bits (30_encoding.md R70). -/
def tableByte (nbits w : Nat) : Byte := BitVec.ofNat 8 (w % 2 ^ nbits)

/-- The operation this hardware (HAS_NDEF == 1) decodes from a word of the opcode table. -/
def decodeTableWord (nbits w : Nat) : Option Instr :=
  match decode Config.hardware (tableByte nbits w) with
  | .ok i => some i
  | .error _ => none

/-- The register with a number (10_state.md R10); 0x11 to 0xFF are unassigned. -/
def regOfNum (n : Nat) : Option RegName :=
  match n with
  | 0x00 => some .cmd
  | 0x01 => some .status
  | 0x02 => some .ctrl
  | 0x03 => some .ecode
  | 0x04 => some .a
  | 0x05 => some .b
  | 0x06 => some .r
  | 0x07 => some .pcnt
  | 0x08 => some .fcnt
  | 0x09 => some .ecnt
  | 0x0A => some .pos
  | 0x0B => some .payoff
  | 0x0C => some .paylen
  | 0x0D => some .hidx
  | 0x0E => some .langlen
  | 0x0F => some .textlen
  | 0x10 => some .textoff
  | _ => none

/-- The capacity of a buffer (00_scope.md R5, 10_state.md R23). -/
def capacity (cfg : Config) (b : Buffer) : Nat :=
  match b with
  | .pbuf => cfg.pbSize
  | .fbuf => cfg.fbSize
  | .ebuf => cfg.ebSize

/-- Where the flat map puts index 0 of a buffer (20_memory.md R41). -/
def flatBase (b : Buffer) : Nat :=
  match b with
  | .pbuf => 0x100
  | .fbuf => 0x200
  | .ebuf => 0x400

/-- The space and index of a flat address, none where the map of 20_memory.md R41 says "unassigned". The table is
written for MAXLEN = 255; for a smaller instance each window ends at its own capacity (20_memory.md R43). -/
def flatMap (cfg : Config) (addr : Nat) : Option (Space × Nat) :=
  if addr ≤ 0x010 then some (.reg, addr)
  else if flatBase .pbuf ≤ addr ∧ addr < flatBase .pbuf + capacity cfg .pbuf then
    some (.buf .pbuf, addr - flatBase .pbuf)
  else if flatBase .fbuf ≤ addr ∧ addr < flatBase .fbuf + capacity cfg .fbuf then
    some (.buf .fbuf, addr - flatBase .fbuf)
  else if flatBase .ebuf ≤ addr ∧ addr < flatBase .ebuf + capacity cfg .ebuf then
    some (.buf .ebuf, addr - flatBase .ebuf)
  else none

end Sys2Proof
end

