-- ==== Sys2Proof/Machine/Memory.lean ====
section
/-! DEFINITION. One byte buffer as plain data: the (index, byte) pairs written since the last reset, indices strictly
rising. An index that is not listed has not been written since reset (93_implementation_defined.md U1). -/

namespace Sys2Proof.Machine

/-- The bytes of one buffer that were written since reset. -/
abbrev Memory := List Host.Cell

/-- The one canonical form: the listed indices rise strictly. An unlisted index holds no value here, so no listed
entry can equal it. -/
abbrev Memory.wf (m : Memory) : Prop := (m.map Prod.fst).Pairwise (· < ·)

/-- Every listed index is below a capacity. -/
abbrev Memory.below (m : Memory) (cap : Nat) : Prop := ∀ c ∈ m, c.1 < cap

/-- The byte written at an index since reset, if one was. -/
def Memory.read? (m : Memory) (i : Nat) : Option Byte :=
  match m with
  | [] => none
  | (j, b) :: rest => if i = j then some b else Memory.read? rest i

/-- Write one byte; the indices stay strictly rising. -/
def Memory.write (m : Memory) (i : Nat) (v : Byte) : Memory :=
  match m with
  | [] => [(i, v)]
  | (j, b) :: rest =>
    if i < j then (i, v) :: (j, b) :: rest
    else if i = j then (i, v) :: rest
    else (j, b) :: Memory.write rest i v

end Sys2Proof.Machine
end

