-- ==== Sys2Proof/Machine/State.lean ====
section
/-! DEFINITION. The state of FCODEC and of the agents at its boundary, as plain data, and the state after reset. -/

namespace Sys2Proof.Machine

/-- The register file (10_state.md R10), each register at its own width. -/
structure Regs where
  /-- 0x00 CMD (R11). -/
  cmd : Byte
  /-- 0x01 STATUS (R12). -/
  status : Byte
  /-- 0x02 CTRL (R13). -/
  ctrl : Byte
  /-- 0x03 ECODE (R14). -/
  ecode : Byte
  /-- 0x04 A (R15). -/
  a : Byte
  /-- 0x05 B (R15). -/
  b : Byte
  /-- 0x06 R (R16). -/
  r : Byte
  /-- 0x07 PCNT (R17). -/
  pcnt : Half
  /-- 0x08 FCNT (R17). -/
  fcnt : Half
  /-- 0x09 ECNT (R17). -/
  ecnt : Half
  /-- 0x0A POS (R18). -/
  pos : Half
  /-- 0x0B PAYOFF (R19). -/
  payoff : Half
  /-- 0x0C PAYLEN (R19). -/
  paylen : Byte
  /-- 0x0D HIDX (R20). -/
  hidx : Half
  /-- 0x0E LANGLEN (R20). -/
  langlen : Byte
  /-- 0x0F TEXTLEN (R20). -/
  textlen : Byte
  /-- 0x10 TEXTOFF (R20). -/
  textoff : Half
  deriving DecidableEq, Repr

/-- PHASE (10_state.md R25). -/
inductive Phase where
  | idle
  | rx
  | settle
  deriving DecidableEq, Repr

/-- VSRC (10_state.md R25). -/
inductive VSrc where
  | ebuf
  | ackrom
  deriving DecidableEq, Repr

/-- The hidden state of a comparison (10_state.md R25). -/
structure Compare where
  /-- PHASE. -/
  phase : Phase
  /-- RXN, the number of bytes the comparison must read. -/
  rxn : Nat
  /-- RXK, the number it has read so far. -/
  rxk : Nat
  /-- MIS, a mismatch has been seen. -/
  mis : Bool
  /-- MISPOS, the index of the first mismatch. -/
  mispos : Nat
  /-- VSRC, where the expected bytes come from. -/
  vsrc : VSrc
  deriving DecidableEq, Repr

/-- The three buffers (10_state.md R23), each listing the bytes written since reset. -/
structure Buffers where
  pbuf : Memory
  fbuf : Memory
  ebuf : Memory
  deriving DecidableEq, Repr

/-- The bus byte stream (20_memory.md R44, 10_state.md R26), an input: what the transport has still to deliver, and
what FCODEC did to it. -/
structure Bus where
  /-- The bytes the transport will deliver, in order. When it is empty the transport offers nothing. -/
  pending : List Byte
  /-- The position of the stream: how many bytes `BusRead()` has consumed. -/
  taken : Nat
  /-- The counts of the read requests made, the newest first. -/
  requests : List Nat
  deriving DecidableEq, Repr

/-- The sleeper's side of the settle handshake (43_verify.md R147), an output and an input. -/
structure Sleeper where
  /-- How many settle delays were requested. -/
  asked : Nat
  /-- How many requested delays ended and were taken. -/
  ended : Nat
  deriving DecidableEq, Repr

/-- The host at its port (20_memory.md R46), an input and an output. -/
structure HostPort where
  /-- The host's actions still to come, in the order it issues them. -/
  queue : List HostAction
  /-- What its last read returned, none before its first read. -/
  lastRead : Option Half
  deriving DecidableEq, Repr

/-- The whole machine. `regs`, `cmp` and `bufs` are FCODEC's own state; `cfg` is the instance and never changes;
`bus`, `sleeper` and `host` are its boundary; `turns` says who acts in the coming steps; `epoch` counts the resets. -/
structure State where
  /-- The parameters of the instance. -/
  cfg : Config
  /-- The registers. -/
  regs : Regs
  /-- The hidden state. -/
  cmp : Compare
  /-- The buffers. -/
  bufs : Buffers
  /-- MODEL'S OWN (log 1): how many resets there were; it selects the unspecified buffer contents. -/
  epoch : Nat
  /-- The bus byte stream. -/
  bus : Bus
  /-- The settle handshake. -/
  sleeper : Sleeper
  /-- The host port. -/
  host : HostPort
  /-- MODEL'S OWN (log 2): the order in which the agents act, the next one first. -/
  turns : List Agent
  deriving DecidableEq, Repr

/-- FCODEC has no condition that stops it: errors are completions (60_exceptions.md R182), an illegal command is the
error ILLOP (R185), an unassigned access has no effect (20_memory.md R43). So there is no fault at all; safe. -/
inductive Fault where
  deriving DecidableEq, Repr

/-- Why `exec` gives an operation no meaning. -/
inductive Refusal where
  /-- Raised by an arm of `exec` whose operation has no meaning yet; safe. No arm raises it now. -/
  | notModelled (mnemonic : String)
  deriving DecidableEq, Repr

/-- The reset values of the registers (10_state.md R10, R32): all zero but CTRL = 0x03. -/
def Regs.reset : Regs where
  cmd := 0x00
  status := 0x00
  ctrl := 0x03
  ecode := 0x00
  a := 0x00
  b := 0x00
  r := 0x00
  pcnt := 0x0000
  fcnt := 0x0000
  ecnt := 0x0000
  pos := 0x0000
  payoff := 0x0000
  paylen := 0x00
  hidx := 0x0000
  langlen := 0x00
  textlen := 0x00
  textoff := 0x0000

/-- PHASE = IDLE (10_state.md R25).
DESIGN CHOICE (log 3): the others "are unspecified" after reset; they are zero and EBUF here. Between operations, where
they are open too (93_implementation_defined.md U5), they keep what the last comparison left. -/
def Compare.reset : Compare where
  phase := .idle
  rxn := 0
  rxk := 0
  mis := false
  mispos := 0
  vsrc := .ebuf

/-- No byte has been written: every buffer byte is unspecified (10_state.md R32). -/
def Buffers.reset : Buffers where
  pbuf := []
  fbuf := []
  ebuf := []

/-- This hardware right after reset (10_state.md R32, 70_reset_and_hazards.md R210), its agents with nothing to do. -/
def State.reset : State where
  cfg := Config.hardware
  regs := Regs.reset
  cmp := Compare.reset
  bufs := Buffers.reset
  epoch := 0
  bus := { pending := [], taken := 0, requests := [] }
  sleeper := { asked := 0, ended := 0 }
  host := { queue := [], lastRead := none }
  turns := []

end Sys2Proof.Machine
end

