-- ==== Sys2Proof/Machine/Flags.lean ====
section
/-! DEFINITION. The fields of STATUS and CTRL (10_state.md R12, R13), the STATUS updates of accept and completion
(60_exceptions.md R180 to R182), and the error codes (R183). -/

namespace Sys2Proof.Machine

/-- The fields of STATUS (10_state.md R12). -/
inductive StatusFlag where
  | busy
  | done
  | err
  | t
  | ovr
  deriving DecidableEq, Repr

/-- The bit number of a STATUS field (10_state.md R12). -/
def StatusFlag.bit (f : StatusFlag) : Nat :=
  match f with
  | .busy => 0
  | .done => 1
  | .err => 2
  | .t => 3
  | .ovr => 4

/-- `STATUS.f`, read. -/
def getFlag (status : Byte) (f : StatusFlag) : Bool := status.getLsbD f.bit

/-- `STATUS.f <- v`; every other bit keeps its value. -/
def setFlag (status : Byte) (f : StatusFlag) (v : Bool) : Byte :=
  if v then status ||| (1#8 <<< f.bit) else status &&& ~~~(1#8 <<< f.bit)

/-- BUSY <- 1, DONE, ERR, T <- 0; OVR is not changed (60_exceptions.md R180, 43_verify.md R141). -/
def statusAccept (status : Byte) : Byte :=
  setFlag (setFlag (setFlag (setFlag status .busy true) .done false) .err false) .t false

/-- BUSY <- 0, DONE <- 1, ERR <- 0, T <- t (60_exceptions.md R181). -/
def statusDone (t : Bool) (status : Byte) : Byte :=
  setFlag (setFlag (setFlag (setFlag status .busy false) .done true) .err false) .t t

/-- BUSY <- 0, DONE <- 1, ERR <- 1, T <- 0 (60_exceptions.md R182). -/
def statusError (status : Byte) : Byte :=
  setFlag (setFlag (setFlag (setFlag status .busy false) .done true) .err true) .t false

/-- A host write to STATUS: a 1 in bit 4 clears OVR; everything else in it is ignored (10_state.md R12). -/
def statusHostWrite (v status : Byte) : Byte :=
  if getFlag v .ovr then setFlag status .ovr false else status

/-- CTRL.MARK, bit 0 (10_state.md R13). -/
def ctrlMark (ctrl : Byte) : Bool := ctrl.getLsbD 0

/-- CTRL.POST, bit 1 (10_state.md R13). -/
def ctrlPost (ctrl : Byte) : Bool := ctrl.getLsbD 1

/-- A host write to CTRL keeps bits 1:0; bits 7:2 are reserved, "read as 0, writes ignored" (10_state.md R13). -/
def ctrlHostWrite (v : Byte) : Byte := v &&& 0x03

/-- The errors FCODEC reports (60_exceptions.md R183). -/
inductive ErrCode where
  | illop
  | range
  | empty
  | toolarge
  | trunc
  | marker
  | start
  | lcs
  | dcs
  | post
  | hdrtrunc
  | hdrlen
  deriving DecidableEq, Repr

/-- The value of ECODE for an error (60_exceptions.md R183). -/
def ErrCode.code (e : ErrCode) : Byte :=
  match e with
  | .illop => 0x01
  | .range => 0x02
  | .empty => 0x03
  | .toolarge => 0x04
  | .trunc => 0x05
  | .marker => 0x06
  | .start => 0x07
  | .lcs => 0x08
  | .dcs => 0x09
  | .post => 0x0A
  | .hdrtrunc => 0x0B
  | .hdrlen => 0x0C

/-- ECODE after a normal completion (60_exceptions.md R183). -/
def noError : Byte := 0x00

end Sys2Proof.Machine
end

