-- ==== Sys2Proof/Machine/Ops.lean ====
section
/-! DEFINITION. The shared operations: component updates of State, buffer access, accepting a command, the two
completions (60_exceptions.md R180 to R182), and the reset input (70_reset_and_hazards.md R210). -/

namespace Sys2Proof.Machine

/-- What a meaning answers with. -/
abbrev Result := Host.Outcome State Fault Refusal

/-- Replace the registers. -/
def State.setRegs (s : State) (r : Regs) : State := { s with regs := r }

/-- Replace the hidden state. -/
def State.setCmp (s : State) (c : Compare) : State := { s with cmp := c }

/-- Replace the buffers. -/
def State.setBufs (s : State) (b : Buffers) : State := { s with bufs := b }

/-- Replace the bus. -/
def State.setBus (s : State) (b : Bus) : State := { s with bus := b }

/-- Replace the sleeper. -/
def State.setSleeper (s : State) (p : Sleeper) : State := { s with sleeper := p }

/-- Replace the host port. -/
def State.setHost (s : State) (h : HostPort) : State := { s with host := h }

/-- Replace the coming turns. -/
def State.setTurns (s : State) (ts : List Agent) : State := { s with turns := ts }

/-- A flag of STATUS. -/
def State.flag (s : State) (f : StatusFlag) : Bool := getFlag s.regs.status f

/-- PHASE <- p. -/
def State.setPhase (s : State) (p : Phase) : State := s.setCmp { s.cmp with phase := p }

/-- The written bytes of a buffer. -/
def Buffers.get (bs : Buffers) (b : Buffer) : Memory :=
  match b with
  | .pbuf => bs.pbuf
  | .fbuf => bs.fbuf
  | .ebuf => bs.ebuf

/-- Replace the written bytes of a buffer. -/
def Buffers.put (bs : Buffers) (b : Buffer) (m : Memory) : Buffers :=
  match b with
  | .pbuf => { bs with pbuf := m }
  | .fbuf => { bs with fbuf := m }
  | .ebuf => { bs with ebuf := m }

/-- `MemRead(b:i, 1)` (00_scope.md R9). An index at or beyond the capacity reads 0 (20_memory.md R43); an index not
written since reset reads its free value, the same at every read until it is written
(93_implementation_defined.md U1, 20_memory.md R48; log 1). -/
def State.byteAt (s : State) (b : Buffer) (i : Nat) : Byte :=
  if i < capacity s.cfg b then
    match (s.bufs.get b).read? i with
    | some v => v
    | none => Config.freeByte s.epoch (flatBase b + i)
  else 0

/-- `MemWrite(b:i, 1, v)` (00_scope.md R9). A write at or beyond the capacity is dropped (20_memory.md R43). -/
def State.writeByte (s : State) (b : Buffer) (i : Nat) (v : Byte) : State :=
  if i < capacity s.cfg b then s.setBufs (s.bufs.put b ((s.bufs.get b).write i v)) else s

/-- Write bytes to consecutive indices of a buffer, the first at `i`. -/
def State.writeBytes (s : State) (b : Buffer) (i : Nat) (vs : List Byte) : State :=
  match vs with
  | [] => s
  | v :: rest => State.writeBytes (s.writeByte b i v) b (i + 1) rest

/-- Command accept (60_exceptions.md R180). -/
def accept (c : Byte) (s : State) : State :=
  s.setRegs { s.regs with cmd := c, status := statusAccept s.regs.status, ecode := noError }

/-- Normal completion `done(t)` (60_exceptions.md R181).
DESIGN CHOICE (log 3): RXN, RXK, MIS, MISPOS and VSRC, unspecified between operations, keep their values. -/
def complete (t : Bool) (s : State) : State :=
  (s.setRegs { s.regs with status := statusDone t s.regs.status, ecode := noError }).setPhase .idle

/-- POS <- p. -/
def setPos (p : Nat) (s : State) : State := s.setRegs { s.regs with pos := BitVec.ofNat 16 p }

/-- Error completion `raise Err(code, -)` (60_exceptions.md R182): POS is not written.
DESIGN CHOICE (log 3): RXN, RXK, MIS, MISPOS and VSRC keep their values here too. -/
def raise (e : ErrCode) (s : State) : State :=
  (s.setRegs { s.regs with status := statusError s.regs.status, ecode := e.code }).setPhase .idle

/-- Error completion `raise Err(code, pos)` (60_exceptions.md R182). -/
def raiseAt (e : ErrCode) (p : Nat) (s : State) : State := raise e (setPos p s)

/-- The reset input (70_reset_and_hazards.md R210, R212): registers and hidden state as after reset, buffer contents
unspecified again; the bytes not yet taken stay pending.
DEDUCED (log 13): the records of the boundary, the host and the turns to come are not FCODEC's to reset. -/
def pinReset (s : State) : State :=
  { s with regs := Regs.reset, cmp := Compare.reset, bufs := Buffers.reset, epoch := s.epoch + 1 }

end Sys2Proof.Machine
end

