-- ==== Sys2Proof/Machine/Operands.lean ====
section
/-! DEFINITION. The operand forms (30_encoding.md R73): counts, runs of buffer bytes, and the registers as the host
reads them (10_state.md R10). -/

namespace Sys2Proof.Machine

/-- `b[i .. i+n)`: n bytes of a buffer, the first at index i (00_scope.md R9). -/
def State.bytesAt (s : State) (b : Buffer) (i n : Nat) : List Byte :=
  match n with
  | 0 => []
  | n + 1 => s.byteAt b i :: State.bytesAt s b (i + 1) n

/-- The payload PBUF[0..PCNT) (10_state.md R23). -/
def State.payload (s : State) : List Byte := s.bytesAt .pbuf 0 s.regs.pcnt.toNat

/-- An NDEF result register as the host reads it: zero when HAS_NDEF = 0 (00_scope.md R6). -/
def ndefGate (cfg : Config) (v : Half) : Half := if cfg.hasNdef then v else 0

/-- The value a host read of a register returns, an 8-bit register widened with zeros (10_state.md R10). -/
def State.regValue (s : State) (n : RegName) : Half :=
  match n with
  | .cmd => s.regs.cmd.setWidth 16
  | .status => s.regs.status.setWidth 16
  | .ctrl => s.regs.ctrl.setWidth 16
  | .ecode => s.regs.ecode.setWidth 16
  | .a => s.regs.a.setWidth 16
  | .b => s.regs.b.setWidth 16
  | .r => s.regs.r.setWidth 16
  | .pcnt => s.regs.pcnt
  | .fcnt => s.regs.fcnt
  | .ecnt => s.regs.ecnt
  | .pos => s.regs.pos
  | .payoff => s.regs.payoff
  | .paylen => s.regs.paylen.setWidth 16
  | .hidx => ndefGate s.cfg s.regs.hidx
  | .langlen => ndefGate s.cfg (s.regs.langlen.setWidth 16)
  | .textlen => ndefGate s.cfg (s.regs.textlen.setWidth 16)
  | .textoff => ndefGate s.cfg s.regs.textoff

/-- The value a host read of a space and index returns; an unassigned register number or an index at or beyond the
capacity gives 0 (20_memory.md R43). -/
def State.portValue (s : State) (sp : Space) (i : Nat) : Half :=
  match sp with
  | .buf b => (s.byteAt b i).setWidth 16
  | .reg =>
    match regOfNum i with
    | some n => s.regValue n
    | none => 0

end Sys2Proof.Machine
end

