-- ==== Sys2Proof/Machine/Checksum.lean ====
section
/-! DEFINITION. The two checksum functions (40_checksum.md R90 to R92) and the operations LCS, CHKL, DCS, CHKD. -/

namespace Sys2Proof.Machine

/-- `sum8(s)`, accumulated in eight bits from `acc` on, the carry discarded (00_scope.md R9, 40_checksum.md R92). -/
def sumFrom (acc : Byte) (bs : List Byte) : Byte :=
  match bs with
  | [] => acc
  | b :: rest => sumFrom (acc + b) rest

/-- `sum8(s)` (00_scope.md R9). -/
def sum8 (bs : List Byte) : Byte := sumFrom 0 bs

/-- `lcs(n)`, the length checksum of a natural number (40_checksum.md R90). -/
def lcsOf (n : Nat) : Byte := BitVec.ofNat 8 ((0x100 - n % 0x100) % 0x100)

/-- `dcs(s)`, the data checksum of a byte sequence (40_checksum.md R91). -/
def dcsOf (bs : List Byte) : Byte := BitVec.ofNat 8 ((0x100 - (sum8 bs).toNat) % 0x100)

/-- The relation both checks test: the protected value and its checksum sum to 0 mod 0x100
(40_checksum.md R94, R96). -/
def sumsToZero (v c : Byte) : Bool := decide ((v.toNat + c.toNat) % 0x100 = 0)

/-- R <- v. -/
def setR (v : Byte) (s : State) : State := s.setRegs { s.regs with r := v }

/-- LCS (40_checksum.md R93). -/
def execLcs (s : State) : Result := .next (complete true (setR (lcsOf s.regs.a.toNat) s))

/-- CHKL (40_checksum.md R94). -/
def execChkl (s : State) : Result := .next (complete (sumsToZero s.regs.a s.regs.b) s)

/-- DCS (40_checksum.md R95). -/
def execDcs (s : State) : Result :=
  if s.regs.pcnt.toNat > s.cfg.pbSize then .next (raise .range s)
  else .next (complete true (setR (dcsOf s.payload) s))

/-- CHKD (40_checksum.md R96). -/
def execChkd (s : State) : Result :=
  if s.regs.pcnt.toNat > s.cfg.pbSize then .next (raise .range s)
  else .next (complete (sumsToZero (sum8 s.payload) s.regs.b) s)

end Sys2Proof.Machine
end

