-- ==== Sys2Proof/Machine/Ndef.lean ====
section
/-! DEFINITION. NDEFHDR (44_ndef_header.md R162), the operation of the optional NDEF record header parser. -/

namespace Sys2Proof.Machine

/-- NDEF_TAG (00_scope.md R7). -/
def ndefTag : Byte := 0x03

/-- NDEF_TEXT (00_scope.md R7). -/
def ndefText : Byte := 0x54

/-- `hi`, the end of the usable region of n bytes (44_ndef_header.md R161, R162). -/
def regionEnd (cfg : Config) (n : Nat) : Nat :=
  if n ≥ cfg.ndefHdrSkip + cfg.ndefTrailSkip then n - cfg.ndefTrailSkip else cfg.ndefHdrSkip

/-- The scan for the pattern from index i on, at most `fuel` indices: the first i with both bytes matching and inside
the region (44_ndef_header.md R162, R164, R166). -/
def scanHeader (rd : Nat → Byte) (hi fuel i : Nat) : Option Nat :=
  match fuel with
  | 0 => none
  | fuel + 1 =>
    if i + 5 < hi then
      if rd i = ndefTag ∧ rd (i + 5) = ndefText then some i else scanHeader rd hi fuel (i + 1)
    else none

/-- LL, the low six bits of the status byte (44_ndef_header.md R160, R162). -/
def langLen (status : Byte) : Nat := (status &&& 0x3F).toNat

/-- Write the four NDEF result registers. -/
def setNdef (hidx langlen textlen textoff : Nat) (s : State) : State :=
  s.setRegs { s.regs with
    hidx := BitVec.ofNat 16 hidx
    langlen := BitVec.ofNat 8 langlen
    textlen := BitVec.ofNat 8 textlen
    textoff := BitVec.ofNat 16 textoff }

/-- `fail(c, p)` (44_ndef_header.md R162). -/
def ndefFail (e : ErrCode) (p : Nat) (s : State) : State := raiseAt e p (setNdef 0 0 0 0 s)

/-- From the label `found` on (44_ndef_header.md R162), the `03` byte at i. -/
def decodeHeader (hi i : Nat) (s : State) : State :=
  if i + 6 ≥ hi then ndefFail .hdrtrunc (i + 6) s
  else
    let ll := langLen (s.byteAt .fbuf (i + 6))
    let pl := (s.byteAt .fbuf (i + 4)).toNat
    if pl < ll + 1 then ndefFail .hdrlen (i + 4) s
    else complete true (setPos i (setNdef i ll (pl - ll - 1) (i + 7 + ll) s))

/-- The operation in an instance that has the unit (44_ndef_header.md R162). -/
def ndefHeader (s : State) : State :=
  if s.regs.fcnt.toNat > s.cfg.fbSize then ndefFail .range 0 s
  else
    let hi := regionEnd s.cfg s.regs.fcnt.toNat
    match scanHeader (s.byteAt .fbuf) hi hi s.cfg.ndefHdrSkip with
    | none => complete false (setPos hi (setNdef 0 0 0 0 s))
    | some i => decodeHeader hi i s

/-- NDEFHDR (44_ndef_header.md R162); its command is illegal when HAS_NDEF == 0 (00_scope.md R6), so that no step runs
it there.
DEDUCED (log 16): run all the same, it gives the completion of an illegal command. -/
def execNdefhdr (s : State) : Result :=
  if s.cfg.hasNdef then .next (ndefHeader s) else .next (raise .illop s)

end Sys2Proof.Machine
end

