-- ==== Sys2Proof/Machine/Frame.lean ====
section
/-! DEFINITION. The constants of the wire format (00_scope.md R7), the frame (30_encoding.md R60), and BUILD. -/

namespace Sys2Proof.Machine

/-- RDY, the ready marker (00_scope.md R7). -/
def rdyByte : Byte := 0x01

/-- SOF[0], the preamble (30_encoding.md R60). -/
def sof0 : Byte := 0x00

/-- SOF[1] (30_encoding.md R60). -/
def sof1 : Byte := 0x00

/-- SOF[2] (30_encoding.md R60). -/
def sof2 : Byte := 0xFF

/-- POSTAMBLE (00_scope.md R7). PRESUMED by the spec itself (93_implementation_defined.md G3; log 8). -/
def postamble : Byte := 0x00

/-- ACKROM, the acknowledgement constant (00_scope.md R7, 10_state.md R24). -/
def ackRom : List Byte := [0x01, 0x00, 0x00, 0xFF, 0x00, 0xFF, 0x00]

/-- The fields of a frame ahead of its payload: SOF, LEN, LCS (30_encoding.md R60). -/
def frameHead (n : Nat) : List Byte := [sof0, sof1, sof2, BitVec.ofNat 8 n, lcsOf n]

/-- `frame(p)` (30_encoding.md R60). -/
def frameOf (p : List Byte) : List Byte := frameHead p.length ++ p ++ [dcsOf p, postamble]

/-- FCNT <- n. -/
def setFcnt (n : Nat) (s : State) : State := s.setRegs { s.regs with fcnt := BitVec.ofNat 16 n }

/-- BUILD (41_frame_build.md R111): EMPTY, then TOOLARGE, then the frame into FBUF and its length into FCNT. -/
def execBuild (s : State) : Result :=
  if s.regs.pcnt.toNat = 0 then .next (raise .empty s)
  else if s.regs.pcnt.toNat > s.cfg.maxLen then .next (raise .toolarge s)
  else .next (complete true (setFcnt (s.regs.pcnt.toNat + 7) (s.writeBytes .fbuf 0 (frameOf s.payload))))

end Sys2Proof.Machine
end

