-- ==== Sys2Proof/Machine/Parse.lean ====
section
/-! DEFINITION. PARSE (42_frame_parse.md R120): one left-to-right scan over FBUF[0..FCNT) with a cursor. -/

namespace Sys2Proof.Machine

/-- A refused frame: the error and the index it reports. -/
structure ScanError where
  err : ErrCode
  pos : Nat
  deriving DecidableEq, Repr

/-- An accepted frame: the index of its first payload byte, LEN, and the index after its last byte. -/
structure ScanFrame where
  off : Nat
  len : Nat
  stop : Nat
  deriving DecidableEq, Repr

/-- `need(p)`, then the byte at p (42_frame_parse.md R120). -/
def needByte (rd : Nat → Byte) (n p : Nat) : Except ScanError Byte :=
  if n ≤ p then .error ⟨.trunc, p⟩ else .ok (rd p)

/-- `need(p)`, then the byte at p must be v; the next cursor. -/
def expectByte (rd : Nat → Byte) (n p : Nat) (v : Byte) (e : ErrCode) : Except ScanError Nat :=
  match needByte rd n p with
  | .error x => .error x
  | .ok b => if b ≠ v then .error ⟨e, p⟩ else .ok (p + 1)

/-- `need(p)`, then v and the byte at p must sum to zero; the next cursor. -/
def expectSum (rd : Nat → Byte) (n p : Nat) (v : Byte) (e : ErrCode) : Except ScanError Nat :=
  match needByte rd n p with
  | .error x => .error x
  | .ok b => if sumsToZero v b then .ok (p + 1) else .error ⟨e, p⟩

/-- The payload loop: l bytes from cursor p on, added to acc; the sum and the next cursor. -/
def scanPayload (rd : Nat → Byte) (n l p : Nat) (acc : Byte) : Except ScanError (Byte × Nat) :=
  match l with
  | 0 => .ok (acc, p)
  | l + 1 =>
    match needByte rd n p with
    | .error x => .error x
    | .ok b => scanPayload rd n l (p + 1) (acc + b)

/-- The marker, when CTRL.MARK == 1; the next cursor. -/
def scanMarker (rd : Nat → Byte) (n : Nat) (mark : Bool) : Except ScanError Nat :=
  if mark then expectByte rd n 0 rdyByte .marker else .ok 0

/-- The start sequence from cursor p on; the next cursor. -/
def scanStart (rd : Nat → Byte) (n p : Nat) : Except ScanError Nat := do
  let p ← expectByte rd n p sof0 .start
  let p ← expectByte rd n p sof1 .start
  expectByte rd n p sof2 .start

/-- LEN and LCS from cursor p on, then EMPTY and TOOLARGE at the LEN byte; LEN. -/
def scanLength (rd : Nat → Byte) (n maxLen p : Nat) : Except ScanError Nat := do
  let l ← needByte rd n p
  let q ← expectSum rd n (p + 1) l .lcs
  if l.toNat = 0 then .error ⟨.empty, q - 2⟩
  else if l.toNat > maxLen then .error ⟨.toolarge, q - 2⟩
  else .ok l.toNat

/-- The postamble at cursor p, when CTRL.POST == 1; the next cursor. -/
def scanPost (rd : Nat → Byte) (n p : Nat) (post : Bool) : Except ScanError Nat :=
  if post then expectByte rd n p postamble .post else .ok p

/-- The whole scan over n bytes (42_frame_parse.md R120). -/
def scanFrame (rd : Nat → Byte) (n maxLen : Nat) (mark post : Bool) : Except ScanError ScanFrame := do
  let p ← scanMarker rd n mark
  let p ← scanStart rd n p
  let l ← scanLength rd n maxLen p
  let off := p + 2
  let (acc, p) ← scanPayload rd n l off 0
  let p ← expectSum rd n p acc .dcs
  let p ← scanPost rd n p post
  return ⟨off, l, p⟩

/-- PAYOFF <- off ; PAYLEN <- l. -/
def setPay (off l : Nat) (s : State) : State :=
  s.setRegs { s.regs with payoff := BitVec.ofNat 16 off, paylen := BitVec.ofNat 8 l }

/-- An error completion of PARSE: "PAYOFF <- 0, PAYLEN <- 0" (42_frame_parse.md R122). -/
def parseFail (e : ErrCode) (p : Nat) (s : State) : State := raiseAt e p (setPay 0 0 s)

/-- PARSE (42_frame_parse.md R120). -/
def execParse (s : State) : Result :=
  if s.regs.fcnt.toNat > s.cfg.fbSize then .next (parseFail .range 0 s)
  else
    match scanFrame (s.byteAt .fbuf) s.regs.fcnt.toNat s.cfg.maxLen (ctrlMark s.regs.ctrl) (ctrlPost s.regs.ctrl) with
    | .error x => .next (parseFail x.err x.pos s)
    | .ok f => .next (complete true (setPos f.stop (setPay f.off f.len s)))

end Sys2Proof.Machine
end

