-- ==== Sys2Proof/Machine/Verify.lean ====
section
/-! DEFINITION. VERIFY and VACK (43_verify.md): their accept step (R141), and the receive and settle-end steps of
R150 that carry them to completion. -/

namespace Sys2Proof.Machine

/-- Ask the transport for the bytes of one comparison, in one request of count n (20_memory.md R44). -/
def requestBytes (n : Nat) (s : State) : State :=
  s.setBus { s.bus with requests := n :: s.bus.requests }

/-- Ask the sleeper for one settle delay (43_verify.md R147). -/
def requestDelay (s : State) : State := s.setSleeper { s.sleeper with asked := s.sleeper.asked + 1 }

/-- PHASE <- SETTLE, and the settle delay is requested (43_verify.md R147). -/
def enterSettle (s : State) : State := requestDelay (s.setPhase .settle)

/-- The accept step of a comparison of n bytes (43_verify.md R141). DEDUCED (log 4): MISPOS <- 0 is R142's. -/
def startCompare (n : Nat) (src : VSrc) (s : State) : State :=
  let s1 := (s.setRegs { s.regs with status := statusAccept s.regs.status, ecode := noError }).setCmp
    { s.cmp with rxn := n, rxk := 0, mis := false, mispos := 0, vsrc := src }
  if n > 0 then requestBytes n (s1.setPhase .rx) else enterSettle s1

/-- VERIFY (43_verify.md R142), its accept step; RANGE ends it at once, with no bus request and no delay (R148). -/
def execVerify (s : State) : Result :=
  if s.regs.ecnt.toNat > s.cfg.ebSize then .next (raise .range s)
  else .next (startCompare s.regs.ecnt.toNat .ebuf s)

/-- VACK (43_verify.md R144), its accept step. -/
def execVack (s : State) : Result := .next (startCompare ackRom.length .ackrom s)

/-- `E[k]`, the expected byte of the running comparison: EBUF[k] or ACKROM[k] (43_verify.md R142, R144). -/
def State.expected (s : State) (k : Nat) : Byte :=
  match s.cmp.vsrc with
  | .ebuf => s.byteAt .ebuf k
  | .ackrom => ackRom.getD k 0

/-- The hidden state after byte b is received: MIS and MISPOS keep the first mismatch, RXK counts
(43_verify.md R145, R150). -/
def compareByte (c : Compare) (want b : Byte) : Compare :=
  if c.mis = false ∧ b ≠ want then { c with mis := true, mispos := c.rxk, rxk := c.rxk + 1 }
  else { c with rxk := c.rxk + 1 }

/-- The receive step (43_verify.md R150, step 1), the transport offering byte b. -/
def receiveByte (b : Byte) (s : State) : State :=
  let s1 := s.setCmp (compareByte s.cmp (s.expected s.cmp.rxk) b)
  if s1.cmp.rxk = s1.cmp.rxn then enterSettle s1 else s1

/-- The settle-end step (43_verify.md R150, step 2). -/
def settleEnd (s : State) : State :=
  complete (!s.cmp.mis) (setPos (if s.cmp.mis then s.cmp.mispos else s.cmp.rxn) s)

/-- The transport's turn: enabled when PHASE == RX and a byte is there; else FCODEC "does not listen" and nothing
changes (43_verify.md R150, R151, 60_exceptions.md R187). `BusRead()` consumes the byte (20_memory.md R44). -/
def transportTurn (s : State) : State :=
  match s.cmp.phase, s.bus.pending with
  | .rx, b :: rest => receiveByte b (s.setBus { s.bus with pending := rest, taken := s.bus.taken + 1 })
  | _, _ => s

/-- The sleeper's turn: enabled when PHASE == SETTLE (43_verify.md R150). -/
def sleeperTurn (s : State) : State :=
  match s.cmp.phase with
  | .settle => settleEnd (s.setSleeper { s.sleeper with ended := s.sleeper.ended + 1 })
  | .idle | .rx => s

/-- The count of the bus read request that stands open, if one does (20_memory.md R44). -/
def State.busRequest? (s : State) : Option Nat :=
  match s.cmp.phase with
  | .rx => some s.cmp.rxn
  | .idle | .settle => none

/-- The duration of the settle delay that stands requested, if one does (43_verify.md R147). -/
def State.delayRequest? (s : State) : Option Nat :=
  match s.cmp.phase with
  | .settle => some Config.tSettle
  | .idle | .rx => none

end Sys2Proof.Machine
end

