-- ==== Sys2Proof/Machine/Dispatch.lean ====
section
/-! DEFINITION. The meaning of each operation, one arm per constructor: what FCODEC does from the accept of its
command on (60_exceptions.md R180). -/

namespace Sys2Proof.Machine

def exec (i : Instr) (s : State) : Host.Outcome State Fault Refusal :=
  match i with
  | .lcs => Sys2Proof.Machine.execLcs s
  | .chkl => Sys2Proof.Machine.execChkl s
  | .dcs => Sys2Proof.Machine.execDcs s
  | .chkd => Sys2Proof.Machine.execChkd s
  | .build => Sys2Proof.Machine.execBuild s
  | .parse => Sys2Proof.Machine.execParse s
  | .verify => Sys2Proof.Machine.execVerify s
  | .vack => Sys2Proof.Machine.execVack s
  | .ndefhdr => Sys2Proof.Machine.execNdefhdr s

end Sys2Proof.Machine
end

