-- ==== Sys2Proof/Machine/HostPort.lean ====
section
/-! DEFINITION. The host port (20_memory.md R40 to R49): what one host access does, and a turn of each agent. -/

namespace Sys2Proof.Machine

/-- STATUS.OVR <- 1: a CMD write arrived while BUSY (10_state.md R11). -/
def setOverrun (s : State) : State :=
  s.setRegs { s.regs with status := setFlag s.regs.status .ovr true }

/-- A command byte the block accepts, BUSY being 0: the operation it encodes runs (60_exceptions.md R180); an illegal
byte completes with ILLOP (R185). -/
def issueCommand (c : Byte) (s : State) : Result :=
  match decode s.cfg c with
  | .ok i => exec i (accept c s)
  | .error _ => .next (raise .illop (accept c s))

/-- A host write to a register, BUSY being 0 (10_state.md R10 to R21). A write to a read-only register is ignored. -/
def writeReg (n : RegName) (d : Half) (s : State) : Result :=
  match n with
  | .cmd => issueCommand (d.setWidth 8) s
  | .status => .next (s.setRegs { s.regs with status := statusHostWrite (d.setWidth 8) s.regs.status })
  | .ctrl => .next (s.setRegs { s.regs with ctrl := ctrlHostWrite (d.setWidth 8) })
  | .a => .next (s.setRegs { s.regs with a := d.setWidth 8 })
  | .b => .next (s.setRegs { s.regs with b := d.setWidth 8 })
  | .pcnt => .next (s.setRegs { s.regs with pcnt := d })
  | .fcnt => .next (s.setRegs { s.regs with fcnt := d })
  | .ecnt => .next (s.setRegs { s.regs with ecnt := d })
  | .ecode | .r | .pos | .payoff | .paylen | .hidx | .langlen | .textlen | .textoff => .next s

/-- A host write while BUSY is 1: dropped; a CMD write also sets OVR (20_memory.md R49). -/
def writeBusy (sp : Space) (i : Nat) (s : State) : State :=
  match sp, i with
  | .reg, 0x00 => setOverrun s
  | _, _ => s

/-- A host write while BUSY is 0. An unassigned register number or buffer index drops it (20_memory.md R43). -/
def writeIdle (sp : Space) (i : Nat) (d : Half) (s : State) : Result :=
  match sp with
  | .buf b => .next (s.writeByte b i (d.setWidth 8))
  | .reg =>
    match regOfNum i with
    | some n => writeReg n d s
    | none => .next s

/-- A host write of d to a space and index. -/
def hostWrite (sp : Space) (i : Nat) (d : Half) (s : State) : Result :=
  if s.flag .busy then .next (writeBusy sp i s) else writeIdle sp i d s

/-- The host gets v as the answer of its read; "Reads have no side effects" (20_memory.md R48). -/
def answerRead (v : Half) (s : State) : State := s.setHost { s.host with lastRead := some v }

/-- A host read of a space and index; it is answered while BUSY too (20_memory.md R49). -/
def hostRead (sp : Space) (i : Nat) (s : State) : State := answerRead (s.portValue sp i) s

/-- One host action (30_encoding.md R75). A flat address stands for its space and index; an unassigned one reads 0 and
drops a write (20_memory.md R41, R43). WAIT reads STATUS. -/
def hostAct (act : HostAction) (s : State) : Result :=
  match act with
  | .write sp i d => hostWrite sp i d s
  | .read sp i => .next (hostRead sp i s)
  | .writeAt addr d =>
    match flatMap s.cfg addr.toNat with
    | some (sp, i) => hostWrite sp i d s
    | none => .next s
  | .readAt addr =>
    match flatMap s.cfg addr.toNat with
    | some (sp, i) => .next (hostRead sp i s)
    | none => .next (answerRead 0 s)
  | .wait => .next (hostRead .reg 0x01 s)

/-- What is left of the host's queue once its first action is taken: WAIT "reads STATUS until DONE == 1", so it stays
while DONE is 0 (30_encoding.md R75). -/
def queueAfter (act : HostAction) (rest : List HostAction) (s : State) : List HostAction :=
  match act with
  | .wait => if s.flag .done then rest else .wait :: rest
  | .write _ _ _ | .read _ _ | .writeAt _ _ | .readAt _ => rest

/-- The host's turn: its next action, in the order it issues them (20_memory.md R46). -/
def hostTurn (s : State) : Result :=
  match s.host.queue with
  | [] => .next s
  | act :: rest => hostAct act (s.setHost { s.host with queue := queueAfter act rest s })

/-- A turn of an agent (43_verify.md R150, 70_reset_and_hazards.md R210). -/
def agentTurn (who : Agent) (s : State) : Result :=
  match who with
  | .host => hostTurn s
  | .transport => .next (transportTurn s)
  | .sleeper => .next (sleeperTurn s)
  | .resetPin => .next (pinReset s)

/-- One step: the agent whose turn it is acts; when no agent has a turn nothing changes, for no step is "enabled by
... FCODEC alone" (43_verify.md R150). -/
def takeTurn (s : State) : Result :=
  match s.turns with
  | [] => .next s
  | who :: rest => agentTurn who (s.setTurns rest)

/-- The state in which the very next step is the host's write of the command byte of a table word. -/
def placeCommand (nbits w : Nat) (s : State) : State :=
  (s.setHost { s.host with queue := .write .reg 0x00 ((tableByte nbits w).setWidth 16) :: s.host.queue }).setTurns
    (.host :: s.turns)

end Sys2Proof.Machine
end

