-- ==== Sys2Proof/Machine/Step.lean ====
section
/-! DEFINITION. The step of the machine, and where it fetches its next command. -/

namespace Sys2Proof.Machine

/-- One step (43_verify.md R150): a turn of the agent that acts next. -/
def step (s : State) : Host.Outcome State Fault Refusal := takeTurn s

/-- FCODEC fetches no instructions: "The host decides what operation comes next by what it writes to CMD"
(10_state.md R30). So the word is placed as the host's next action, and the next turn is the host's (log 7). -/
def State.withFetchWord (s : State) (nbits w : Nat) : State := placeCommand nbits w s

end Sys2Proof.Machine
end

