-- ==== Sys2Proof/Safety.lean ====
section
/-! DEFINITION. What the statements speak of: the invariant of the machine, runs of steps, and the spec's own
mathematics (sums, the closed form of a valid frame, the first mismatch) written apart from the machine. -/

namespace Sys2Proof.Machine

/-- The exact sum of a byte sequence, before any reduction (40_checksum.md R91). -/
def natSum (bs : List Byte) : Nat :=
  match bs with
  | [] => 0
  | b :: rest => b.toNat + natSum rest

/-- The index of the first byte of `got` that differs from the byte of `want` at the same index
(43_verify.md R143), none when they agree. -/
def firstMismatch (want got : List Byte) : Option Nat :=
  match want, got with
  | w :: ws, g :: gs => if g = w then (firstMismatch ws gs).map (· + 1) else some 0
  | _, _ => none

/-- Every byte the host and the operations can read in `t` is the one in `s`. -/
def sameBytes (s t : State) : Prop := ∀ (b : Buffer) (i : Nat), t.byteAt b i = s.byteAt b i

/-- The bits of STATUS that no operation writes, OVR and the reserved ones, are the same in `t` and `s`
(10_state.md R31). -/
def sameOverrun (s t : State) : Prop := t.regs.status &&& 0xF0#8 = s.regs.status &&& 0xF0#8

/-- The write set "S" and PHASE (10_state.md R31): `t` is `s` but for the four STATUS fields BUSY, DONE, ERR, T, for
ECODE, for PHASE, and for the registers that `regs` already carries. The rest of the hidden state stays (log 3). -/
def onlyS (regs : Regs) (s t : State) : Prop :=
  t = (s.setRegs { regs with status := t.regs.status, ecode := t.regs.ecode }).setPhase t.cmp.phase ∧ sameOverrun s t

/-- `t` ended with a normal completion and result `r` (60_exceptions.md R181). -/
def completedWith (r : Bool) (t : State) : Prop :=
  t.flag .busy = false ∧ t.flag .done = true ∧ t.flag .err = false ∧ t.flag .t = r ∧ t.regs.ecode = 0x00 ∧
    t.cmp.phase = .idle

/-- `t` ended with an error completion and a code (60_exceptions.md R182). -/
def failedWith (e : ErrCode) (t : State) : Prop :=
  t.flag .busy = false ∧ t.flag .done = true ∧ t.flag .err = true ∧ t.flag .t = false ∧ t.regs.ecode = e.code ∧
    t.cmp.phase = .idle

/-- The closed form of a frame PARSE accepts, for m, q the values of CTRL.MARK and CTRL.POST (42_frame_parse.md
R124). -/
def validFrame (rd : Nat → Byte) (n maxLen m q : Nat) : Prop :=
  m + 5 ≤ n ∧ (m = 0 ∨ rd 0 = 0x01) ∧ rd m = 0x00 ∧ rd (m + 1) = 0x00 ∧ rd (m + 2) = 0xFF ∧
    ((rd (m + 3)).toNat + (rd (m + 4)).toNat) % 0x100 = 0 ∧ 1 ≤ (rd (m + 3)).toNat ∧ (rd (m + 3)).toNat ≤ maxLen ∧
    m + 6 + (rd (m + 3)).toNat + q ≤ n ∧
    (natSum ((List.range (rd (m + 3)).toNat).map fun k => rd (m + 5 + k)) +
      (rd (m + 5 + (rd (m + 3)).toNat)).toNat) % 0x100 = 0 ∧
    (q = 0 ∨ rd (m + 6 + (rd (m + 3)).toNat) = 0x00)

/-- FBUF holds a frame PARSE accepts (42_frame_parse.md R124), a count beyond the capacity being refused first
(R120). -/
def State.holdsFrame (s : State) : Prop :=
  s.regs.fcnt.toNat ≤ s.cfg.fbSize ∧
    validFrame (s.byteAt .fbuf) s.regs.fcnt.toNat s.cfg.maxLen (ctrlMark s.regs.ctrl).toNat (ctrlPost s.regs.ctrl).toNat

/-- Every test PARSE makes at an index below p passed: the marker, the three start bytes, the length relation with the
size tests behind it, and the data checksum (42_frame_parse.md R120, R123). -/
def State.testsPassed (s : State) (p : Nat) : Prop :=
  let rd := s.byteAt .fbuf
  let m := (ctrlMark s.regs.ctrl).toNat
  let l := (rd (m + 3)).toNat
  (0 < p → m = 1 → rd 0 = 0x01) ∧ (m < p → rd m = 0x00) ∧ (m + 1 < p → rd (m + 1) = 0x00) ∧
    (m + 2 < p → rd (m + 2) = 0xFF) ∧
    (m + 4 < p → (l + (rd (m + 4)).toNat) % 0x100 = 0 ∧ 1 ≤ l ∧ l ≤ s.cfg.maxLen) ∧
    (m + 5 + l < p →
      (natSum ((List.range l).map fun k => rd (m + 5 + k)) + (rd (m + 5 + l)).toNat) % 0x100 = 0)

/-- The header pattern at index i, both bytes inside the usable region (44_ndef_header.md R162, R166). -/
def State.headerAt (s : State) (i : Nat) : Prop :=
  s.cfg.ndefHdrSkip ≤ i ∧ i + 5 < regionEnd s.cfg s.regs.fcnt.toNat ∧ s.byteAt .fbuf i = 0x03 ∧ s.byteAt .fbuf (i + 5) = 0x54

/-- The first header pattern is at index i (44_ndef_header.md R164). -/
def State.firstHeader (s : State) (i : Nat) : Prop := s.headerAt i ∧ ∀ j < i, ¬ s.headerAt j

/-- The host's turn has come, its next action is `act`, and `s0` is the machine once both are taken from their
queues. WAIT is not meant: it may stay in its queue. -/
def State.hostDoes (s : State) (act : HostAction) (s0 : State) : Prop :=
  act ≠ .wait ∧ ∃ (q : List HostAction) (ts : List Agent), s.turns = .host :: ts ∧ s.host.queue = act :: q ∧
    s0 = (s.setTurns ts).setHost { s.host with queue := q }

/-- k steps of the machine. -/
def runSteps (k : Nat) (s : State) : Result := Sys2Proof.core.run k s

/-- A machine right after reset: any instance, any unspecified buffer contents, any host script, any byte stream and
any order of turns. -/
def State.start (cfg : Config) (epoch : Nat) (script : List HostAction) (stream : List Byte) (turns : List Agent) :
    State :=
  { State.reset with
    cfg := cfg
    epoch := epoch
    bus := { pending := stream, taken := 0, requests := [] }
    host := { queue := script, lastRead := none }
    turns := turns }

/-- The invariant of the machine between steps. -/
structure State.Inv (s : State) : Prop where
  /-- The parameters are in their ranges (00_scope.md R4). -/
  cfg_wf : s.cfg.wf = true
  /-- Bits 7:5 of STATUS read as 0 (10_state.md R12). -/
  status_reserved : s.regs.status &&& 0xE0#8 = 0#8
  /-- Bits 7:2 of CTRL read as 0 (10_state.md R13). -/
  ctrl_reserved : s.regs.ctrl &&& 0xFC#8 = 0#8
  /-- "STATUS.BUSY == 1 exactly when PHASE != IDLE" (10_state.md R25). -/
  busy_phase : s.flag .busy = true ↔ s.cmp.phase ≠ .idle
  /-- While BUSY, STATUS reads DONE = 0, ERR = 0, T = 0 and ECODE reads 0x00 (20_memory.md R49). -/
  busy_flags : s.flag .busy = true →
    s.flag .done = false ∧ s.flag .err = false ∧ s.flag .t = false ∧ s.regs.ecode = 0x00
  /-- "ERR == 1 implies T == 0 and DONE == 1" (10_state.md R12). -/
  err_flags : s.flag .err = true → s.flag .t = false ∧ s.flag .done = true
  /-- ECODE says which error, 0x00 without one, and only the codes of the table are produced (60_exceptions.md R183). -/
  err_code : (s.flag .err = true ↔ s.regs.ecode ≠ 0x00) ∧ s.regs.ecode.toNat ≤ 0x0C
  /-- The buffers are in canonical form and list no index beyond their capacity (10_state.md R23). -/
  bufs_wf : ∀ b : Buffer, Memory.wf (s.bufs.get b) ∧ Memory.below (s.bufs.get b) (capacity s.cfg b)
  /-- In RX there are bytes still to read; in SETTLE there are none (43_verify.md R150). -/
  phase_count : (s.cmp.phase = .rx → s.cmp.rxk < s.cmp.rxn) ∧ (s.cmp.phase = .settle → s.cmp.rxk = s.cmp.rxn)
  /-- The bytes a comparison reads are within its source (10_state.md R25). -/
  source_count : s.cmp.phase ≠ .idle →
    s.cmp.rxn ≤ s.cfg.ebSize ∧ (s.cmp.vsrc = .ackrom → s.cmp.rxn = 7)
  /-- The first mismatch is at an index already read (10_state.md R25). -/
  mispos_read : s.cmp.phase ≠ .idle → s.cmp.mis = true → s.cmp.mispos < s.cmp.rxk
  /-- PAYOFF and PAYLEN report no payload, or one of 1 to MAXLEN bytes after a marker or none (42_frame_parse.md R121,
  R122). -/
  payload_report : (s.regs.payoff = 0 ∧ s.regs.paylen = 0) ∨
    ((s.regs.payoff = 5 ∨ s.regs.payoff = 6) ∧ 1 ≤ s.regs.paylen.toNat ∧ s.regs.paylen.toNat ≤ s.cfg.maxLen)
  /-- The NDEF registers report no header, or one whose numbers agree (44_ndef_header.md R163). -/
  header_report : (s.regs.hidx = 0 ∧ s.regs.langlen = 0 ∧ s.regs.textlen = 0 ∧ s.regs.textoff = 0) ∨
    (s.regs.langlen.toNat ≤ 63 ∧ s.regs.langlen.toNat + 1 + s.regs.textlen.toNat ≤ 255 ∧
      s.regs.textoff.toNat = s.regs.hidx.toNat + 7 + s.regs.langlen.toNat)
  /-- Without the NDEF unit its registers are never written (00_scope.md R6). -/
  ndef_absent : s.cfg.hasNdef = false →
    s.regs.hidx = 0 ∧ s.regs.langlen = 0 ∧ s.regs.textlen = 0 ∧ s.regs.textoff = 0

end Sys2Proof.Machine
end

