-- ==== Sys2Proof/Certificates/Slice0/Obligations.lean ====
section
/-! DEFINITION. The statements for the provers. Each docstring names the rule of the spec it formalises. -/

open Sys2Proof Sys2Proof.Machine

/-! ## Encoding -/

/-- 30_encoding.md R70, R71, R72: decode and encode agree in both directions for every instance, and the bytes that
decode to nothing are exactly 0x00, 0x0A to 0xFF, and 0x09 of an instance without the NDEF unit. -/
def Obligations.DecodeEncodeAgree : Prop :=
  (∀ (cfg : Config) (i : Instr), i.wf cfg = true → decode cfg (encode i) = .ok i) ∧
  (∀ (cfg : Config) (c : Byte) (i : Instr), decode cfg c = .ok i → encode i = c ∧ i.wf cfg = true) ∧
  (∀ (cfg : Config) (c : Byte), (∃ e, decode cfg c = .error e) ↔
    c.toNat = 0x00 ∨ 0x0A ≤ c.toNat ∨ (c.toNat = 0x09 ∧ cfg.hasNdef = false))

/-- 30_encoding.md R71: the nine codes, bit by bit. -/
def Obligations.CommandCodesDecode : Prop :=
  ∀ cfg : Config,
    decode cfg 0b00000001#8 = .ok .lcs ∧ decode cfg 0b00000010#8 = .ok .chkl ∧
    decode cfg 0b00000011#8 = .ok .dcs ∧ decode cfg 0b00000100#8 = .ok .chkd ∧
    decode cfg 0b00000101#8 = .ok .build ∧ decode cfg 0b00000110#8 = .ok .parse ∧
    decode cfg 0b00000111#8 = .ok .verify ∧ decode cfg 0b00001000#8 = .ok .vack ∧
    (cfg.hasNdef = true → decode cfg 0b00001001#8 = .ok .ndefhdr)

/-! ## Commands -/

/-- 60_exceptions.md R180, 10_state.md R11: a legal CMD write while BUSY is 0 is accepted (CMD holds the byte, BUSY is
1, DONE, ERR, T are 0, ECODE is 0x00, OVR and everything else stay) and the operation it encodes runs from there; the
flat address 0x000 is the same write. The datum is one the interface can express (10_state.md R21). -/
def Obligations.StepRunsDecodedCommand : Prop :=
  ∀ (s s0 : State) (act : HostAction) (d : Half) (i : Instr),
    s.hostDoes act s0 → act.wf = true → (act = .write .reg 0x00 d ∨ act = .writeAt 0x000 d) →
    s.flag .busy = false →
    decode s.cfg (d.setWidth 8) = .ok i →
    ∃ a, step s = exec i a ∧
      a = s0.setRegs { s0.regs with cmd := d.setWidth 8, status := a.regs.status, ecode := 0x00 } ∧
      a.flag .busy = true ∧ a.flag .done = false ∧ a.flag .err = false ∧ a.flag .t = false ∧ sameOverrun s0 a

/-- 60_exceptions.md R185, 30_encoding.md R72: an illegal CMD byte written while BUSY is 0 is stored in CMD and
completes in the same step with ILLOP; nothing else changes. The datum is one byte (10_state.md R21). -/
def Obligations.IllegalCommandCompletes : Prop :=
  ∀ (s s0 : State) (d : Half),
    s.hostDoes (.write .reg 0x00 d) s0 → (HostAction.write .reg 0x00 d).wf = true → s.flag .busy = false →
    ((d.setWidth 8).toNat = 0x00 ∨ 0x0A ≤ (d.setWidth 8).toNat ∨
      ((d.setWidth 8).toNat = 0x09 ∧ s.cfg.hasNdef = false)) →
    ∃ t, step s = .next t ∧ failedWith .illop t ∧ onlyS { s0.regs with cmd := d.setWidth 8 } s0 t

/-- Log 7, the model's convention: the step after `withFetchWord` runs the operation of the word. -/
def Obligations.FetchWordRuns : Prop :=
  ∀ (s : State) (nbits w : Nat) (i : Instr), s.flag .busy = false → decode s.cfg (tableByte nbits w) = .ok i →
    step (s.withFetchWord nbits w) = exec i (accept (tableByte nbits w) s)

/-! ## Host accesses -/

/-- 20_memory.md R49: a host write while BUSY is 1 is dropped; a write to CMD sets OVR, and nothing else records it:
every other flag, the reserved bits of STATUS and all else stay. -/
def Obligations.WritesWhileBusyDropped : Prop :=
  ∀ (s s0 : State) (sp : Space) (i : Nat) (d : Half), s.hostDoes (.write sp i d) s0 → s.flag .busy = true →
    (sp = .reg ∧ i = 0x00 → ∃ t, step s = .next t ∧ t = s0.setRegs { s0.regs with status := t.regs.status } ∧
      t.regs.status &&& 0xE0#8 = s.regs.status &&& 0xE0#8 ∧
      ∀ f, t.flag f = if f = .ovr then true else s.flag f) ∧
    (¬ (sp = .reg ∧ i = 0x00) → step s = .next s0)

/-- 20_memory.md R48, 10_state.md R10, 00_scope.md R6: a read answers the byte of a buffer or the register of its
number, the four NDEF registers being 0 without the unit, and changes nothing else, BUSY or not. That an 8-bit value
is answered widened with zeros is the model's (log 10), and so is where the answer is kept (log 11). -/
def Obligations.ReadsHaveNoSideEffects : Prop :=
  ∀ (s s0 : State) (sp : Space) (i : Nat), s.hostDoes (.read sp i) s0 →
    ∃ t v, step s = .next t ∧ t = s0.setHost { s0.host with lastRead := some v } ∧ sameBytes s t ∧
      (∀ b, sp = .buf b → v = (s.byteAt b i).setWidth 16) ∧
      (sp = .reg →
        (i = 0x00 → v = s.regs.cmd.setWidth 16) ∧
        (i = 0x01 → v = s.regs.status.setWidth 16) ∧
        (i = 0x02 → v = s.regs.ctrl.setWidth 16) ∧
        (i = 0x03 → v = s.regs.ecode.setWidth 16) ∧
        (i = 0x04 → v = s.regs.a.setWidth 16) ∧
        (i = 0x05 → v = s.regs.b.setWidth 16) ∧
        (i = 0x06 → v = s.regs.r.setWidth 16) ∧
        (i = 0x07 → v = s.regs.pcnt) ∧
        (i = 0x08 → v = s.regs.fcnt) ∧
        (i = 0x09 → v = s.regs.ecnt) ∧
        (i = 0x0A → v = s.regs.pos) ∧
        (i = 0x0B → v = s.regs.payoff) ∧
        (i = 0x0C → v = s.regs.paylen.setWidth 16) ∧
        (i = 0x0D → v = if s.cfg.hasNdef then s.regs.hidx else 0) ∧
        (i = 0x0E → v = if s.cfg.hasNdef then s.regs.langlen.setWidth 16 else 0) ∧
        (i = 0x0F → v = if s.cfg.hasNdef then s.regs.textlen.setWidth 16 else 0) ∧
        (i = 0x10 → v = if s.cfg.hasNdef then s.regs.textoff else 0))

/-- 20_memory.md R43: an access to an unassigned register number or to a buffer index at or beyond the capacity has no
effect: a write is dropped, a read returns 0. -/
def Obligations.UnassignedAccessHasNoEffect : Prop :=
  ∀ (s s0 : State) (sp : Space) (i : Nat) (d : Half),
    ((sp = .reg ∧ 0x11 ≤ i) ∨ ∃ b, sp = .buf b ∧ capacity s.cfg b ≤ i) →
    (s.hostDoes (.write sp i d) s0 → step s = .next s0) ∧
    (s.hostDoes (.read sp i) s0 → step s = .next (s0.setHost { s0.host with lastRead := some 0 }))

/-- 10_state.md R23, 20_memory.md R48: a byte the host writes while BUSY is 0 is the byte it reads there, and no other
byte and nothing else changes. The datum is one byte (20_memory.md R42), held in the sixteen bits of log 10. -/
def Obligations.BufferWriteThenRead : Prop :=
  ∀ (s s0 : State) (b : Buffer) (i : Nat) (d : Half),
    s.hostDoes (.write (.buf b) i d) s0 → (HostAction.write (.buf b) i d).wf = true → s.flag .busy = false →
    i < capacity s.cfg b →
    ∃ t, step s = .next t ∧ t.byteAt b i = d.setWidth 8 ∧
      (∀ (c : Buffer) (j : Nat), (c ≠ b ∨ j ≠ i) → t.byteAt c j = s.byteAt c j) ∧ t = s0.setBufs t.bufs

/-- 10_state.md R13, R15, R17, R21: what a host write while BUSY is 0 does to CTRL, A, B and the three counts, and that
a write to a read-only register is ignored. The datum is no wider than the register (R21). -/
def Obligations.HostRegisterWrites : Prop :=
  ∀ (s s0 : State) (n : Nat) (d : Half),
    s.hostDoes (.write .reg n d) s0 → (HostAction.write .reg n d).wf = true → s.flag .busy = false →
    (n = 0x02 → ∃ v : Byte, step s = .next (s0.setRegs { s0.regs with ctrl := v }) ∧
      ctrlMark v = d.getLsbD 0 ∧ ctrlPost v = d.getLsbD 1 ∧ ∀ k, 2 ≤ k → v.getLsbD k = false) ∧
    (n = 0x04 → step s = .next (s0.setRegs { s0.regs with a := d.setWidth 8 })) ∧
    (n = 0x05 → step s = .next (s0.setRegs { s0.regs with b := d.setWidth 8 })) ∧
    (n = 0x07 → step s = .next (s0.setRegs { s0.regs with pcnt := d })) ∧
    (n = 0x08 → step s = .next (s0.setRegs { s0.regs with fcnt := d })) ∧
    (n = 0x09 → step s = .next (s0.setRegs { s0.regs with ecnt := d })) ∧
    (n = 0x03 ∨ n = 0x06 ∨ (0x0A ≤ n ∧ n ≤ 0x10) → step s = .next s0)

/-- 10_state.md R12: a host write to STATUS while BUSY is 0 clears OVR if bit 4 is 1 and changes nothing else, the
reserved bits of STATUS among it. The datum is one byte (R21). -/
def Obligations.StatusWriteClearsOverrunOnly : Prop :=
  ∀ (s s0 : State) (d : Half),
    s.hostDoes (.write .reg 0x01 d) s0 → (HostAction.write .reg 0x01 d).wf = true → s.flag .busy = false →
    ∃ t, step s = .next t ∧ t = s0.setRegs { s0.regs with status := t.regs.status } ∧
      t.regs.status &&& 0xE0#8 = s.regs.status &&& 0xE0#8 ∧
      ∀ f, t.flag f = if f = .ovr ∧ d.getLsbD 4 = true then false else s.flag f

/-- 20_memory.md R41: the flat map of this hardware, and that an access by a flat address is the access to its space
and index. -/
def Obligations.FlatAddressMap : Prop :=
  (∀ addr : Nat, addr < 0x1000 →
    flatMap Config.hardware addr =
      if addr ≤ 0x010 then some (.reg, addr)
      else if 0x100 ≤ addr ∧ addr ≤ 0x1FE then some (.buf .pbuf, addr - 0x100)
      else if 0x200 ≤ addr ∧ addr ≤ 0x306 then some (.buf .fbuf, addr - 0x200)
      else if 0x400 ≤ addr ∧ addr ≤ 0x506 then some (.buf .ebuf, addr - 0x400)
      else none) ∧
  (∀ (s : State) (addr : BitVec 12) (d : Half) (sp : Space) (i : Nat), flatMap s.cfg addr.toNat = some (sp, i) →
    hostAct (.writeAt addr d) s = hostAct (.write sp i d) s ∧ hostAct (.readAt addr) s = hostAct (.read sp i) s) ∧
  (∀ (s : State) (addr : BitVec 12) (d : Half), flatMap s.cfg addr.toNat = none →
    hostAct (.writeAt addr d) s = .next s ∧
    hostAct (.readAt addr) s = .next (s.setHost { s.host with lastRead := some 0 }))

/-- 30_encoding.md R75: WAIT reads STATUS, and stays the host's next action until DONE is 1. The queue it stands in is
the model's (log 2). -/
def Obligations.WaitReadsUntilDone : Prop :=
  ∀ (s : State) (ts : List Agent) (q : List HostAction), s.turns = .host :: ts → s.host.queue = .wait :: q →
    step s = .next ((s.setTurns ts).setHost
      { queue := if s.flag .done then q else .wait :: q, lastRead := some (s.regs.status.setWidth 16) })

/-! ## Checksums -/

/-- 40_checksum.md R90: the length checksum is the two's complement modulo 0x100, and the only byte that completes the
length to a multiple of 0x100. -/
def Obligations.LengthChecksumFunction : Prop :=
  (∀ n : Nat, (lcsOf n).toNat = (0x100 - n % 0x100) % 0x100 ∧ (n + (lcsOf n).toNat) % 0x100 = 0 ∧
    lcsOf n = ~~~(BitVec.ofNat 8 n) + 1 ∧ ∀ c : Byte, (n + c.toNat) % 0x100 = 0 → c = lcsOf n) ∧
  lcsOf 0 = 0x00 ∧ lcsOf 1 = 0xFF ∧ lcsOf 2 = 0xFE ∧ lcsOf 255 = 0x01 ∧ lcsOf 256 = 0x00

/-- 40_checksum.md R91: the data checksum is the two's complement of the sum of all payload bytes, and the only byte
that completes it to a multiple of 0x100. -/
def Obligations.DataChecksumFunction : Prop :=
  (∀ p : List Byte, (dcsOf p).toNat = (0x100 - natSum p % 0x100) % 0x100 ∧
    (natSum p + (dcsOf p).toNat) % 0x100 = 0 ∧ ∀ c : Byte, (natSum p + c.toNat) % 0x100 = 0 → c = dcsOf p) ∧
  dcsOf [] = 0x00 ∧ dcsOf [0xD4, 0x14, 0x01] = 0x17 ∧ dcsOf [0xD5, 0x15] = 0x16 ∧ dcsOf [0x80, 0x80] = 0x00

/-- 40_checksum.md R92: the wrapping sum is the exact sum reduced once, it splits over concatenation, and it does not
depend on the order of the bytes. -/
def Obligations.SumIsOrderBlind : Prop :=
  (∀ p : List Byte, (sum8 p).toNat = natSum p % 0x100) ∧
  (∀ p q : List Byte, (sum8 (p ++ q)).toNat = ((sum8 p).toNat + (sum8 q).toNat) % 0x100) ∧
  (∀ p q : List Byte, p.Perm q → sum8 p = sum8 q)

/-- 40_checksum.md R93: LCS, its code, result, flags and frame. -/
def Obligations.LcsResult : Prop :=
  encode .lcs = 0x01 ∧
  ∀ s : State, ∃ t, exec .lcs s = .next t ∧ completedWith true t ∧
    t.regs.r.toNat = (0x100 - s.regs.a.toNat) % 0x100 ∧ onlyS { s.regs with r := t.regs.r } s t ∧ sameBytes s t

/-- 40_checksum.md R94: CHKL, its code, result, flags and frame. -/
def Obligations.ChklResult : Prop :=
  encode .chkl = 0x02 ∧
  ∀ s : State, ∃ t, exec .chkl s = .next t ∧
    completedWith (decide ((s.regs.a.toNat + s.regs.b.toNat) % 0x100 = 0)) t ∧
    (t.flag .t = true ↔ s.regs.b = lcsOf s.regs.a.toNat) ∧ onlyS s.regs s t ∧ sameBytes s t

/-- 40_checksum.md R95: DCS, its code, result, error, flags and frame. -/
def Obligations.DcsResult : Prop :=
  encode .dcs = 0x03 ∧
  ∀ s : State,
    (s.regs.pcnt.toNat > s.cfg.pbSize → ∃ t, exec .dcs s = .next t ∧ failedWith .range t ∧ onlyS s.regs s t ∧
      sameBytes s t) ∧
    (s.regs.pcnt.toNat ≤ s.cfg.pbSize → ∃ t, exec .dcs s = .next t ∧ completedWith true t ∧
      t.regs.r.toNat =
        (0x100 - natSum ((List.range s.regs.pcnt.toNat).map (s.byteAt .pbuf)) % 0x100) % 0x100 ∧
      onlyS { s.regs with r := t.regs.r } s t ∧ sameBytes s t)

/-- 40_checksum.md R96: CHKD, its code, result, error, flags and frame. -/
def Obligations.ChkdResult : Prop :=
  encode .chkd = 0x04 ∧
  ∀ s : State,
    (s.regs.pcnt.toNat > s.cfg.pbSize → ∃ t, exec .chkd s = .next t ∧ failedWith .range t ∧ onlyS s.regs s t ∧
      sameBytes s t) ∧
    (s.regs.pcnt.toNat ≤ s.cfg.pbSize → ∃ t, exec .chkd s = .next t ∧
      completedWith (decide ((natSum ((List.range s.regs.pcnt.toNat).map (s.byteAt .pbuf)) + s.regs.b.toNat)
        % 0x100 = 0)) t ∧
      (t.flag .t = true ↔ s.regs.b = dcsOf ((List.range s.regs.pcnt.toNat).map (s.byteAt .pbuf))) ∧
      onlyS s.regs s t ∧ sameBytes s t)

/-- 40_checksum.md R97: the four facts. -/
def Obligations.ChecksumFacts : Prop :=
  (∀ (s : State) (a : Byte), ∃ t,
    exec .chkl (s.setRegs { s.regs with a := a, b := lcsOf a.toNat }) = .next t ∧ t.flag .t = true) ∧
  (∀ (s : State) (a : Byte), ∃! b : Byte, ∃ t,
    exec .chkl (s.setRegs { s.regs with a := a, b := b }) = .next t ∧ t.flag .t = true) ∧
  (∀ s : State, s.regs.pcnt.toNat ≤ s.cfg.pbSize → ∃ t u, exec .dcs s = .next t ∧
    exec .chkd (t.setRegs { t.regs with b := t.regs.r }) = .next u ∧ u.flag .t = true) ∧
  (∀ a : Byte, lcsOf (lcsOf a.toNat).toNat = a ∧ lcsOf a.toNat = dcsOf [a])

/-! ## BUILD -/

/-- 41_frame_build.md R111, 30_encoding.md R60: for a payload of 1 to MAXLEN bytes BUILD leaves the frame in
FBUF[0..n+7) and n + 7 in FCNT; every other byte, and everything else, stays. -/
def Obligations.BuildWritesFrame : Prop :=
  encode .build = 0x05 ∧
  ∀ s : State, s.cfg.wf = true → 1 ≤ s.regs.pcnt.toNat → s.regs.pcnt.toNat ≤ s.cfg.maxLen →
    ∃ t, exec .build s = .next t ∧ completedWith true t ∧ t.regs.fcnt.toNat = s.regs.pcnt.toNat + 7 ∧
      t.byteAt .fbuf 0 = 0x00 ∧ t.byteAt .fbuf 1 = 0x00 ∧ t.byteAt .fbuf 2 = 0xFF ∧
      (t.byteAt .fbuf 3).toNat = s.regs.pcnt.toNat ∧
      (t.byteAt .fbuf 4).toNat = (0x100 - s.regs.pcnt.toNat) % 0x100 ∧
      (∀ k, k < s.regs.pcnt.toNat → t.byteAt .fbuf (5 + k) = s.byteAt .pbuf k) ∧
      (t.byteAt .fbuf (5 + s.regs.pcnt.toNat)).toNat =
        (0x100 - natSum ((List.range s.regs.pcnt.toNat).map (s.byteAt .pbuf)) % 0x100) % 0x100 ∧
      t.byteAt .fbuf (6 + s.regs.pcnt.toNat) = 0x00 ∧
      (∀ i, s.regs.pcnt.toNat + 7 ≤ i → t.byteAt .fbuf i = s.byteAt .fbuf i) ∧
      (∀ i, t.byteAt .pbuf i = s.byteAt .pbuf i ∧ t.byteAt .ebuf i = s.byteAt .ebuf i) ∧
      onlyS { s.regs with fcnt := t.regs.fcnt } (s.setBufs t.bufs) t

/-- 41_frame_build.md R111, R112, R114: an empty payload is refused with EMPTY and one longer than MAXLEN with
TOOLARGE; FBUF, FCNT and everything else stay. -/
def Obligations.BuildRefusesSizes : Prop :=
  ∀ s : State,
    (s.regs.pcnt.toNat = 0 → ∃ t, exec .build s = .next t ∧ failedWith .empty t ∧ onlyS s.regs s t ∧
      sameBytes s t) ∧
    (s.regs.pcnt.toNat ≠ 0 → s.regs.pcnt.toNat > s.cfg.maxLen →
      ∃ t, exec .build s = .next t ∧ failedWith .toolarge t ∧ onlyS s.regs s t ∧ sameBytes s t)

/-- 41_frame_build.md R115 (d): BUILD is a function of PCNT and the payload alone. -/
def Obligations.BuildDependsOnPayloadOnly : Prop :=
  ∀ s s' : State, s.cfg = s'.cfg → s.cfg.wf = true → s.regs.pcnt = s'.regs.pcnt → 1 ≤ s.regs.pcnt.toNat →
    s.regs.pcnt.toNat ≤ s.cfg.maxLen → (∀ k, k < s.regs.pcnt.toNat → s.byteAt .pbuf k = s'.byteAt .pbuf k) →
    ∃ t t', exec .build s = .next t ∧ exec .build s' = .next t' ∧ t.regs.fcnt = t'.regs.fcnt ∧
      ∀ i, i < t.regs.fcnt.toNat → t.byteAt .fbuf i = t'.byteAt .fbuf i

/-- 41_frame_build.md R115 (c): with MARK = 0, BUILD and PARSE after it complete normally, and PARSE returns the
payload. -/
def Obligations.ParseAfterBuildReturnsPayload : Prop :=
  ∀ s : State, s.cfg.wf = true → 1 ≤ s.regs.pcnt.toNat → s.regs.pcnt.toNat ≤ s.cfg.maxLen →
    ctrlMark s.regs.ctrl = false →
    ∃ t u, exec .build s = .next t ∧ completedWith true t ∧ exec .parse t = .next u ∧ completedWith true u ∧
      u.regs.payoff.toNat = 5 ∧ u.regs.paylen.toNat = s.regs.pcnt.toNat ∧
      u.regs.pos.toNat = s.regs.pcnt.toNat + 6 + (ctrlPost s.regs.ctrl).toNat ∧
      ∀ k, k < s.regs.pcnt.toNat → u.byteAt .fbuf (5 + k) = s.byteAt .pbuf k

/-! ## PARSE -/

/-- 42_frame_parse.md R124: PARSE completes normally if and only if FBUF holds a frame by the closed form. -/
def Obligations.ParseAcceptsExactlyFrames : Prop :=
  ∀ s : State, (∃ t, exec .parse s = .next t ∧ completedWith true t) ↔ s.holdsFrame

/-- 42_frame_parse.md R120, R121: what PARSE reports of a frame, that FBUF[0..POS) is the frame of the reported payload
(behind the marker when MARK = 1, without its last byte when POST = 0), and that nothing else changes. -/
def Obligations.ParseSuccessOutputs : Prop :=
  ∀ s : State, s.cfg.wf = true → s.holdsFrame →
    ∃ t, exec .parse s = .next t ∧ completedWith true t ∧
      t.regs.payoff.toNat = 5 + (ctrlMark s.regs.ctrl).toNat ∧
      t.regs.paylen = s.byteAt .fbuf (3 + (ctrlMark s.regs.ctrl).toNat) ∧ 1 ≤ t.regs.paylen.toNat ∧
      t.regs.pos.toNat = t.regs.payoff.toNat + t.regs.paylen.toNat + 1 + (ctrlPost s.regs.ctrl).toNat ∧
      (List.range t.regs.pos.toNat).map (s.byteAt .fbuf) =
        ((if ctrlMark s.regs.ctrl then [0x01] else []) ++
          frameOf ((List.range t.regs.paylen.toNat).map fun k => s.byteAt .fbuf (t.regs.payoff.toNat + k))).take
            t.regs.pos.toNat ∧
      onlyS { s.regs with pos := t.regs.pos, payoff := t.regs.payoff, paylen := t.regs.paylen } s t ∧ sameBytes s t

/-- 42_frame_parse.md R122, R123: every failure of PARSE reports no payload; the error is the first one in the order
of the scan: every test at an index below POS passed, and the test at POS failed as the error says (for EMPTY and
TOOLARGE, which point at the length byte, the tests up to the LCS byte passed). TRUNC is reported only where a byte of
the frame is missing. -/
def Obligations.ParseFailureOutputs : Prop :=
  ∀ s : State, s.cfg.wf = true → ¬ s.holdsFrame →
    ∃ t e, exec .parse s = .next t ∧ failedWith e t ∧ t.regs.payoff = 0 ∧ t.regs.paylen = 0 ∧
      onlyS { s.regs with pos := t.regs.pos, payoff := 0, paylen := 0 } s t ∧ sameBytes s t ∧
      let n := s.regs.fcnt.toNat
      let m := (ctrlMark s.regs.ctrl).toNat
      let q := (ctrlPost s.regs.ctrl).toNat
      let l := (s.byteAt .fbuf (m + 3)).toNat
      let p := t.regs.pos.toNat
      let lcsHolds := (l + (s.byteAt .fbuf (m + 4)).toNat) % 0x100 = 0
      (e = .range ∧ n > s.cfg.fbSize ∧ p = 0) ∨
      (n ≤ s.cfg.fbSize ∧ s.testsPassed p ∧
        ((e = .trunc ∧ p = n ∧
            (n < m + 5 ∨ (lcsHolds ∧ 1 ≤ l ∧ l ≤ s.cfg.maxLen ∧ n < m + 6 + l + q))) ∨
          (e = .marker ∧ p < n ∧ p = 0 ∧ m = 1 ∧ s.byteAt .fbuf p ≠ 0x01) ∨
          (e = .start ∧ p < n ∧ ((p = m ∧ s.byteAt .fbuf p ≠ 0x00) ∨ (p = m + 1 ∧ s.byteAt .fbuf p ≠ 0x00) ∨
            (p = m + 2 ∧ s.byteAt .fbuf p ≠ 0xFF))) ∨
          (e = .lcs ∧ p < n ∧ p = m + 4 ∧ ¬ lcsHolds) ∨
          (e = .empty ∧ m + 4 < n ∧ p = m + 3 ∧ lcsHolds ∧ l = 0) ∨
          (e = .toolarge ∧ m + 4 < n ∧ p = m + 3 ∧ lcsHolds ∧ l > s.cfg.maxLen) ∨
          (e = .dcs ∧ p < n ∧ p = m + 5 + l ∧
            (natSum ((List.range l).map fun k => s.byteAt .fbuf (m + 5 + k)) + (s.byteAt .fbuf p).toNat) % 0x100 ≠ 0) ∨
          (e = .post ∧ p < n ∧ p = m + 6 + l ∧ q = 1 ∧ s.byteAt .fbuf p ≠ 0x00)))

/-- 42_frame_parse.md R123, its last sentence: bytes behind the one after POS cannot change the error PARSE reports
(the LCS byte, behind the length byte, is tested before EMPTY and TOOLARGE, which point at the length byte). -/
def Obligations.ParseErrorIgnoresLaterBytes : Prop :=
  ∀ s s' t : State, s.cfg.wf = true → s'.cfg = s.cfg → s'.regs.ctrl = s.regs.ctrl → s'.regs.fcnt = s.regs.fcnt →
    exec .parse s = .next t → t.flag .err = true →
    (∀ i, i ≤ t.regs.pos.toNat + 1 → s'.byteAt .fbuf i = s.byteAt .fbuf i) →
    ∃ t', exec .parse s' = .next t' ∧ t'.flag .err = true ∧ t'.regs.ecode = t.regs.ecode ∧ t'.regs.pos = t.regs.pos

/-- 42_frame_parse.md R131 (c): changing any single byte of an accepted frame's region to another value makes PARSE
fail, and no payload is reported. -/
def Obligations.SingleByteErrorDetected : Prop :=
  ∀ (s t : State) (k : Nat) (v : Byte), s.cfg.wf = true → exec .parse s = .next t → t.flag .err = false →
    k < t.regs.pos.toNat → v ≠ s.byteAt .fbuf k →
    ∃ u, exec .parse (s.writeByte .fbuf k v) = .next u ∧ u.flag .err = true ∧ u.flag .t = false ∧
      u.regs.payoff = 0 ∧ u.regs.paylen = 0

/-- 42_frame_parse.md R125: the bytes after an accepted frame are ignored, whatever they are. -/
def Obligations.TrailingBytesIgnored : Prop :=
  ∀ (s t : State) (k : Nat) (v : Byte), s.cfg.wf = true → exec .parse s = .next t → t.flag .err = false →
    t.regs.pos.toNat ≤ k →
    ∃ u, exec .parse (s.writeByte .fbuf k v) = .next u ∧ u.flag .err = false ∧ u.regs.pos = t.regs.pos ∧
      u.regs.payoff = t.regs.payoff ∧ u.regs.paylen = t.regs.paylen

/-- 42_frame_parse.md R131 (b): CHKL on the two length bytes and CHKD on the payload of an accepted frame both give
T = 1. -/
def Obligations.AcceptedFrameMeetsChecks : Prop :=
  ∀ s t : State, s.cfg.wf = true → exec .parse s = .next t → t.flag .err = false →
    (∃ u, exec .chkl (t.setRegs { t.regs with
        a := t.byteAt .fbuf (t.regs.payoff.toNat - 2), b := t.byteAt .fbuf (t.regs.payoff.toNat - 1) }) = .next u ∧
      u.flag .t = true) ∧
    (∀ v : State, v.cfg = t.cfg → v.regs.pcnt.toNat = t.regs.paylen.toNat →
      (∀ k, k < t.regs.paylen.toNat → v.byteAt .pbuf k = t.byteAt .fbuf (t.regs.payoff.toNat + k)) →
      v.regs.b = t.byteAt .fbuf (t.regs.payoff.toNat + t.regs.paylen.toNat) →
      ∃ u, exec .chkd v = .next u ∧ u.flag .t = true)

/-- 42_frame_parse.md R128, 30_encoding.md R63: PARSE of the acknowledgement constant with MARK = 1 is error LCS at
index 5. -/
def Obligations.AckIsNoFrame : Prop :=
  ∀ s : State, ctrlMark s.regs.ctrl = true → 7 ≤ s.regs.fcnt.toNat → s.regs.fcnt.toNat ≤ s.cfg.fbSize →
    (∀ k, k < 7 → s.byteAt .fbuf k = ([0x01, 0x00, 0x00, 0xFF, 0x00, 0xFF, 0x00] : List Byte).getD k 0) →
    ∃ t, exec .parse s = .next t ∧ failedWith .lcs t ∧ t.regs.pos.toNat = 5

/-! ## VERIFY and VACK -/

/-- 43_verify.md R141, R146: the accept step of VERIFY for a count within the capacity, whole; with count 0 the settle
delay is requested at once and no byte is. -/
def Obligations.VerifyAccepts : Prop :=
  encode .verify = 0x07 ∧
  ∀ s : State, s.regs.ecnt.toNat ≤ s.cfg.ebSize →
    ∃ t, exec .verify s = .next t ∧
      t.flag .busy = true ∧ t.flag .done = false ∧ t.flag .err = false ∧ t.flag .t = false ∧ t.regs.ecode = 0x00 ∧
      t.cmp.rxn = s.regs.ecnt.toNat ∧ t.cmp.rxk = 0 ∧ t.cmp.mis = false ∧ t.cmp.vsrc = .ebuf ∧
      (s.regs.ecnt.toNat > 0 → t.cmp.phase = .rx ∧ t.busRequest? = some s.regs.ecnt.toNat ∧
        t.bus.requests = s.regs.ecnt.toNat :: s.bus.requests ∧ t.sleeper = s.sleeper) ∧
      (s.regs.ecnt.toNat = 0 → t.cmp.phase = .settle ∧ t.bus.requests = s.bus.requests ∧
        t.sleeper = { s.sleeper with asked := s.sleeper.asked + 1 }) ∧
      t.bus.pending = s.bus.pending ∧ t.bus.taken = s.bus.taken ∧ sameBytes s t ∧ sameOverrun s t ∧
      t = { s with regs := { s.regs with status := t.regs.status, ecode := 0x00 }, cmp := t.cmp, bus := t.bus,
                   sleeper := t.sleeper }

/-- 43_verify.md R148: VERIFY with ECNT beyond the capacity ends at once with RANGE: no request, no byte read, no
delay, POS unchanged. -/
def Obligations.VerifyRefusesRange : Prop :=
  ∀ s : State, s.regs.ecnt.toNat > s.cfg.ebSize →
    ∃ t, exec .verify s = .next t ∧ failedWith .range t ∧ onlyS s.regs s t ∧ sameBytes s t

/-- 43_verify.md R141, R144: the accept step of VACK, whole. -/
def Obligations.VackAccepts : Prop :=
  encode .vack = 0x08 ∧
  ∀ s : State, ∃ t, exec .vack s = .next t ∧
    t.flag .busy = true ∧ t.flag .done = false ∧ t.flag .err = false ∧ t.flag .t = false ∧ t.regs.ecode = 0x00 ∧
    t.cmp.phase = .rx ∧ t.cmp.rxn = 7 ∧ t.cmp.rxk = 0 ∧ t.cmp.mis = false ∧ t.cmp.vsrc = .ackrom ∧
    t.busRequest? = some 7 ∧ t.bus = { s.bus with requests := 7 :: s.bus.requests } ∧
    sameBytes s t ∧ sameOverrun s t ∧
    t = { s with regs := { s.regs with status := t.regs.status, ecode := 0x00 }, cmp := t.cmp, bus := t.bus }

/-- 43_verify.md R150 (1), R145: a receive step takes one byte of the stream whether or not a mismatch was seen, keeps
the first mismatch, counts, and enters SETTLE after the last byte. -/
def Obligations.ReceiveStep : Prop :=
  ∀ (s : State) (b : Byte) (rest : List Byte) (ts : List Agent),
    s.turns = .transport :: ts → s.cmp.phase = .rx → s.bus.pending = b :: rest →
    ∃ t, step s = .next t ∧ t.bus = { s.bus with pending := rest, taken := s.bus.taken + 1 } ∧
      t.cmp.rxk = s.cmp.rxk + 1 ∧ t.cmp.rxn = s.cmp.rxn ∧ t.cmp.vsrc = s.cmp.vsrc ∧
      (t.cmp.mis = true ↔ s.cmp.mis = true ∨ b ≠ s.expected s.cmp.rxk) ∧
      (s.cmp.mis = true → t.cmp.mispos = s.cmp.mispos) ∧
      (s.cmp.mis = false → b ≠ s.expected s.cmp.rxk → t.cmp.mispos = s.cmp.rxk) ∧
      (s.cmp.rxk + 1 = s.cmp.rxn → t.cmp.phase = .settle ∧
        t.sleeper = { s.sleeper with asked := s.sleeper.asked + 1 }) ∧
      (s.cmp.rxk + 1 ≠ s.cmp.rxn → t.cmp.phase = .rx ∧ t.sleeper = s.sleeper) ∧
      t.regs = s.regs ∧ t.bufs = s.bufs ∧ sameBytes s t ∧ t.host = s.host ∧ t.turns = ts

/-- 43_verify.md R150 (2), R143, R147: the settle-end step writes POS, completes with T = (MIS == 0), and leaves
everything else. That RXN, RXK, MIS, MISPOS and VSRC keep their values through it is the model's (log 3). -/
def Obligations.SettleEndStep : Prop :=
  ∀ (s : State) (ts : List Agent), s.turns = .sleeper :: ts → s.cmp.phase = .settle →
    ∃ t, step s = .next t ∧ completedWith (!s.cmp.mis) t ∧
      t.regs.pos = BitVec.ofNat 16 (if s.cmp.mis then s.cmp.mispos else s.cmp.rxn) ∧
      t.sleeper = { s.sleeper with ended := s.sleeper.ended + 1 } ∧
      onlyS { s.regs with pos := t.regs.pos } ((s.setTurns ts).setSleeper t.sleeper) t ∧ sameBytes s t

/-- 43_verify.md R142, R143, R145, R147: a VERIFY whose bytes come and whose delay ends, whole: every byte is read
whatever it is, one request is made (none for count 0), one delay is asked and ended, POS is the first mismatch or the
count, T says whether there was none, and nothing else changes. -/
def Obligations.VerifyRun : Prop :=
  ∀ (s : State) (bs rest : List Byte) (ts : List Agent),
    s.regs.ecnt.toNat ≤ s.cfg.ebSize → bs.length = s.regs.ecnt.toNat → s.bus.pending = bs ++ rest →
    s.turns = List.replicate bs.length .transport ++ .sleeper :: ts →
    ∃ a t, exec .verify s = .next a ∧ runSteps (bs.length + 1) a = .next t ∧
      let want := (List.range bs.length).map (s.byteAt .ebuf)
      completedWith (decide (bs = want)) t ∧
      t.regs.pos.toNat = (firstMismatch want bs).getD bs.length ∧
      t.bus.pending = rest ∧ t.bus.taken = s.bus.taken + bs.length ∧
      t.bus.requests = (if bs = [] then s.bus.requests else bs.length :: s.bus.requests) ∧
      t.sleeper.asked = s.sleeper.asked + 1 ∧ t.sleeper.ended = s.sleeper.ended + 1 ∧ t.turns = ts ∧
      t.regs = { s.regs with status := t.regs.status, ecode := 0x00, pos := t.regs.pos } ∧ sameOverrun s t ∧
      t.bufs = s.bufs ∧ sameBytes s t ∧ t.host = s.host

/-- 43_verify.md R144: a VACK whose seven bytes come and whose delay ends: the result is that of a comparison with the
acknowledgement constant, and ECNT and EBUF stay. -/
def Obligations.VackRun : Prop :=
  ∀ (s : State) (bs rest : List Byte) (ts : List Agent),
    bs.length = 7 → s.bus.pending = bs ++ rest → s.turns = List.replicate 7 .transport ++ .sleeper :: ts →
    ∃ a t, exec .vack s = .next a ∧ runSteps 8 a = .next t ∧
      let want : List Byte := [0x01, 0x00, 0x00, 0xFF, 0x00, 0xFF, 0x00]
      completedWith (decide (bs = want)) t ∧ t.regs.pos.toNat = (firstMismatch want bs).getD 7 ∧
      t.bus.pending = rest ∧ t.bus.taken = s.bus.taken + 7 ∧ t.bus.requests = 7 :: s.bus.requests ∧
      t.sleeper.asked = s.sleeper.asked + 1 ∧ t.sleeper.ended = s.sleeper.ended + 1 ∧ t.turns = ts ∧
      t.regs = { s.regs with status := t.regs.status, ecode := 0x00, pos := t.regs.pos } ∧ sameOverrun s t ∧
      t.bufs = s.bufs ∧ sameBytes s t ∧ t.host = s.host

/-- 20_memory.md R49: no host action, WAIT among them, changes a running comparison or what it compares with: while
BUSY is 1 only OVR and the host's own port can change. -/
def Obligations.HostCannotDisturbComparison : Prop :=
  ∀ (s t : State) (ts : List Agent), s.turns = .host :: ts → s.flag .busy = true → step s = .next t →
    t.cmp = s.cmp ∧ t.bufs = s.bufs ∧ t.bus = s.bus ∧ t.sleeper = s.sleeper ∧ sameBytes s t ∧
    t.regs = { s.regs with status := t.regs.status } ∧
    t.regs.status &&& 0xE0#8 = s.regs.status &&& 0xE0#8 ∧ ∀ f, f ≠ .ovr → t.flag f = s.flag f

/-- 43_verify.md R151, R147, 70_reset_and_hazards.md R224: without a byte from the transport, or without the end of
the delay, a comparison never completes, whatever the host does, as long as there is no reset. -/
def Obligations.SilentCollaboratorHangs : Prop :=
  ∀ (s : State) (k : Nat), s.flag .busy = true → .resetPin ∉ s.turns →
    ((s.cmp.phase = .rx ∧ s.bus.pending = []) ∨ (s.cmp.phase = .settle ∧ .sleeper ∉ s.turns)) →
    ∃ t, runSteps k s = .next t ∧ t.flag .busy = true ∧ t.cmp = s.cmp ∧ t.regs.pos = s.regs.pos

/-! ## NDEFHDR -/

/-- 44_ndef_header.md R162, R163, R164: the first header pattern of the usable region, its status byte inside it and
its payload length large enough, is reported, and nothing else changes. -/
def Obligations.NdefHeaderFound : Prop :=
  encode .ndefhdr = 0x09 ∧
  ∀ (s : State) (i : Nat), s.cfg.wf = true → s.cfg.hasNdef = true → s.regs.fcnt.toNat ≤ s.cfg.fbSize →
    s.firstHeader i → i + 6 < regionEnd s.cfg s.regs.fcnt.toNat →
    (s.byteAt .fbuf (i + 6)).toNat % 64 + 1 ≤ (s.byteAt .fbuf (i + 4)).toNat →
    ∃ t, exec .ndefhdr s = .next t ∧ completedWith true t ∧
      t.regs.hidx.toNat = i ∧ t.regs.langlen.toNat = (s.byteAt .fbuf (i + 6)).toNat % 64 ∧
      t.regs.textlen.toNat = (s.byteAt .fbuf (i + 4)).toNat - t.regs.langlen.toNat - 1 ∧
      t.regs.textoff.toNat = i + 7 + t.regs.langlen.toNat ∧ t.regs.pos.toNat = i ∧
      onlyS { s.regs with hidx := t.regs.hidx, langlen := t.regs.langlen, textlen := t.regs.textlen,
                          textoff := t.regs.textoff, pos := t.regs.pos } s t ∧ sameBytes s t

/-- 44_ndef_header.md R161, R162, R163, R164: where the usable region ends, an empty one being [lo, lo); and no header
pattern in it is a normal completion with T = 0, the four registers 0 and POS at that end. -/
def Obligations.NdefHeaderNotFound : Prop :=
  (∀ (cfg : Config) (n : Nat),
    (cfg.ndefHdrSkip + cfg.ndefTrailSkip ≤ n → regionEnd cfg n = n - cfg.ndefTrailSkip) ∧
    (n < cfg.ndefHdrSkip + cfg.ndefTrailSkip → regionEnd cfg n = cfg.ndefHdrSkip)) ∧
  ∀ s : State, s.cfg.wf = true → s.cfg.hasNdef = true → s.regs.fcnt.toNat ≤ s.cfg.fbSize →
    (∀ i, ¬ s.headerAt i) →
    ∃ t, exec .ndefhdr s = .next t ∧ completedWith false t ∧
      t.regs.pos.toNat = regionEnd s.cfg s.regs.fcnt.toNat ∧
      onlyS { s.regs with hidx := 0, langlen := 0, textlen := 0, textoff := 0, pos := t.regs.pos } s t ∧ sameBytes s t

/-- 44_ndef_header.md R162, R167, R168: the three errors of NDEFHDR, where each points, and that the four registers are
0 after them. -/
def Obligations.NdefHeaderErrors : Prop :=
  ∀ s : State, s.cfg.wf = true → s.cfg.hasNdef = true →
    (s.regs.fcnt.toNat > s.cfg.fbSize → ∃ t, exec .ndefhdr s = .next t ∧ failedWith .range t ∧ t.regs.pos = 0 ∧
      onlyS { s.regs with hidx := 0, langlen := 0, textlen := 0, textoff := 0, pos := 0 } s t ∧ sameBytes s t) ∧
    (∀ i, s.regs.fcnt.toNat ≤ s.cfg.fbSize → s.firstHeader i → regionEnd s.cfg s.regs.fcnt.toNat ≤ i + 6 →
      ∃ t, exec .ndefhdr s = .next t ∧ failedWith .hdrtrunc t ∧ t.regs.pos.toNat = i + 6 ∧
      onlyS { s.regs with hidx := 0, langlen := 0, textlen := 0, textoff := 0, pos := t.regs.pos } s t ∧
      sameBytes s t) ∧
    (∀ i, s.regs.fcnt.toNat ≤ s.cfg.fbSize → s.firstHeader i → i + 6 < regionEnd s.cfg s.regs.fcnt.toNat →
      (s.byteAt .fbuf (i + 4)).toNat < (s.byteAt .fbuf (i + 6)).toNat % 64 + 1 →
      ∃ t, exec .ndefhdr s = .next t ∧ failedWith .hdrlen t ∧ t.regs.pos.toNat = i + 4 ∧
      onlyS { s.regs with hidx := 0, langlen := 0, textlen := 0, textoff := 0, pos := t.regs.pos } s t ∧ sameBytes s t)

/-- 44_ndef_header.md R169: NDEFHDR depends on FCNT and the bytes of the usable region alone: two states that agree on
those get the same results, whatever the marker, the checksums and the rest of FBUF. -/
def Obligations.NdefDependsOnRegionOnly : Prop :=
  ∀ s s' t : State, s'.cfg = s.cfg → s.cfg.hasNdef = true → s'.regs.fcnt = s.regs.fcnt →
    (∀ i, s.cfg.ndefHdrSkip ≤ i → i < regionEnd s.cfg s.regs.fcnt.toNat → s'.byteAt .fbuf i = s.byteAt .fbuf i) →
    exec .ndefhdr s = .next t →
    ∃ t', exec .ndefhdr s' = .next t' ∧ t'.regs.hidx = t.regs.hidx ∧ t'.regs.langlen = t.regs.langlen ∧
      t'.regs.textlen = t.regs.textlen ∧ t'.regs.textoff = t.regs.textoff ∧ t'.regs.pos = t.regs.pos ∧
      t'.regs.ecode = t.regs.ecode ∧ t'.flag .t = t.flag .t ∧ t'.flag .err = t.flag .err

/-- 00_scope.md R6: without the NDEF unit the byte of NDEFHDR decodes to nothing, and the four registers read as zero.
The clause about `exec` is the model's choice (log 16): no step runs NDEFHDR there, and what the host's write of the
byte does is 30_encoding.md R72 and 60_exceptions.md R185, stated by `IllegalCommandCompletes`. -/
def Obligations.NdefUnitAbsent : Prop :=
  ∀ s : State, s.cfg.hasNdef = false →
    decode s.cfg 0x09 = .error .ndefAbsent ∧
    (∃ t, exec .ndefhdr s = .next t ∧ failedWith .illop t ∧ onlyS s.regs s t ∧ sameBytes s t) ∧
    s.portValue .reg 0x0D = 0 ∧ s.portValue .reg 0x0E = 0 ∧ s.portValue .reg 0x0F = 0 ∧ s.portValue .reg 0x10 = 0

/-! ## The whole machine -/

/-- 10_state.md R31: no operation writes CMD, CTRL, A, B, PCNT, ECNT, PBUF, EBUF or OVR. -/
def Obligations.OperationsKeepHostRegisters : Prop :=
  ∀ (i : Instr) (s t : State), exec i s = .next t →
    t.regs.cmd = s.regs.cmd ∧ t.regs.ctrl = s.regs.ctrl ∧ t.regs.a = s.regs.a ∧ t.regs.b = s.regs.b ∧
    t.regs.pcnt = s.regs.pcnt ∧ t.regs.ecnt = s.regs.ecnt ∧ t.flag .ovr = s.flag .ovr ∧
    ∀ k, t.byteAt .pbuf k = s.byteAt .pbuf k ∧ t.byteAt .ebuf k = s.byteAt .ebuf k

/-- 60_exceptions.md R184, 43_verify.md R147: every operation but VERIFY and VACK completes within its accepting step,
and asks nothing of the transport or the sleeper. -/
def Obligations.OtherOperationsCompleteAtOnce : Prop :=
  ∀ (i : Instr) (s : State), i ≠ .verify → i ≠ .vack →
    ∃ t, exec i s = .next t ∧ t.flag .busy = false ∧ t.flag .done = true ∧ t.cmp.phase = .idle ∧ t.bus = s.bus ∧
      t.sleeper = s.sleeper ∧ t.host = s.host

/-- The block never stops: every step of every state answers a next state, for "no operation is fatal"
(60_exceptions.md R189). -/
def Obligations.EveryStepAnswers : Prop := ∀ s : State, ∃ t, step s = .next t

/-- 70_reset_and_hazards.md R210, R212: the reset input, at any moment: the registers, PHASE, and that the bytes taken
stay taken and the others pending. The rest is the model's: that the record of requests, the sleeper's counts, the
host's script and the turns to come stay (log 13), and where the instance stands (log 9). -/
def Obligations.ResetInputEffect : Prop :=
  ∀ (s : State) (ts : List Agent), s.turns = .resetPin :: ts →
    ∃ t, step s = .next t ∧
      t.regs.cmd = 0x00 ∧ t.regs.status = 0x00 ∧ t.regs.ctrl = 0x03 ∧ t.regs.ecode = 0x00 ∧ t.regs.a = 0x00 ∧
      t.regs.b = 0x00 ∧ t.regs.r = 0x00 ∧ t.regs.pcnt = 0 ∧ t.regs.fcnt = 0 ∧ t.regs.ecnt = 0 ∧ t.regs.pos = 0 ∧
      t.regs.payoff = 0 ∧ t.regs.paylen = 0 ∧ t.regs.hidx = 0 ∧ t.regs.langlen = 0 ∧ t.regs.textlen = 0 ∧
      t.regs.textoff = 0 ∧ t.cmp.phase = .idle ∧ t.bus = s.bus ∧ t.sleeper = s.sleeper ∧ t.host = s.host ∧
      t.cfg = s.cfg ∧ t.turns = ts

/-- 10_state.md R32: the registers and PHASE after reset. -/
def Obligations.ResetValues : Prop :=
  State.reset.regs = { cmd := 0x00, status := 0x00, ctrl := 0x03, ecode := 0x00, a := 0x00, b := 0x00, r := 0x00,
                       pcnt := 0, fcnt := 0, ecnt := 0, pos := 0, payoff := 0, paylen := 0x00, hidx := 0,
                       langlen := 0x00, textlen := 0x00, textoff := 0 } ∧
  State.reset.cmp.phase = .idle ∧ State.reset.cfg = Config.hardware

/-- The invariant holds right after reset, for every instance, script, byte stream and order of turns. -/
def Obligations.StartHasInvariant : Prop :=
  State.reset.Inv ∧
  ∀ (cfg : Config) (epoch : Nat) (script : List HostAction) (stream : List Byte) (turns : List Agent),
    cfg.wf = true → (State.start cfg epoch script stream turns).Inv

/-- Every step keeps the invariant (10_state.md R12, R13, R25; 20_memory.md R49; 44_ndef_header.md R163). Its bound on
the header skip is the model's (log 5). -/
def Obligations.StepKeepsInvariant : Prop :=
  ∀ s t : State, s.Inv → step s = .next t → t.Inv

/-- 10_state.md R12: OVR is sticky: only a host write to STATUS with bit 4 set, while BUSY is 0, or reset clears it. -/
def Obligations.OverrunIsSticky : Prop :=
  ∀ s t : State, step s = .next t → s.flag .ovr = true → t.flag .ovr = false →
    (∃ ts, s.turns = .resetPin :: ts) ∨
    (s.flag .busy = false ∧ ∃ (ts : List Agent) (act : HostAction) (q : List HostAction) (d : Half),
      s.turns = .host :: ts ∧ s.host.queue = act :: q ∧ d.getLsbD 4 = true ∧
      (act = .write .reg 0x01 d ∨ act = .writeAt 0x001 d))

/-- 20_memory.md R44, 10_state.md R26, R27: the instance never changes, and the byte stream changes only by a receive
step, which takes its next byte. -/
def Obligations.StreamIsTakenInOrder : Prop :=
  ∀ s t : State, step s = .next t → t.cfg = s.cfg ∧
    ((t.bus.pending = s.bus.pending ∧ t.bus.taken = s.bus.taken) ∨
      (s.cmp.phase = .rx ∧ (∃ ts, s.turns = .transport :: ts) ∧ (∃ b, s.bus.pending = b :: t.bus.pending) ∧
        t.bus.taken = s.bus.taken + 1))

/-- 10_state.md R11, R30, 43_verify.md R150: only a host write of VERIFY or VACK to CMD, by number or flat address,
while BUSY is 0, makes the block busy, and only the settle-end step or reset ends that. What CMD takes of a datum wider
than a byte is the model's (log 10). -/
def Obligations.ComparisonStartsAndEnds : Prop :=
  ∀ s t : State, step s = .next t →
    (s.flag .busy = false → t.flag .busy = true →
      ∃ (ts : List Agent) (act : HostAction) (q : List HostAction) (d : Half),
        s.turns = .host :: ts ∧ s.host.queue = act :: q ∧
        (act = .write .reg 0x00 d ∨ act = .writeAt 0x000 d) ∧
        (d.setWidth 8 = 0x07#8 ∨ d.setWidth 8 = 0x08#8) ∧ t.regs.cmd = d.setWidth 8) ∧
    (s.flag .busy = true → t.flag .busy = false →
      (∃ ts, s.turns = .resetPin :: ts) ∨ ((∃ ts, s.turns = .sleeper :: ts) ∧ s.cmp.phase = .settle))

/-- 60_exceptions.md R183: the number of every error, and of none. -/
def Obligations.ErrorCodes : Prop :=
  noError = 0x00 ∧ ErrCode.code .illop = 0x01 ∧ ErrCode.code .range = 0x02 ∧ ErrCode.code .empty = 0x03 ∧
  ErrCode.code .toolarge = 0x04 ∧ ErrCode.code .trunc = 0x05 ∧ ErrCode.code .marker = 0x06 ∧
  ErrCode.code .start = 0x07 ∧ ErrCode.code .lcs = 0x08 ∧ ErrCode.code .dcs = 0x09 ∧ ErrCode.code .post = 0x0A ∧
  ErrCode.code .hdrtrunc = 0x0B ∧ ErrCode.code .hdrlen = 0x0C ∧
  ∀ (e : ErrCode) (s : State), (raise e s).regs.ecode = e.code
end

