-- ==== Sys2Proof/Laws/Flags.lean ====
section
/-! SUPPORT. The algebra of STATUS: what a read of a flag gives after each update, and which bits an update keeps. -/

namespace Sys2Proof.Machine

/-- Setting a flag writes that flag and no other. -/
theorem getFlag_setFlag (st : Byte) (f g : StatusFlag) (v : Bool) :
    getFlag (setFlag st f v) g = if f = g then v else getFlag st g := by
  cases f <;> cases g <;> cases v <;> simp [getFlag, setFlag, StatusFlag.bit]

/-- Setting a flag below bit 4 keeps bits 7:4. -/
theorem setFlag_high (st : Byte) (f : StatusFlag) (v : Bool) (h : f ≠ .ovr) :
    setFlag st f v &&& 0xF0#8 = st &&& 0xF0#8 := by
  revert st
  cases f <;> cases v <;> first | exact absurd rfl h | decide

/-- Setting a flag keeps the reserved bits 7:5. -/
theorem setFlag_reserved (st : Byte) (f : StatusFlag) (v : Bool) : setFlag st f v &&& 0xE0#8 = st &&& 0xE0#8 := by
  revert st
  cases f <;> cases v <;> decide

@[simp] theorem statusAccept_flag (st : Byte) (f : StatusFlag) :
    getFlag (statusAccept st) f = match f with
      | .busy => true
      | .done | .err | .t => false
      | .ovr => getFlag st .ovr := by
  cases f <;> simp [statusAccept, getFlag_setFlag]

@[simp] theorem statusDone_flag (r : Bool) (st : Byte) (f : StatusFlag) :
    getFlag (statusDone r st) f = match f with
      | .busy | .err => false
      | .done => true
      | .t => r
      | .ovr => getFlag st .ovr := by
  cases f <;> simp [statusDone, getFlag_setFlag]

@[simp] theorem statusError_flag (st : Byte) (f : StatusFlag) :
    getFlag (statusError st) f = match f with
      | .busy | .t => false
      | .done | .err => true
      | .ovr => getFlag st .ovr := by
  cases f <;> simp [statusError, getFlag_setFlag]

@[simp] theorem statusAccept_high (st : Byte) : statusAccept st &&& 0xF0#8 = st &&& 0xF0#8 := by
  simp [statusAccept, setFlag_high]

@[simp] theorem statusDone_high (r : Bool) (st : Byte) : statusDone r st &&& 0xF0#8 = st &&& 0xF0#8 := by
  simp [statusDone, setFlag_high]

@[simp] theorem statusError_high (st : Byte) : statusError st &&& 0xF0#8 = st &&& 0xF0#8 := by
  simp [statusError, setFlag_high]

@[simp] theorem statusAccept_reserved (st : Byte) : statusAccept st &&& 0xE0#8 = st &&& 0xE0#8 := by
  simp [statusAccept, setFlag_reserved]

@[simp] theorem statusDone_reserved (r : Bool) (st : Byte) : statusDone r st &&& 0xE0#8 = st &&& 0xE0#8 := by
  simp [statusDone, setFlag_reserved]

@[simp] theorem statusError_reserved (st : Byte) : statusError st &&& 0xE0#8 = st &&& 0xE0#8 := by
  simp [statusError, setFlag_reserved]

/-- What a host write to STATUS does to a flag: it can only clear OVR. -/
theorem statusHostWrite_flag (v st : Byte) (f : StatusFlag) :
    getFlag (statusHostWrite v st) f = if f = .ovr ∧ getFlag v .ovr = true then false else getFlag st f := by
  unfold statusHostWrite
  split
  · rename_i h
    simp [getFlag_setFlag, h, eq_comm]
  · rename_i h
    simp [h]

@[simp] theorem statusHostWrite_reserved (v st : Byte) : statusHostWrite v st &&& 0xE0#8 = st &&& 0xE0#8 := by
  unfold statusHostWrite
  split
  · exact setFlag_reserved ..
  · rfl

/-- The reserved bits of CTRL read as 0 after any host write. -/
@[simp] theorem ctrlHostWrite_reserved (v : Byte) : ctrlHostWrite v &&& 0xFC#8 = 0#8 := by
  revert v
  decide

/-- No error has the code of "no error", and no code is above the last of the table. -/
theorem ErrCode.code_range (e : ErrCode) : e.code ≠ 0x00 ∧ e.code.toNat ≤ 0x0C := by cases e <;> decide

/-- Distinct errors have distinct codes. -/
theorem ErrCode.code_injective (e f : ErrCode) (h : e.code = f.code) : e = f := by
  revert h
  cases e <;> cases f <;> decide

end Sys2Proof.Machine
end

