-- ==== Sys2Proof/Laws/Memory.lean ====
section
/-! SUPPORT. A buffer as a sorted list: read after write, and the canonical form is kept. -/

namespace Sys2Proof.Machine

/-- A read after a write to the same index gives the value written. -/
@[simp] theorem Memory.read?_write_same (m : Memory) (i : Nat) (v : Byte) : (m.write i v).read? i = some v := by
  induction m with
  | nil => simp [Memory.write, Memory.read?]
  | cons c rest ih =>
    obtain ⟨j, b⟩ := c
    unfold Memory.write
    split
    · simp [Memory.read?]
    · split
      · simp [Memory.read?]
      · rename_i h1 h2
        simp [Memory.read?, h2, ih]

/-- A write leaves every other index alone. -/
theorem Memory.read?_write_other (m : Memory) (i j : Nat) (v : Byte) (h : j ≠ i) :
    (m.write i v).read? j = m.read? j := by
  induction m with
  | nil => simp [Memory.write, Memory.read?, h]
  | cons c rest ih =>
    obtain ⟨k, b⟩ := c
    unfold Memory.write
    split
    · simp [Memory.read?, h]
    · split
      · rename_i h1 h2
        subst h2
        simp [Memory.read?, h]
      · simp [Memory.read?, ih]

/-- The indices listed after a write are the old ones and the one written. -/
theorem Memory.mem_write (m : Memory) (i : Nat) (v : Byte) (x : Nat) :
    x ∈ (m.write i v).map Prod.fst → x = i ∨ x ∈ m.map Prod.fst := by
  induction m with
  | nil => simp [Memory.write]
  | cons c rest ih =>
    obtain ⟨j, b⟩ := c
    unfold Memory.write
    split
    · simp
    · split
      · rename_i h1 h2
        subst h2
        simp
      · simp only [List.map_cons, List.mem_cons]
        rintro (h | h)
        · exact .inr (.inl h)
        · rcases ih h with h | h
          · exact .inl h
          · exact .inr (.inr h)

/-- A write keeps the canonical form. -/
theorem Memory.write_wf (m : Memory) (i : Nat) (v : Byte) (h : m.wf) : (m.write i v).wf := by
  induction m with
  | nil => simp [Memory.write, Memory.wf]
  | cons c rest ih =>
    obtain ⟨j, b⟩ := c
    have hc := List.pairwise_cons.mp h
    unfold Memory.write
    split
    · rename_i hij
      refine List.pairwise_cons.mpr ⟨fun x hx => ?_, h⟩
      rcases List.mem_cons.mp hx with rfl | hx
      · exact hij
      · exact lt_trans hij (hc.1 x hx)
    · split
      · rename_i h1 h2
        subst h2
        exact h
      · rename_i h1 h2
        refine List.pairwise_cons.mpr ⟨fun x hx => ?_, ih hc.2⟩
        rcases Memory.mem_write rest i v x hx with rfl | hx
        · exact lt_of_le_of_ne (not_lt.mp h1) (Ne.symm h2)
        · exact hc.1 x hx

/-- A write below a capacity lists no index beyond it. -/
theorem Memory.write_below (m : Memory) (i cap : Nat) (v : Byte) (h : m.below cap) (hi : i < cap) :
    (m.write i v).below cap := by
  intro c hc
  rcases Memory.mem_write m i v c.1 (List.mem_map_of_mem hc) with he | hm
  · exact he ▸ hi
  · obtain ⟨d, hd, hdc⟩ := List.mem_map.mp hm
    exact hdc ▸ h d hd

@[simp] theorem Memory.nil_wf : Memory.wf [] := List.Pairwise.nil

@[simp] theorem Memory.nil_below (cap : Nat) : Memory.below [] cap := fun _ h => nomatch h

end Sys2Proof.Machine
end

