-- ==== Sys2Proof/Laws/State.lean ====
section
/-! SUPPORT. One lemma per field of State per component update, all true by rfl, so that no proof unfolds a record
update; and the two ends of STATUS and PHASE updates. -/

namespace Sys2Proof.Machine

variable (s : State)

@[simp] theorem State.setRegs_cfg (v : Regs) : (s.setRegs v).cfg = s.cfg := rfl
@[simp] theorem State.setRegs_regs (v : Regs) : (s.setRegs v).regs = v := rfl
@[simp] theorem State.setRegs_cmp (v : Regs) : (s.setRegs v).cmp = s.cmp := rfl
@[simp] theorem State.setRegs_bufs (v : Regs) : (s.setRegs v).bufs = s.bufs := rfl
@[simp] theorem State.setRegs_epoch (v : Regs) : (s.setRegs v).epoch = s.epoch := rfl
@[simp] theorem State.setRegs_bus (v : Regs) : (s.setRegs v).bus = s.bus := rfl
@[simp] theorem State.setRegs_sleeper (v : Regs) : (s.setRegs v).sleeper = s.sleeper := rfl
@[simp] theorem State.setRegs_host (v : Regs) : (s.setRegs v).host = s.host := rfl
@[simp] theorem State.setRegs_turns (v : Regs) : (s.setRegs v).turns = s.turns := rfl

@[simp] theorem State.setCmp_cfg (v : Compare) : (s.setCmp v).cfg = s.cfg := rfl
@[simp] theorem State.setCmp_regs (v : Compare) : (s.setCmp v).regs = s.regs := rfl
@[simp] theorem State.setCmp_cmp (v : Compare) : (s.setCmp v).cmp = v := rfl
@[simp] theorem State.setCmp_bufs (v : Compare) : (s.setCmp v).bufs = s.bufs := rfl
@[simp] theorem State.setCmp_epoch (v : Compare) : (s.setCmp v).epoch = s.epoch := rfl
@[simp] theorem State.setCmp_bus (v : Compare) : (s.setCmp v).bus = s.bus := rfl
@[simp] theorem State.setCmp_sleeper (v : Compare) : (s.setCmp v).sleeper = s.sleeper := rfl
@[simp] theorem State.setCmp_host (v : Compare) : (s.setCmp v).host = s.host := rfl
@[simp] theorem State.setCmp_turns (v : Compare) : (s.setCmp v).turns = s.turns := rfl

@[simp] theorem State.setBufs_cfg (v : Buffers) : (s.setBufs v).cfg = s.cfg := rfl
@[simp] theorem State.setBufs_regs (v : Buffers) : (s.setBufs v).regs = s.regs := rfl
@[simp] theorem State.setBufs_cmp (v : Buffers) : (s.setBufs v).cmp = s.cmp := rfl
@[simp] theorem State.setBufs_bufs (v : Buffers) : (s.setBufs v).bufs = v := rfl
@[simp] theorem State.setBufs_epoch (v : Buffers) : (s.setBufs v).epoch = s.epoch := rfl
@[simp] theorem State.setBufs_bus (v : Buffers) : (s.setBufs v).bus = s.bus := rfl
@[simp] theorem State.setBufs_sleeper (v : Buffers) : (s.setBufs v).sleeper = s.sleeper := rfl
@[simp] theorem State.setBufs_host (v : Buffers) : (s.setBufs v).host = s.host := rfl
@[simp] theorem State.setBufs_turns (v : Buffers) : (s.setBufs v).turns = s.turns := rfl

@[simp] theorem State.setBus_cfg (v : Bus) : (s.setBus v).cfg = s.cfg := rfl
@[simp] theorem State.setBus_regs (v : Bus) : (s.setBus v).regs = s.regs := rfl
@[simp] theorem State.setBus_cmp (v : Bus) : (s.setBus v).cmp = s.cmp := rfl
@[simp] theorem State.setBus_bufs (v : Bus) : (s.setBus v).bufs = s.bufs := rfl
@[simp] theorem State.setBus_epoch (v : Bus) : (s.setBus v).epoch = s.epoch := rfl
@[simp] theorem State.setBus_bus (v : Bus) : (s.setBus v).bus = v := rfl
@[simp] theorem State.setBus_sleeper (v : Bus) : (s.setBus v).sleeper = s.sleeper := rfl
@[simp] theorem State.setBus_host (v : Bus) : (s.setBus v).host = s.host := rfl
@[simp] theorem State.setBus_turns (v : Bus) : (s.setBus v).turns = s.turns := rfl

@[simp] theorem State.setSleeper_cfg (v : Sleeper) : (s.setSleeper v).cfg = s.cfg := rfl
@[simp] theorem State.setSleeper_regs (v : Sleeper) : (s.setSleeper v).regs = s.regs := rfl
@[simp] theorem State.setSleeper_cmp (v : Sleeper) : (s.setSleeper v).cmp = s.cmp := rfl
@[simp] theorem State.setSleeper_bufs (v : Sleeper) : (s.setSleeper v).bufs = s.bufs := rfl
@[simp] theorem State.setSleeper_epoch (v : Sleeper) : (s.setSleeper v).epoch = s.epoch := rfl
@[simp] theorem State.setSleeper_bus (v : Sleeper) : (s.setSleeper v).bus = s.bus := rfl
@[simp] theorem State.setSleeper_sleeper (v : Sleeper) : (s.setSleeper v).sleeper = v := rfl
@[simp] theorem State.setSleeper_host (v : Sleeper) : (s.setSleeper v).host = s.host := rfl
@[simp] theorem State.setSleeper_turns (v : Sleeper) : (s.setSleeper v).turns = s.turns := rfl

@[simp] theorem State.setHost_cfg (v : HostPort) : (s.setHost v).cfg = s.cfg := rfl
@[simp] theorem State.setHost_regs (v : HostPort) : (s.setHost v).regs = s.regs := rfl
@[simp] theorem State.setHost_cmp (v : HostPort) : (s.setHost v).cmp = s.cmp := rfl
@[simp] theorem State.setHost_bufs (v : HostPort) : (s.setHost v).bufs = s.bufs := rfl
@[simp] theorem State.setHost_epoch (v : HostPort) : (s.setHost v).epoch = s.epoch := rfl
@[simp] theorem State.setHost_bus (v : HostPort) : (s.setHost v).bus = s.bus := rfl
@[simp] theorem State.setHost_sleeper (v : HostPort) : (s.setHost v).sleeper = s.sleeper := rfl
@[simp] theorem State.setHost_host (v : HostPort) : (s.setHost v).host = v := rfl
@[simp] theorem State.setHost_turns (v : HostPort) : (s.setHost v).turns = s.turns := rfl

@[simp] theorem State.setTurns_cfg (v : List Agent) : (s.setTurns v).cfg = s.cfg := rfl
@[simp] theorem State.setTurns_regs (v : List Agent) : (s.setTurns v).regs = s.regs := rfl
@[simp] theorem State.setTurns_cmp (v : List Agent) : (s.setTurns v).cmp = s.cmp := rfl
@[simp] theorem State.setTurns_bufs (v : List Agent) : (s.setTurns v).bufs = s.bufs := rfl
@[simp] theorem State.setTurns_epoch (v : List Agent) : (s.setTurns v).epoch = s.epoch := rfl
@[simp] theorem State.setTurns_bus (v : List Agent) : (s.setTurns v).bus = s.bus := rfl
@[simp] theorem State.setTurns_sleeper (v : List Agent) : (s.setTurns v).sleeper = s.sleeper := rfl
@[simp] theorem State.setTurns_host (v : List Agent) : (s.setTurns v).host = s.host := rfl
@[simp] theorem State.setTurns_turns (v : List Agent) : (s.setTurns v).turns = v := rfl

@[simp] theorem State.setPhase_cfg (p : Phase) : (s.setPhase p).cfg = s.cfg := rfl
@[simp] theorem State.setPhase_regs (p : Phase) : (s.setPhase p).regs = s.regs := rfl
@[simp] theorem State.setPhase_cmp (p : Phase) : (s.setPhase p).cmp = { s.cmp with phase := p } := rfl
@[simp] theorem State.setPhase_bufs (p : Phase) : (s.setPhase p).bufs = s.bufs := rfl
@[simp] theorem State.setPhase_epoch (p : Phase) : (s.setPhase p).epoch = s.epoch := rfl
@[simp] theorem State.setPhase_bus (p : Phase) : (s.setPhase p).bus = s.bus := rfl
@[simp] theorem State.setPhase_sleeper (p : Phase) : (s.setPhase p).sleeper = s.sleeper := rfl
@[simp] theorem State.setPhase_host (p : Phase) : (s.setPhase p).host = s.host := rfl
@[simp] theorem State.setPhase_turns (p : Phase) : (s.setPhase p).turns = s.turns := rfl

/-- A later update of a component replaces the earlier one. -/
@[simp] theorem State.setRegs_setRegs (v w : Regs) : (s.setRegs v).setRegs w = s.setRegs w := rfl
@[simp] theorem State.setCmp_setCmp (v w : Compare) : (s.setCmp v).setCmp w = s.setCmp w := rfl
@[simp] theorem State.setBufs_setBufs (v w : Buffers) : (s.setBufs v).setBufs w = s.setBufs w := rfl
@[simp] theorem State.setHost_setHost (v w : HostPort) : (s.setHost v).setHost w = s.setHost w := rfl

/-- Putting a component back changes nothing. -/
@[simp] theorem State.setRegs_self : s.setRegs s.regs = s := rfl
@[simp] theorem State.setCmp_self : s.setCmp s.cmp = s := rfl
@[simp] theorem State.setBufs_self : s.setBufs s.bufs = s := rfl
@[simp] theorem State.setHost_self : s.setHost s.host = s := rfl
@[simp] theorem State.setTurns_self : s.setTurns s.turns = s := rfl

/-- A buffer that is put is the one that is got; the others stay. -/
@[simp] theorem Buffers.get_put_same (bs : Buffers) (b : Buffer) (m : Memory) : (bs.put b m).get b = m := by
  cases b <;> rfl

theorem Buffers.get_put_other (bs : Buffers) (b c : Buffer) (m : Memory) (h : c ≠ b) :
    (bs.put b m).get c = bs.get c := by
  cases b <;> cases c <;> first | rfl | exact absurd rfl h

@[simp] theorem Buffers.get_reset (b : Buffer) : Buffers.reset.get b = [] := by cases b <;> rfl

end Sys2Proof.Machine
end

