-- ==== Sys2Proof/Laws/Ops.lean ====
section
/-! SUPPORT. The shared operations, each said once: what a byte read gives after each update, what a byte write
changes, and everything accept, the two completions and the reset input do. -/

namespace Sys2Proof.Machine

section Reads

variable (s : State) (b : Buffer) (i : Nat)

@[simp] theorem State.setRegs_byteAt (v : Regs) : (s.setRegs v).byteAt b i = s.byteAt b i := rfl
@[simp] theorem State.setCmp_byteAt (v : Compare) : (s.setCmp v).byteAt b i = s.byteAt b i := rfl
@[simp] theorem State.setBus_byteAt (v : Bus) : (s.setBus v).byteAt b i = s.byteAt b i := rfl
@[simp] theorem State.setSleeper_byteAt (v : Sleeper) : (s.setSleeper v).byteAt b i = s.byteAt b i := rfl
@[simp] theorem State.setHost_byteAt (v : HostPort) : (s.setHost v).byteAt b i = s.byteAt b i := rfl
@[simp] theorem State.setTurns_byteAt (v : List Agent) : (s.setTurns v).byteAt b i = s.byteAt b i := rfl
@[simp] theorem State.setPhase_byteAt (p : Phase) : (s.setPhase p).byteAt b i = s.byteAt b i := rfl
@[simp] theorem accept_byteAt (c : Byte) : (accept c s).byteAt b i = s.byteAt b i := rfl
@[simp] theorem complete_byteAt (t : Bool) : (complete t s).byteAt b i = s.byteAt b i := rfl
@[simp] theorem setPos_byteAt (p : Nat) : (setPos p s).byteAt b i = s.byteAt b i := rfl
@[simp] theorem raise_byteAt (e : ErrCode) : (raise e s).byteAt b i = s.byteAt b i := rfl
@[simp] theorem raiseAt_byteAt (e : ErrCode) (p : Nat) : (raiseAt e p s).byteAt b i = s.byteAt b i := rfl

/-- A byte read depends on the instance, the reset count and that buffer alone. -/
theorem State.byteAt_congr {s t : State} {b : Buffer} (hc : t.cfg = s.cfg) (he : t.epoch = s.epoch)
    (hb : t.bufs.get b = s.bufs.get b) (i : Nat) : t.byteAt b i = s.byteAt b i := by
  simp only [State.byteAt, hc, he, hb]

/-- An index at or beyond the capacity reads 0 (20_memory.md R43). -/
theorem State.byteAt_beyond (h : capacity s.cfg b ≤ i) : s.byteAt b i = 0 := by
  simp [State.byteAt, not_lt.mpr h]

end Reads

section Writes

variable (s : State) (b : Buffer) (i : Nat) (v : Byte)

@[simp] theorem State.writeByte_cfg : (s.writeByte b i v).cfg = s.cfg := by unfold State.writeByte; split <;> rfl
@[simp] theorem State.writeByte_regs : (s.writeByte b i v).regs = s.regs := by unfold State.writeByte; split <;> rfl
@[simp] theorem State.writeByte_cmp : (s.writeByte b i v).cmp = s.cmp := by unfold State.writeByte; split <;> rfl
@[simp] theorem State.writeByte_epoch : (s.writeByte b i v).epoch = s.epoch := by unfold State.writeByte; split <;> rfl
@[simp] theorem State.writeByte_bus : (s.writeByte b i v).bus = s.bus := by unfold State.writeByte; split <;> rfl
@[simp] theorem State.writeByte_sleeper : (s.writeByte b i v).sleeper = s.sleeper := by
  unfold State.writeByte; split <;> rfl
@[simp] theorem State.writeByte_host : (s.writeByte b i v).host = s.host := by unfold State.writeByte; split <;> rfl
@[simp] theorem State.writeByte_turns : (s.writeByte b i v).turns = s.turns := by unfold State.writeByte; split <;> rfl

/-- A write touches one buffer. -/
theorem State.writeByte_get_other (c : Buffer) (h : c ≠ b) : (s.writeByte b i v).bufs.get c = s.bufs.get c := by
  unfold State.writeByte
  split
  · exact Buffers.get_put_other _ _ _ _ h
  · rfl

/-- A read after a write: the byte written where it was written, if that is within the capacity. -/
theorem State.byteAt_writeByte (c : Buffer) (j : Nat) :
    (s.writeByte b i v).byteAt c j = if c = b ∧ j = i ∧ i < capacity s.cfg b then v else s.byteAt c j := by
  by_cases hcap : i < capacity s.cfg b
  · by_cases hc : c = b
    · subst hc
      by_cases hj : j = i
      · subst hj
        simp [State.writeByte, State.byteAt, hcap]
      · simp [State.writeByte, State.byteAt, hcap, hj, Memory.read?_write_other]
    · rw [if_neg (fun h => hc h.1)]
      exact State.byteAt_congr (by simp) (by simp) (State.writeByte_get_other s b i v c hc) j
  · simp [State.writeByte, hcap]

/-- A write keeps the canonical form of every buffer, and lists no index beyond a capacity. -/
theorem State.writeByte_bufs_wf
    (h : ∀ c : Buffer, Memory.wf (s.bufs.get c) ∧ Memory.below (s.bufs.get c) (capacity s.cfg c)) (c : Buffer) :
    Memory.wf ((s.writeByte b i v).bufs.get c) ∧ Memory.below ((s.writeByte b i v).bufs.get c) (capacity s.cfg c) := by
  by_cases hc : c = b
  · subst hc
    unfold State.writeByte
    split
    · rename_i hcap
      rw [State.setBufs_bufs, Buffers.get_put_same]
      exact ⟨Memory.write_wf _ i v (h c).1, Memory.write_below _ i _ v (h c).2 hcap⟩
    · exact h c
  · rw [State.writeByte_get_other s b i v c hc]
    exact h c

end Writes

section WriteRuns

variable (s : State) (b : Buffer)

/-- What a run of writes keeps: everything but the buffers. -/
theorem State.writeBytes_keeps (vs : List Byte) : ∀ (s : State) (i : Nat),
    (s.writeBytes b i vs).cfg = s.cfg ∧ (s.writeBytes b i vs).regs = s.regs ∧ (s.writeBytes b i vs).cmp = s.cmp ∧
    (s.writeBytes b i vs).epoch = s.epoch ∧ (s.writeBytes b i vs).bus = s.bus ∧
    (s.writeBytes b i vs).sleeper = s.sleeper ∧ (s.writeBytes b i vs).host = s.host ∧
    (s.writeBytes b i vs).turns = s.turns := by
  induction vs with
  | nil => intro s i; simp [State.writeBytes]
  | cons v rest ih => intro s i; simpa [State.writeBytes] using ih (s.writeByte b i v) (i + 1)

@[simp] theorem State.writeBytes_cfg (i : Nat) (vs : List Byte) : (s.writeBytes b i vs).cfg = s.cfg :=
  (State.writeBytes_keeps b vs s i).1
@[simp] theorem State.writeBytes_regs (i : Nat) (vs : List Byte) : (s.writeBytes b i vs).regs = s.regs :=
  (State.writeBytes_keeps b vs s i).2.1
@[simp] theorem State.writeBytes_cmp (i : Nat) (vs : List Byte) : (s.writeBytes b i vs).cmp = s.cmp :=
  (State.writeBytes_keeps b vs s i).2.2.1
@[simp] theorem State.writeBytes_epoch (i : Nat) (vs : List Byte) : (s.writeBytes b i vs).epoch = s.epoch :=
  (State.writeBytes_keeps b vs s i).2.2.2.1
@[simp] theorem State.writeBytes_bus (i : Nat) (vs : List Byte) : (s.writeBytes b i vs).bus = s.bus :=
  (State.writeBytes_keeps b vs s i).2.2.2.2.1
@[simp] theorem State.writeBytes_sleeper (i : Nat) (vs : List Byte) : (s.writeBytes b i vs).sleeper = s.sleeper :=
  (State.writeBytes_keeps b vs s i).2.2.2.2.2.1
@[simp] theorem State.writeBytes_host (i : Nat) (vs : List Byte) : (s.writeBytes b i vs).host = s.host :=
  (State.writeBytes_keeps b vs s i).2.2.2.2.2.2.1
@[simp] theorem State.writeBytes_turns (i : Nat) (vs : List Byte) : (s.writeBytes b i vs).turns = s.turns :=
  (State.writeBytes_keeps b vs s i).2.2.2.2.2.2.2

/-- A run of writes keeps the other two buffers. -/
theorem State.writeBytes_get_other (c : Buffer) (h : c ≠ b) (vs : List Byte) : ∀ (s : State) (i : Nat),
    (s.writeBytes b i vs).bufs.get c = s.bufs.get c := by
  induction vs with
  | nil => intro s i; rfl
  | cons v rest ih =>
    intro s i
    rw [State.writeBytes, ih, State.writeByte_get_other s b i v c h]

/-- A read after a run of writes that fits the buffer: the run's bytes in the run, the old bytes outside it. -/
theorem State.byteAt_writeBytes (c : Buffer) (j : Nat) (vs : List Byte) : ∀ (s : State) (i : Nat),
    i + vs.length ≤ capacity s.cfg b →
    (s.writeBytes b i vs).byteAt c j =
      if c = b ∧ i ≤ j ∧ j < i + vs.length then vs.getD (j - i) 0 else s.byteAt c j := by
  induction vs with
  | nil =>
    intro s i _
    rw [if_neg (by simp)]
    rfl
  | cons v rest ih =>
    intro s i hfit
    simp only [List.length_cons] at hfit ⊢
    rw [State.writeBytes, ih (s.writeByte b i v) (i + 1) (by simp; omega), State.byteAt_writeByte]
    by_cases hc : c = b
    · subst hc
      by_cases hj : j = i
      · subst hj
        simp [show j < capacity s.cfg c by omega]
      · by_cases hin : i + 1 ≤ j ∧ j < i + 1 + rest.length
        · rw [if_pos ⟨rfl, hin⟩, if_pos ⟨rfl, by omega, by omega⟩, show j - i = (j - (i + 1)) + 1 by omega,
            List.getD_cons_succ]
        · rw [if_neg (fun h => hin h.2), if_neg (fun h => hj h.2.1), if_neg (by omega)]
    · rw [if_neg (fun h => hc h.1), if_neg (fun h => hc h.1), if_neg (fun h => hc h.1)]

/-- A run of writes keeps the canonical form of every buffer. -/
theorem State.writeBytes_bufs_wf (vs : List Byte) : ∀ (s : State) (i : Nat),
    (∀ c : Buffer, Memory.wf (s.bufs.get c) ∧ Memory.below (s.bufs.get c) (capacity s.cfg c)) → ∀ c : Buffer,
    Memory.wf ((s.writeBytes b i vs).bufs.get c) ∧
      Memory.below ((s.writeBytes b i vs).bufs.get c) (capacity s.cfg c) := by
  induction vs with
  | nil => intro s i h; exact h
  | cons v rest ih =>
    intro s i h
    have := ih (s.writeByte b i v) (i + 1) (by simpa using State.writeByte_bufs_wf s b i v h)
    simpa [State.writeBytes] using this

end WriteRuns

section Runs

variable (s : State) (b : Buffer)

@[simp] theorem State.bytesAt_length (i n : Nat) : (s.bytesAt b i n).length = n := by
  induction n generalizing i with
  | zero => rfl
  | succ n ih => simp [State.bytesAt, ih]

/-- The k-th byte of a run. -/
theorem State.bytesAt_getD (i n k : Nat) (h : k < n) : (s.bytesAt b i n).getD k 0 = s.byteAt b (i + k) := by
  induction n generalizing i k with
  | zero => omega
  | succ n ih =>
    cases k with
    | zero => rfl
    | succ k => rw [State.bytesAt, List.getD_cons_succ, ih (i + 1) k (by omega), Nat.add_right_comm, Nat.add_assoc]

/-- A run is the list of the bytes at its indices. -/
theorem State.bytesAt_eq_map (i n : Nat) : s.bytesAt b i n = (List.range n).map fun k => s.byteAt b (i + k) := by
  induction n generalizing i with
  | zero => rfl
  | succ n ih =>
    rw [State.bytesAt, ih, List.range_succ_eq_map]
    simp only [List.map_cons, List.map_map, Nat.add_zero, List.cons.injEq, true_and]
    refine List.map_congr_left fun k _ => ?_
    simp only [Function.comp_apply, Nat.succ_eq_add_one]
    rw [Nat.add_right_comm, Nat.add_assoc]

/-- Two states whose bytes agree on a run have the same run. -/
theorem State.bytesAt_congr {s t : State} {b : Buffer} {i n : Nat}
    (h : ∀ k < n, t.byteAt b (i + k) = s.byteAt b (i + k)) : t.bytesAt b i n = s.bytesAt b i n := by
  rw [State.bytesAt_eq_map, State.bytesAt_eq_map]
  exact List.map_congr_left fun k hk => h k (List.mem_range.mp hk)

@[simp] theorem State.setRegs_bytesAt (v : Regs) (i n : Nat) : (s.setRegs v).bytesAt b i n = s.bytesAt b i n :=
  State.bytesAt_congr fun _ _ => rfl

@[simp] theorem State.setCmp_bytesAt (v : Compare) (i n : Nat) : (s.setCmp v).bytesAt b i n = s.bytesAt b i n :=
  State.bytesAt_congr fun _ _ => rfl

@[simp] theorem accept_bytesAt (c : Byte) (i n : Nat) : (accept c s).bytesAt b i n = s.bytesAt b i n :=
  State.bytesAt_congr fun _ _ => rfl

end Runs

section Completion

variable (s : State)

/-- Command accept, whole (60_exceptions.md R180). -/
theorem accept_spec (c : Byte) :
    (accept c s).regs = { s.regs with cmd := c, status := statusAccept s.regs.status, ecode := 0x00 } ∧
    (accept c s).cfg = s.cfg ∧ (accept c s).cmp = s.cmp ∧ (accept c s).bufs = s.bufs ∧
    (accept c s).epoch = s.epoch ∧ (accept c s).bus = s.bus ∧ (accept c s).sleeper = s.sleeper ∧
    (accept c s).host = s.host ∧ (accept c s).turns = s.turns := by
  simp [accept, noError]

/-- Normal completion, whole (60_exceptions.md R181). -/
theorem complete_spec (t : Bool) :
    complete t s = (s.setRegs { s.regs with status := statusDone t s.regs.status, ecode := 0x00 }).setPhase .idle :=
  rfl

/-- Error completion without an index, whole (60_exceptions.md R182). -/
theorem raise_spec (e : ErrCode) :
    raise e s = (s.setRegs { s.regs with status := statusError s.regs.status, ecode := e.code }).setPhase .idle := rfl

/-- Error completion with an index, whole (60_exceptions.md R182). -/
theorem raiseAt_spec (e : ErrCode) (p : Nat) :
    raiseAt e p s = (s.setRegs { s.regs with
      pos := BitVec.ofNat 16 p, status := statusError s.regs.status, ecode := e.code }).setPhase .idle := rfl

@[simp] theorem complete_cfg (t : Bool) : (complete t s).cfg = s.cfg := rfl
@[simp] theorem complete_bufs (t : Bool) : (complete t s).bufs = s.bufs := rfl
@[simp] theorem complete_epoch (t : Bool) : (complete t s).epoch = s.epoch := rfl
@[simp] theorem complete_bus (t : Bool) : (complete t s).bus = s.bus := rfl
@[simp] theorem complete_sleeper (t : Bool) : (complete t s).sleeper = s.sleeper := rfl
@[simp] theorem complete_host (t : Bool) : (complete t s).host = s.host := rfl
@[simp] theorem complete_turns (t : Bool) : (complete t s).turns = s.turns := rfl
@[simp] theorem complete_cmp (t : Bool) : (complete t s).cmp = { s.cmp with phase := .idle } := rfl
@[simp] theorem complete_regs (t : Bool) :
    (complete t s).regs = { s.regs with status := statusDone t s.regs.status, ecode := 0x00 } := rfl

@[simp] theorem raise_cfg (e : ErrCode) : (raise e s).cfg = s.cfg := rfl
@[simp] theorem raise_bufs (e : ErrCode) : (raise e s).bufs = s.bufs := rfl
@[simp] theorem raise_epoch (e : ErrCode) : (raise e s).epoch = s.epoch := rfl
@[simp] theorem raise_bus (e : ErrCode) : (raise e s).bus = s.bus := rfl
@[simp] theorem raise_sleeper (e : ErrCode) : (raise e s).sleeper = s.sleeper := rfl
@[simp] theorem raise_host (e : ErrCode) : (raise e s).host = s.host := rfl
@[simp] theorem raise_turns (e : ErrCode) : (raise e s).turns = s.turns := rfl
@[simp] theorem raise_cmp (e : ErrCode) : (raise e s).cmp = { s.cmp with phase := .idle } := rfl
@[simp] theorem raise_regs (e : ErrCode) :
    (raise e s).regs = { s.regs with status := statusError s.regs.status, ecode := e.code } := rfl

@[simp] theorem setPos_regs (p : Nat) : (setPos p s).regs = { s.regs with pos := BitVec.ofNat 16 p } := rfl
@[simp] theorem setPos_cmp (p : Nat) : (setPos p s).cmp = s.cmp := rfl
@[simp] theorem setPos_cfg (p : Nat) : (setPos p s).cfg = s.cfg := rfl

/-- The reset input, whole (70_reset_and_hazards.md R210, R212). -/
theorem pinReset_spec :
    (pinReset s).regs = Regs.reset ∧ (pinReset s).cmp = Compare.reset ∧ (pinReset s).bufs = Buffers.reset ∧
    (pinReset s).epoch = s.epoch + 1 ∧ (pinReset s).cfg = s.cfg ∧ (pinReset s).bus = s.bus ∧
    (pinReset s).sleeper = s.sleeper ∧ (pinReset s).host = s.host ∧ (pinReset s).turns = s.turns := by
  simp [pinReset]

end Completion

end Sys2Proof.Machine
end

