-- ==== Sys2Proof/Laws/Checksum.lean ====
section
/-! SUPPORT. The checksum functions as arithmetic on naturals (40_checksum.md R90 to R92). -/

namespace Sys2Proof.Machine

theorem sumFrom_toNat (acc : Byte) (bs : List Byte) : (sumFrom acc bs).toNat = (acc.toNat + natSum bs) % 0x100 := by
  induction bs generalizing acc with
  | nil => simp [sumFrom, natSum, Nat.mod_eq_of_lt acc.isLt]
  | cons b rest ih =>
    rw [sumFrom, ih, natSum, BitVec.toNat_add]
    omega

/-- `sum8(s)` is the exact sum reduced mod 0x100 (00_scope.md R9). -/
theorem sum8_toNat (bs : List Byte) : (sum8 bs).toNat = natSum bs % 0x100 := by
  simp [sum8, sumFrom_toNat]

theorem natSum_append (xs ys : List Byte) : natSum (xs ++ ys) = natSum xs + natSum ys := by
  induction xs with
  | nil => simp [natSum]
  | cons x xs ih => simp [natSum, ih, Nat.add_assoc]

theorem lcsOf_toNat (n : Nat) : (lcsOf n).toNat = (0x100 - n % 0x100) % 0x100 := by
  simp [lcsOf]

theorem dcsOf_toNat (bs : List Byte) : (dcsOf bs).toNat = (0x100 - natSum bs % 0x100) % 0x100 := by
  simp [dcsOf, sum8_toNat]

theorem sumsToZero_iff (v c : Byte) : sumsToZero v c = true ↔ (v.toNat + c.toNat) % 0x100 = 0 := by
  simp [sumsToZero]

/-- The sum that PARSE and CHKD test, said of the exact sum of the bytes. -/
theorem sumsToZero_sum8 (bs : List Byte) (c : Byte) :
    sumsToZero (sum8 bs) c = true ↔ (natSum bs + c.toNat) % 0x100 = 0 := by
  rw [sumsToZero_iff, sum8_toNat]
  omega

/-- A data checksum completes the sum of its bytes. -/
theorem sumsToZero_dcsOf (bs : List Byte) : sumsToZero (sum8 bs) (dcsOf bs) = true := by
  rw [sumsToZero_sum8, dcsOf_toNat]
  omega

end Sys2Proof.Machine
end

