-- ==== Sys2Proof/Laws/Results.lean ====
section
/-! SUPPORT. One lemma per field of State per update of the result registers, all true by rfl; and the reads of a byte
and of the counts after them. -/

namespace Sys2Proof.Machine

variable (s : State)

@[simp] theorem setR_regs (v : Byte) :
    (setR v s).regs = { s.regs with r := v } := rfl
@[simp] theorem setR_cfg (v : Byte) : (setR v s).cfg = s.cfg := rfl
@[simp] theorem setR_cmp (v : Byte) : (setR v s).cmp = s.cmp := rfl
@[simp] theorem setR_bufs (v : Byte) : (setR v s).bufs = s.bufs := rfl
@[simp] theorem setR_epoch (v : Byte) : (setR v s).epoch = s.epoch := rfl
@[simp] theorem setR_bus (v : Byte) : (setR v s).bus = s.bus := rfl
@[simp] theorem setR_sleeper (v : Byte) : (setR v s).sleeper = s.sleeper := rfl
@[simp] theorem setR_host (v : Byte) : (setR v s).host = s.host := rfl
@[simp] theorem setR_turns (v : Byte) : (setR v s).turns = s.turns := rfl
@[simp] theorem setR_byteAt (v : Byte) (b : Buffer) (i : Nat) :
    (setR v s).byteAt b i = s.byteAt b i := rfl

@[simp] theorem setFcnt_regs (n : Nat) :
    (setFcnt n s).regs = { s.regs with fcnt := BitVec.ofNat 16 n } := rfl
@[simp] theorem setFcnt_cfg (n : Nat) : (setFcnt n s).cfg = s.cfg := rfl
@[simp] theorem setFcnt_cmp (n : Nat) : (setFcnt n s).cmp = s.cmp := rfl
@[simp] theorem setFcnt_bufs (n : Nat) : (setFcnt n s).bufs = s.bufs := rfl
@[simp] theorem setFcnt_epoch (n : Nat) : (setFcnt n s).epoch = s.epoch := rfl
@[simp] theorem setFcnt_bus (n : Nat) : (setFcnt n s).bus = s.bus := rfl
@[simp] theorem setFcnt_sleeper (n : Nat) : (setFcnt n s).sleeper = s.sleeper := rfl
@[simp] theorem setFcnt_host (n : Nat) : (setFcnt n s).host = s.host := rfl
@[simp] theorem setFcnt_turns (n : Nat) : (setFcnt n s).turns = s.turns := rfl
@[simp] theorem setFcnt_byteAt (n : Nat) (b : Buffer) (i : Nat) :
    (setFcnt n s).byteAt b i = s.byteAt b i := rfl

@[simp] theorem setPay_regs (off : Nat) (l : Nat) :
    (setPay off l s).regs = { s.regs with payoff := BitVec.ofNat 16 off, paylen := BitVec.ofNat 8 l } := rfl
@[simp] theorem setPay_cfg (off : Nat) (l : Nat) : (setPay off l s).cfg = s.cfg := rfl
@[simp] theorem setPay_cmp (off : Nat) (l : Nat) : (setPay off l s).cmp = s.cmp := rfl
@[simp] theorem setPay_bufs (off : Nat) (l : Nat) : (setPay off l s).bufs = s.bufs := rfl
@[simp] theorem setPay_epoch (off : Nat) (l : Nat) : (setPay off l s).epoch = s.epoch := rfl
@[simp] theorem setPay_bus (off : Nat) (l : Nat) : (setPay off l s).bus = s.bus := rfl
@[simp] theorem setPay_sleeper (off : Nat) (l : Nat) : (setPay off l s).sleeper = s.sleeper := rfl
@[simp] theorem setPay_host (off : Nat) (l : Nat) : (setPay off l s).host = s.host := rfl
@[simp] theorem setPay_turns (off : Nat) (l : Nat) : (setPay off l s).turns = s.turns := rfl
@[simp] theorem setPay_byteAt (off : Nat) (l : Nat) (b : Buffer) (i : Nat) :
    (setPay off l s).byteAt b i = s.byteAt b i := rfl

@[simp] theorem setNdef_regs (h : Nat) (l : Nat) (t : Nat) (f : Nat) :
    (setNdef h l t f s).regs = { s.regs with
      hidx := BitVec.ofNat 16 h
      langlen := BitVec.ofNat 8 l
      textlen := BitVec.ofNat 8 t
      textoff := BitVec.ofNat 16 f } := rfl
@[simp] theorem setNdef_cfg (h : Nat) (l : Nat) (t : Nat) (f : Nat) : (setNdef h l t f s).cfg = s.cfg := rfl
@[simp] theorem setNdef_cmp (h : Nat) (l : Nat) (t : Nat) (f : Nat) : (setNdef h l t f s).cmp = s.cmp := rfl
@[simp] theorem setNdef_bufs (h : Nat) (l : Nat) (t : Nat) (f : Nat) : (setNdef h l t f s).bufs = s.bufs := rfl
@[simp] theorem setNdef_epoch (h : Nat) (l : Nat) (t : Nat) (f : Nat) : (setNdef h l t f s).epoch = s.epoch := rfl
@[simp] theorem setNdef_bus (h : Nat) (l : Nat) (t : Nat) (f : Nat) : (setNdef h l t f s).bus = s.bus := rfl
@[simp] theorem setNdef_sleeper (h : Nat) (l : Nat) (t : Nat) (f : Nat) : (setNdef h l t f s).sleeper = s.sleeper := rfl
@[simp] theorem setNdef_host (h : Nat) (l : Nat) (t : Nat) (f : Nat) : (setNdef h l t f s).host = s.host := rfl
@[simp] theorem setNdef_turns (h : Nat) (l : Nat) (t : Nat) (f : Nat) : (setNdef h l t f s).turns = s.turns := rfl
@[simp] theorem setNdef_byteAt (h : Nat) (l : Nat) (t : Nat) (f : Nat) (b : Buffer) (i : Nat) :
    (setNdef h l t f s).byteAt b i = s.byteAt b i := rfl

@[simp] theorem setPos_bufs (p : Nat) : (setPos p s).bufs = s.bufs := rfl
@[simp] theorem setPos_epoch (p : Nat) : (setPos p s).epoch = s.epoch := rfl
@[simp] theorem setPos_bus (p : Nat) : (setPos p s).bus = s.bus := rfl
@[simp] theorem setPos_sleeper (p : Nat) : (setPos p s).sleeper = s.sleeper := rfl
@[simp] theorem setPos_host (p : Nat) : (setPos p s).host = s.host := rfl
@[simp] theorem setPos_turns (p : Nat) : (setPos p s).turns = s.turns := rfl

/-- An error completion of PARSE, whole (42_frame_parse.md R122). -/
theorem parseFail_spec (e : ErrCode) (p : Nat) :
    parseFail e p s = (s.setRegs { s.regs with
      pos := BitVec.ofNat 16 p, payoff := 0, paylen := 0, status := statusError s.regs.status,
      ecode := e.code }).setPhase .idle := rfl

/-- An error completion of NDEFHDR, whole (44_ndef_header.md R162). -/
theorem ndefFail_spec (e : ErrCode) (p : Nat) :
    ndefFail e p s = (s.setRegs { s.regs with
      pos := BitVec.ofNat 16 p, hidx := 0, langlen := 0, textlen := 0, textoff := 0,
      status := statusError s.regs.status, ecode := e.code }).setPhase .idle := rfl

end Sys2Proof.Machine
end

