-- ==== Sys2Proof/Laws/Frame.lean ====
section
/-! SUPPORT. The frame byte by byte (30_encoding.md R60), and what BUILD leaves in every byte. -/

namespace Sys2Proof.Machine

/-- The ranges of the parameters (00_scope.md R4). -/
theorem Config.wf_iff (c : Config) : c.wf = true ↔ 1 ≤ c.maxLen ∧ c.maxLen ≤ 255 ∧ c.ndefHdrSkip < 65536 := by
  simp [Config.wf, and_assoc]

/-- A frame is seven bytes longer than its payload (30_encoding.md R64). -/
@[simp] theorem frameOf_length (p : List Byte) : (frameOf p).length = p.length + 7 := by
  simp [frameOf, frameHead]

@[simp] theorem State.payload_length (s : State) : s.payload.length = s.regs.pcnt.toNat := by simp [State.payload]

/-- The payload as the bytes at its indices. -/
theorem State.payload_eq_map (s : State) :
    s.payload = (List.range s.regs.pcnt.toNat).map (s.byteAt .pbuf) := by
  simp [State.payload, State.bytesAt_eq_map]

/-- The fields of a frame at their indices (30_encoding.md R60). -/
theorem frameOf_fields (p : List Byte) :
    (frameOf p).getD 0 0 = 0x00 ∧ (frameOf p).getD 1 0 = 0x00 ∧ (frameOf p).getD 2 0 = 0xFF ∧
    (frameOf p).getD 3 0 = BitVec.ofNat 8 p.length ∧ (frameOf p).getD 4 0 = lcsOf p.length ∧
    (∀ k < p.length, (frameOf p).getD (5 + k) 0 = p.getD k 0) ∧ (frameOf p).getD (5 + p.length) 0 = dcsOf p ∧
    (frameOf p).getD (6 + p.length) 0 = 0x00 := by
  have hshape : frameOf p =
      sof0 :: sof1 :: sof2 :: BitVec.ofNat 8 p.length :: lcsOf p.length :: (p ++ [dcsOf p, postamble]) := rfl
  rw [hshape]
  refine ⟨rfl, rfl, rfl, rfl, rfl, fun k hk => ?_, ?_, ?_⟩
  · rw [show 5 + k = k + 1 + 1 + 1 + 1 + 1 by omega]
    simp only [List.getD_cons_succ]
    exact List.getD_append _ _ _ _ hk
  · rw [show 5 + p.length = p.length + 1 + 1 + 1 + 1 + 1 by omega]
    simp only [List.getD_cons_succ]
    rw [List.getD_append_right _ _ _ _ (le_refl _), Nat.sub_self]
    rfl
  · rw [show 6 + p.length = p.length + 1 + 1 + 1 + 1 + 1 + 1 by omega]
    simp only [List.getD_cons_succ]
    rw [List.getD_append_right _ _ _ _ (by omega), Nat.add_sub_cancel_left]
    rfl

/-- What BUILD answers: EMPTY, TOOLARGE, or the state that holds the frame (41_frame_build.md R111). -/
theorem execBuild_cases (s : State) :
    (s.regs.pcnt.toNat = 0 ∧ execBuild s = .next (raise .empty s)) ∨
    (s.regs.pcnt.toNat ≠ 0 ∧ s.cfg.maxLen < s.regs.pcnt.toNat ∧ execBuild s = .next (raise .toolarge s)) ∨
    (1 ≤ s.regs.pcnt.toNat ∧ s.regs.pcnt.toNat ≤ s.cfg.maxLen ∧ execBuild s =
      .next (complete true (setFcnt (s.regs.pcnt.toNat + 7) (s.writeBytes .fbuf 0 (frameOf s.payload))))) := by
  unfold execBuild
  split
  · rename_i h
    exact .inl ⟨h, rfl⟩
  · rename_i h
    split
    · rename_i h2
      exact .inr (.inl ⟨h, h2, rfl⟩)
    · rename_i h2
      exact .inr (.inr ⟨by omega, by omega, rfl⟩)

/-- Every byte after BUILD's writes: the frame in FBUF[0..n+7), the old bytes elsewhere. -/
theorem built_byteAt (s : State) (h : s.regs.pcnt.toNat ≤ s.cfg.maxLen) (b : Buffer) (i : Nat) :
    (s.writeBytes .fbuf 0 (frameOf s.payload)).byteAt b i =
      if b = .fbuf ∧ i < s.regs.pcnt.toNat + 7 then (frameOf s.payload).getD i 0 else s.byteAt b i := by
  have hfit : 0 + (frameOf s.payload).length ≤ capacity s.cfg .fbuf := by
    rw [frameOf_length, State.payload_length]
    show 0 + (s.regs.pcnt.toNat + 7) ≤ s.cfg.maxLen + 8
    omega
  rw [State.byteAt_writeBytes .fbuf b i (frameOf s.payload) s 0 hfit, frameOf_length, State.payload_length]
  simp

end Sys2Proof.Machine
end

