-- ==== Sys2Proof/Laws/HostPort.lean ====
section
/-! SUPPORT. A step by the agent whose turn it is, and what a state looks like once the host's next action is taken
from its queue. -/

namespace Sys2Proof.Machine

/-- With no turn left a step changes nothing. -/
theorem step_nil (s : State) (h : s.turns = []) : step s = .next s := by
  simp [step, takeTurn, h]

/-- A step is a turn of the agent that acts next. -/
theorem step_cons (s : State) (who : Agent) (ts : List Agent) (h : s.turns = who :: ts) :
    step s = agentTurn who (s.setTurns ts) := by
  simp [step, takeTurn, h]

/-- The host's turn is its next action. -/
theorem State.hostDoes_step {s s0 : State} {act : HostAction} (h : s.hostDoes act s0) : step s = hostAct act s0 := by
  obtain ⟨hw, q, ts, ht, hq, rfl⟩ := h
  have hrest : queueAfter act q (s.setTurns ts) = q := by
    cases act <;> first | rfl | exact absurd rfl hw
  rw [step_cons s .host ts ht]
  simp [agentTurn, hostTurn, hq, hrest]

/-- Taking the action from its queue changes nothing but the queues. -/
theorem State.hostDoes_keeps {s s0 : State} {act : HostAction} (h : s.hostDoes act s0) :
    s0.cfg = s.cfg ∧ s0.regs = s.regs ∧ s0.cmp = s.cmp ∧ s0.bufs = s.bufs ∧ s0.epoch = s.epoch ∧ s0.bus = s.bus ∧
    s0.sleeper = s.sleeper ∧ s0.host.lastRead = s.host.lastRead := by
  obtain ⟨_, q, ts, _, _, rfl⟩ := h
  simp

theorem State.hostDoes_flag {s s0 : State} {act : HostAction} (h : s.hostDoes act s0) (f : StatusFlag) :
    s0.flag f = s.flag f := by
  rw [State.flag, (State.hostDoes_keeps h).2.1, State.flag]

theorem State.hostDoes_byteAt {s s0 : State} {act : HostAction} (h : s.hostDoes act s0) (b : Buffer) (i : Nat) :
    s0.byteAt b i = s.byteAt b i := by
  obtain ⟨hc, _, _, hb, he, _⟩ := State.hostDoes_keeps h
  exact State.byteAt_congr hc he (by rw [hb]) i

/-- What the host reads depends on the registers, the instance and the buffers alone. -/
theorem State.hostDoes_portValue {s s0 : State} {act : HostAction} (h : s.hostDoes act s0) (sp : Space) (i : Nat) :
    s0.portValue sp i = s.portValue sp i := by
  obtain ⟨hc, hr, _⟩ := State.hostDoes_keeps h
  have hreg : ∀ n, s0.regValue n = s.regValue n := fun n => by cases n <;> simp [State.regValue, hc, hr]
  cases sp with
  | reg => simp only [State.portValue, hreg]
  | buf b => simp only [State.portValue, State.hostDoes_byteAt h]

/-- Register numbers from 0x11 on are unassigned (10_state.md R10). -/
theorem regOfNum_unassigned (n : Nat) (h : 0x11 ≤ n) : regOfNum n = none := by
  unfold regOfNum
  split <;> first | omega | rfl

/-- The flat map puts a register only at its own number (20_memory.md R41). -/
theorem flatMap_reg (cfg : Config) (addr i : Nat) (h : flatMap cfg addr = some (.reg, i)) : i = addr ∧ addr ≤ 0x10 := by
  unfold flatMap at h
  split_ifs at h with h0
  · cases h
    exact ⟨rfl, h0⟩
  all_goals cases h

/-- A host write by cases: dropped, dropped with OVR set, a buffer byte, a register, or no effect at all. -/
theorem hostWrite_cases (sp : Space) (i : Nat) (d : Half) (s : State) :
    (s.flag .busy = true ∧ sp = .reg ∧ i = 0 ∧ hostWrite sp i d s = .next (setOverrun s)) ∨
    (s.flag .busy = true ∧ hostWrite sp i d s = .next s) ∨
    (s.flag .busy = false ∧ ∃ b, sp = .buf b ∧ hostWrite sp i d s = .next (s.writeByte b i (d.setWidth 8))) ∨
    (s.flag .busy = false ∧ sp = .reg ∧ ∃ n, regOfNum i = some n ∧ hostWrite sp i d s = writeReg n d s) ∨
    (s.flag .busy = false ∧ hostWrite sp i d s = .next s) := by
  unfold hostWrite
  by_cases hb : s.flag .busy = true
  · rw [if_pos hb]
    unfold writeBusy
    split
    · exact .inl ⟨hb, rfl, rfl, rfl⟩
    · exact .inr (.inl ⟨hb, rfl⟩)
  · have hb0 : s.flag .busy = false := by simpa using hb
    rw [if_neg hb]
    unfold writeIdle
    cases sp with
    | buf b => exact .inr (.inr (.inl ⟨hb0, b, rfl, rfl⟩))
    | reg =>
      cases hn : regOfNum i with
      | none => exact .inr (.inr (.inr (.inr ⟨hb0, by simp only⟩)))
      | some n => exact .inr (.inr (.inr (.inl ⟨hb0, rfl, n, rfl, by simp only⟩)))

/-- A host action by cases: a write, a read, or an answer of 0 or no effect for an unassigned flat address. -/
theorem hostAct_cases (act : HostAction) (s : State) :
    (∃ sp i d, (act = .write sp i d ∨ ∃ addr, act = .writeAt addr d ∧ flatMap s.cfg addr.toNat = some (sp, i)) ∧
      hostAct act s = hostWrite sp i d s) ∨
    (∃ v, hostAct act s = .next (answerRead v s)) ∨ hostAct act s = .next s := by
  cases act with
  | write sp i d => exact .inl ⟨sp, i, d, .inl rfl, rfl⟩
  | read sp i => exact .inr (.inl ⟨s.portValue sp i, rfl⟩)
  | wait => exact .inr (.inl ⟨s.portValue .reg 0x01, rfl⟩)
  | writeAt addr d =>
    cases hm : flatMap s.cfg addr.toNat with
    | none => exact .inr (.inr (by simp only [hostAct, hm]))
    | some p => exact .inl ⟨p.1, p.2, d, .inr ⟨addr, rfl, hm⟩, by simp only [hostAct, hm]⟩
  | readAt addr =>
    cases hm : flatMap s.cfg addr.toNat with
    | none => exact .inr (.inl ⟨0, by simp only [hostAct, hm]⟩)
    | some p => exact .inr (.inl ⟨s.portValue p.1 p.2, by simp only [hostAct, hm]; rfl⟩)

/-- OVR is set, every other flag stays. -/
theorem setOverrun_flag (s : State) (f : StatusFlag) :
    (setOverrun s).flag f = if f = .ovr then true else s.flag f := by
  simp only [setOverrun, State.flag, State.setRegs_regs, getFlag_setFlag, eq_comm]

/-- Setting OVR keeps the reserved bits of STATUS. -/
@[simp] theorem setOverrun_reserved (s : State) :
    (setOverrun s).regs.status &&& 0xE0#8 = s.regs.status &&& 0xE0#8 :=
  setFlag_reserved ..

/-- While BUSY is 1 a host action is dropped, sets OVR, or is a read (20_memory.md R49). -/
theorem hostAct_busy (act : HostAction) (s : State) (hb : s.flag .busy = true) :
    hostAct act s = .next (setOverrun s) ∨ hostAct act s = .next s ∨ ∃ v, hostAct act s = .next (answerRead v s) := by
  rcases hostAct_cases act s with ⟨sp, i, d, _, h⟩ | ⟨v, h⟩ | h
  · rcases hostWrite_cases sp i d s with ⟨_, _, _, h'⟩ | ⟨_, h'⟩ | ⟨h', _⟩ | ⟨h', _⟩ | ⟨h', _⟩
    · exact .inl (h.trans h')
    · exact .inr (.inl (h.trans h'))
    all_goals
      rw [hb] at h'
      cases h'
  · exact .inr (.inr ⟨v, h⟩)
  · exact .inr (.inl h)

end Sys2Proof.Machine
end

