-- ==== Sys2Proof/Laws/Ndef.lean ====
section
/-! SUPPORT. NDEFHDR: the scan finds the first header pattern of the usable region, or there is none. -/

namespace Sys2Proof.Machine

/-- A found index carries the pattern, lies in the region, and is the first such index from the start on. -/
theorem scanHeader_some (rd : Nat → Byte) (hi : Nat) (fuel : Nat) : ∀ (i k : Nat),
    scanHeader rd hi fuel i = some k →
      i ≤ k ∧ k + 5 < hi ∧ rd k = 0x03 ∧ rd (k + 5) = 0x54 ∧
      ∀ j, i ≤ j → j < k → ¬ (rd j = 0x03 ∧ rd (j + 5) = 0x54) := by
  induction fuel with
  | zero => intro i k h; cases h
  | succ fuel ih =>
    intro i k h
    unfold scanHeader at h
    split at h
    · rename_i hlt
      split at h
      · rename_i hm
        cases h
        exact ⟨le_refl _, hlt, hm.1, hm.2, fun j h1 h2 => absurd h1 (by omega)⟩
      · rename_i hm
        obtain ⟨h1, h2, h3, h4, h5⟩ := ih (i + 1) k h
        refine ⟨by omega, h2, h3, h4, fun j hj hjk => ?_⟩
        by_cases he : j = i
        · subst he; exact hm
        · exact h5 j (by omega) hjk
    · cases h

/-- With fuel for the whole region, nothing found means no pattern in it. -/
theorem scanHeader_none (rd : Nat → Byte) (hi : Nat) (fuel : Nat) : ∀ (i : Nat), hi ≤ i + fuel →
    scanHeader rd hi fuel i = none → ∀ j, i ≤ j → j + 5 < hi → ¬ (rd j = 0x03 ∧ rd (j + 5) = 0x54) := by
  induction fuel with
  | zero => intro i hf _ j hj hlt; omega
  | succ fuel ih =>
    intro i hf h j hj hlt
    unfold scanHeader at h
    split at h
    · split at h
      · cases h
      · rename_i hm
        by_cases he : j = i
        · subst he; exact hm
        · exact ih (i + 1) (by omega) h j (by omega) hlt
    · omega

/-- The scan depends on the bytes of the region alone (44_ndef_header.md R169). -/
theorem scanHeader_congr (rd rd' : Nat → Byte) (hi fuel : Nat) : ∀ i, (∀ j, i ≤ j → j < hi → rd' j = rd j) →
    scanHeader rd' hi fuel i = scanHeader rd hi fuel i := by
  induction fuel with
  | zero => intros; rfl
  | succ fuel ih =>
    intro i h
    unfold scanHeader
    split
    · rw [h i (le_refl _) (by omega), h (i + 5) (by omega) (by omega),
        ih (i + 1) fun j h1 h2 => h j (by omega) h2]
    · rfl

/-- The language-code length is at most 63 (44_ndef_header.md R163). -/
theorem langLen_le (v : Byte) : langLen v ≤ 63 := by
  unfold langLen
  rw [BitVec.toNat_and]
  exact Nat.and_le_right

/-- The low six bits are the remainder by 64 (44_ndef_header.md R162). -/
theorem langLen_mod (v : Byte) : langLen v = v.toNat % 64 := by
  unfold langLen
  rw [BitVec.toNat_and]
  exact Nat.and_two_pow_sub_one_eq_mod v.toNat 6

/-- The scan of NDEFHDR, said by the patterns of the region: the first one, or none. -/
theorem headerScan_cases (s : State) :
    (∃ i, scanHeader (s.byteAt .fbuf) (regionEnd s.cfg s.regs.fcnt.toNat) (regionEnd s.cfg s.regs.fcnt.toNat) s.cfg.ndefHdrSkip =
      some i ∧ s.firstHeader i) ∨
    (scanHeader (s.byteAt .fbuf) (regionEnd s.cfg s.regs.fcnt.toNat) (regionEnd s.cfg s.regs.fcnt.toNat) s.cfg.ndefHdrSkip = none ∧
      ∀ i, ¬ s.headerAt i) := by
  cases h : scanHeader (s.byteAt .fbuf) (regionEnd s.cfg s.regs.fcnt.toNat) (regionEnd s.cfg s.regs.fcnt.toNat)
      s.cfg.ndefHdrSkip with
  | none =>
    refine .inr ⟨rfl, fun i hi => ?_⟩
    exact scanHeader_none _ _ _ _ (by omega) h i hi.1 hi.2.1 hi.2.2
  | some k =>
    obtain ⟨h1, h2, h3, h4, h5⟩ := scanHeader_some _ _ _ _ _ h
    exact .inl ⟨k, rfl, ⟨h1, h2, h3, h4⟩, fun j hj hh => h5 j hh.1 hj hh.2.2⟩

/-- There is at most one first header. -/
theorem State.firstHeader_unique {s : State} {i j : Nat} (hi : s.firstHeader i) (hj : s.firstHeader j) : i = j := by
  rcases lt_trichotomy i j with h | h | h
  · exact absurd hi.1 (hj.2 i h)
  · exact h
  · exact absurd hj.1 (hi.2 j h)

/-- What the unit answers: an error, no header, or the first header decoded (44_ndef_header.md R162). -/
theorem ndefHeader_cases (s : State) :
    (∃ e p, ndefHeader s = ndefFail e p s) ∨
    (ndefHeader s = complete false (setPos (regionEnd s.cfg s.regs.fcnt.toNat) (setNdef 0 0 0 0 s))) ∨
    (∃ i, s.regs.fcnt.toNat ≤ s.cfg.fbSize ∧ s.firstHeader i ∧
      langLen (s.byteAt .fbuf (i + 6)) + 1 ≤ (s.byteAt .fbuf (i + 4)).toNat ∧
      ndefHeader s = complete true (setPos i (setNdef i (langLen (s.byteAt .fbuf (i + 6)))
        ((s.byteAt .fbuf (i + 4)).toNat - langLen (s.byteAt .fbuf (i + 6)) - 1)
        (i + 7 + langLen (s.byteAt .fbuf (i + 6))) s))) := by
  unfold ndefHeader
  split
  · exact .inl ⟨_, _, rfl⟩
  · rename_i hn
    rcases headerScan_cases s with ⟨i, h1, h2⟩ | ⟨h1, _⟩
    · simp only [h1]
      unfold decodeHeader
      split
      · exact .inl ⟨_, _, rfl⟩
      · simp only
        split
        · exact .inl ⟨_, _, rfl⟩
        · exact .inr (.inr ⟨i, by omega, h2, by omega, rfl⟩)
    · exact .inr (.inl (by simp [h1]))

end Sys2Proof.Machine
end

