-- ==== Sys2Proof/Laws/Parse.lean ====
section
/-! SUPPORT. The scan of PARSE, each stage inverted once, and the whole scan against its closed form
(42_frame_parse.md R120, R124). -/

namespace Sys2Proof.Machine

section Stages

variable (rd : Nat → Byte) (n p : Nat)

theorem needByte_ok (b : Byte) : needByte rd n p = .ok b ↔ p < n ∧ b = rd p := by
  unfold needByte
  split
  · simp; omega
  · simp [eq_comm]; omega

theorem expectByte_ok (v : Byte) (e : ErrCode) (q : Nat) :
    expectByte rd n p v e = .ok q ↔ p < n ∧ rd p = v ∧ q = p + 1 := by
  unfold expectByte needByte
  by_cases h : n ≤ p
  · simp [h, not_lt.mpr h]
  · by_cases hb : rd p = v <;> simp [h, hb, eq_comm, Nat.lt_of_not_le h]

theorem expectSum_ok (v : Byte) (e : ErrCode) (q : Nat) :
    expectSum rd n p v e = .ok q ↔ p < n ∧ sumsToZero v (rd p) = true ∧ q = p + 1 := by
  unfold expectSum needByte
  by_cases h : n ≤ p
  · simp [h, not_lt.mpr h]
  · by_cases hb : sumsToZero v (rd p) = true <;> simp [h, hb, eq_comm, Nat.lt_of_not_le h]

theorem scanMarker_ok (mark : Bool) (q : Nat) :
    scanMarker rd n mark = .ok q ↔ (mark = true → 0 < n ∧ rd 0 = 0x01) ∧ q = mark.toNat := by
  cases mark
  · simp [scanMarker, eq_comm]
  · simp [scanMarker, expectByte_ok, rdyByte, and_assoc]

theorem scanStart_ok (q : Nat) :
    scanStart rd n p = .ok q ↔ p + 2 < n ∧ rd p = 0x00 ∧ rd (p + 1) = 0x00 ∧ rd (p + 2) = 0xFF ∧ q = p + 3 := by
  unfold scanStart
  simp only [bind, Except.bind]
  constructor
  · intro h
    split at h
    · cases h
    · rename_i q1 h1
      split at h
      · cases h
      · rename_i q2 h2
        obtain ⟨_, b0, rfl⟩ := (expectByte_ok ..).mp h1
        obtain ⟨_, b1, rfl⟩ := (expectByte_ok ..).mp h2
        obtain ⟨hn, b2, rfl⟩ := (expectByte_ok ..).mp h
        exact ⟨hn, b0, b1, b2, rfl⟩
  · rintro ⟨hn, h0, h1, h2, rfl⟩
    rw [(expectByte_ok rd n p sof0 .start (p + 1)).mpr ⟨by omega, h0, rfl⟩]
    simp only
    rw [(expectByte_ok rd n (p + 1) sof1 .start (p + 2)).mpr ⟨by omega, h1, rfl⟩]
    exact (expectByte_ok ..).mpr ⟨hn, h2, rfl⟩

theorem scanLength_ok (maxLen l : Nat) :
    scanLength rd n maxLen p = .ok l ↔
      p + 1 < n ∧ ((rd p).toNat + (rd (p + 1)).toNat) % 0x100 = 0 ∧ l = (rd p).toNat ∧ 1 ≤ l ∧ l ≤ maxLen := by
  unfold scanLength
  simp only [bind, Except.bind]
  constructor
  · intro h
    split at h
    · cases h
    · rename_i b hb
      obtain ⟨_, rfl⟩ := (needByte_ok ..).mp hb
      split at h
      · cases h
      · rename_i q hq
        obtain ⟨hn, hs, rfl⟩ := (expectSum_ok ..).mp hq
        split at h
        · cases h
        · split at h
          · cases h
          · cases h
            exact ⟨hn, (sumsToZero_iff ..).mp hs, rfl, by omega, by omega⟩
  · rintro ⟨hn, hs, rfl, h1, h2⟩
    rw [(needByte_ok rd n p (rd p)).mpr ⟨by omega, rfl⟩]
    simp only
    rw [(expectSum_ok rd n (p + 1) (rd p) .lcs (p + 2)).mpr ⟨hn, (sumsToZero_iff ..).mpr hs, rfl⟩]
    simp only
    rw [if_neg (by omega), if_neg (by omega)]

theorem scanPayload_ok (l : Nat) : ∀ (p : Nat) (acc : Byte) (r : Byte × Nat),
    scanPayload rd n l p acc = .ok r ↔
      (l = 0 ∨ p + l ≤ n) ∧ r = (sumFrom acc ((List.range l).map fun k => rd (p + k)), p + l) := by
  induction l with
  | zero => intro p acc r; simp [scanPayload, sumFrom, eq_comm]
  | succ l ih =>
    intro p acc r
    have hlist : (List.range (l + 1)).map (fun k => rd (p + k)) =
        rd p :: (List.range l).map fun k => rd (p + 1 + k) := by
      rw [List.range_succ_eq_map, List.map_cons, List.map_map, Nat.add_zero]
      congr 1
      exact List.map_congr_left fun k _ => by simp [Nat.add_right_comm, Nat.add_assoc]
    rw [hlist, sumFrom, scanPayload, show p + (l + 1) = p + 1 + l by omega]
    cases hb : needByte rd n p with
    | error x =>
      have : ¬ p < n := fun h => by
        rw [(needByte_ok rd n p (rd p)).mpr ⟨h, rfl⟩] at hb
        cases hb
      simp
      omega
    | ok b =>
      obtain ⟨hp, rfl⟩ := (needByte_ok ..).mp hb
      simp only [ih]
      constructor
      · rintro ⟨h, rfl⟩
        exact ⟨by omega, rfl⟩
      · rintro ⟨h, rfl⟩
        exact ⟨by omega, rfl⟩

theorem scanPost_ok (post : Bool) (q : Nat) :
    scanPost rd n p post = .ok q ↔ (post = true → p < n ∧ rd p = 0x00) ∧ q = p + post.toNat := by
  cases post
  · simp only [scanPost, Bool.false_eq_true, if_false, Except.ok.injEq, false_implies, Bool.toNat_false, Nat.add_zero,
      true_and]
    exact eq_comm
  · simp [scanPost, expectByte_ok, postamble, and_assoc]

theorem needByte_error (x : ScanError) : needByte rd n p = .error x ↔ n ≤ p ∧ x = ⟨.trunc, p⟩ := by
  unfold needByte
  by_cases h : n ≤ p <;> simp [h, eq_comm (b := x)]

theorem expectByte_error (v : Byte) (e : ErrCode) (x : ScanError) :
    expectByte rd n p v e = .error x ↔ (n ≤ p ∧ x = ⟨.trunc, p⟩) ∨ (p < n ∧ rd p ≠ v ∧ x = ⟨e, p⟩) := by
  unfold expectByte needByte
  by_cases h : n ≤ p
  · simp [h, not_lt.mpr h, eq_comm (b := x)]
  · by_cases hb : rd p = v <;> simp [h, hb, Nat.lt_of_not_le h, eq_comm (b := x)]

theorem expectSum_error (v : Byte) (e : ErrCode) (x : ScanError) :
    expectSum rd n p v e = .error x ↔
      (n ≤ p ∧ x = ⟨.trunc, p⟩) ∨ (p < n ∧ sumsToZero v (rd p) = false ∧ x = ⟨e, p⟩) := by
  unfold expectSum needByte
  by_cases h : n ≤ p
  · simp [h, not_lt.mpr h, eq_comm (b := x)]
  · by_cases hb : sumsToZero v (rd p) = true <;> simp [h, hb, Nat.lt_of_not_le h, eq_comm (b := x)]

theorem scanMarker_error (mark : Bool) (x : ScanError) :
    scanMarker rd n mark = .error x ↔
      mark = true ∧ ((n = 0 ∧ x = ⟨.trunc, 0⟩) ∨ (0 < n ∧ rd 0 ≠ 0x01 ∧ x = ⟨.marker, 0⟩)) := by
  cases mark
  · simp [scanMarker]
  · simp [scanMarker, expectByte_error, rdyByte]

theorem scanStart_error (x : ScanError) :
    scanStart rd n p = .error x ↔
      (n ≤ p ∧ x = ⟨.trunc, p⟩) ∨ (p < n ∧ rd p ≠ 0x00 ∧ x = ⟨.start, p⟩) ∨
      (p < n ∧ rd p = 0x00 ∧
        ((n ≤ p + 1 ∧ x = ⟨.trunc, p + 1⟩) ∨ (p + 1 < n ∧ rd (p + 1) ≠ 0x00 ∧ x = ⟨.start, p + 1⟩) ∨
        (p + 1 < n ∧ rd (p + 1) = 0x00 ∧
          ((n ≤ p + 2 ∧ x = ⟨.trunc, p + 2⟩) ∨ (p + 2 < n ∧ rd (p + 2) ≠ 0xFF ∧ x = ⟨.start, p + 2⟩))))) := by
  unfold scanStart
  simp only [bind, Except.bind]
  cases h0 : expectByte rd n p sof0 .start with
  | error y =>
    have h0' := (expectByte_error ..).mp h0
    simp only [Except.error.injEq]
    rcases h0' with ⟨a, rfl⟩ | ⟨a, b, rfl⟩
    · simp [a, not_lt.mpr a, eq_comm (b := x)]
    · have b : ¬ rd p = 0#8 := b
      simp [not_le.mpr a, a, b, eq_comm (b := x)]
  | ok q =>
    obtain ⟨a0, b0, rfl⟩ := (expectByte_ok ..).mp h0
    simp only [sof0] at b0
    simp only [not_le.mpr a0, a0, b0, false_and, false_or, ne_eq, not_true, and_false, true_and]
    cases h1 : expectByte rd n (p + 1) sof1 .start with
    | error y =>
      have h1' := (expectByte_error ..).mp h1
      simp only [Except.error.injEq]
      rcases h1' with ⟨a, rfl⟩ | ⟨a, b, rfl⟩
      · simp [a, not_lt.mpr a, eq_comm (b := x)]
      · have b : ¬ rd (p + 1) = 0#8 := b
        simp [not_le.mpr a, a, b, eq_comm (b := x)]
    | ok q =>
      obtain ⟨a1, b1, rfl⟩ := (expectByte_ok ..).mp h1
      simp only [sof1] at b1
      simp only [not_le.mpr a1, a1, b1, false_and, false_or, not_true, and_false, true_and]
      exact expectByte_error ..

theorem scanLength_error (maxLen : Nat) (x : ScanError) :
    scanLength rd n maxLen p = .error x ↔
      (n ≤ p ∧ x = ⟨.trunc, p⟩) ∨ (p < n ∧ n ≤ p + 1 ∧ x = ⟨.trunc, p + 1⟩) ∨
      (p + 1 < n ∧ sumsToZero (rd p) (rd (p + 1)) = false ∧ x = ⟨.lcs, p + 1⟩) ∨
      (p + 1 < n ∧ sumsToZero (rd p) (rd (p + 1)) = true ∧
        (((rd p).toNat = 0 ∧ x = ⟨.empty, p⟩) ∨
          ((rd p).toNat ≠ 0 ∧ (rd p).toNat > maxLen ∧ x = ⟨.toolarge, p⟩))) := by
  unfold scanLength
  simp only [bind, Except.bind]
  cases h0 : needByte rd n p with
  | error y =>
    obtain ⟨a, rfl⟩ := (needByte_error ..).mp h0
    simp only [Except.error.injEq]
    constructor
    · rintro rfl
      exact .inl ⟨a, rfl⟩
    · rintro (⟨_, rfl⟩ | h | h | h)
      · rfl
      all_goals exact absurd h.1 (by omega)
  | ok b =>
    obtain ⟨a, rfl⟩ := (needByte_ok ..).mp h0
    simp only
    cases h1 : expectSum rd n (p + 1) (rd p) .lcs with
    | error y =>
      have h1' := (expectSum_error ..).mp h1
      simp only [Except.error.injEq]
      constructor
      · rintro rfl
        rcases h1' with ⟨c, rfl⟩ | ⟨c, d, rfl⟩
        · exact .inr (.inl ⟨a, c, rfl⟩)
        · exact .inr (.inr (.inl ⟨c, d, rfl⟩))
      · rcases h1' with ⟨c, rfl⟩ | ⟨c, d, rfl⟩
        · rintro (h | ⟨_, _, rfl⟩ | h | h)
          · exact absurd h.1 (by omega)
          · rfl
          all_goals exact absurd h.1 (by omega)
        · rintro (h | h | ⟨_, _, rfl⟩ | h)
          · exact absurd h.1 (by omega)
          · exact absurd h.2.1 (by omega)
          · rfl
          · rw [d] at h
            exact absurd h.2.1 (by decide)
    | ok q =>
      obtain ⟨c, d, rfl⟩ := (expectSum_ok ..).mp h1
      simp only [show p + 1 + 1 - 2 = p by omega]
      simp only [show ¬ n ≤ p by omega, show ¬ n ≤ p + 1 by omega, c, d, false_and, and_false, false_or, true_and,
        Bool.true_eq_false]
      split
      · rename_i hz
        simp [hz, eq_comm (b := x)]
      · rename_i hz
        split
        · rename_i hg
          simp [hz, hg, eq_comm (b := x)]
        · rename_i hg
          simp [hz, hg]

theorem scanPayload_error (l : Nat) : ∀ (p : Nat) (acc : Byte) (x : ScanError), p ≤ n →
    (scanPayload rd n l p acc = .error x ↔ n < p + l ∧ x = ⟨.trunc, n⟩) := by
  induction l with
  | zero => intro p acc x h; simp [scanPayload]; omega
  | succ l ih =>
    intro p acc x h
    rw [scanPayload]
    cases h0 : needByte rd n p with
    | error y =>
      obtain ⟨a, rfl⟩ := (needByte_error ..).mp h0
      have hp : p = n := by omega
      subst hp
      simp [eq_comm (b := x)]
    | ok b =>
      obtain ⟨a, rfl⟩ := (needByte_ok ..).mp h0
      simp only
      rw [ih (p + 1) _ x (by omega), show p + 1 + l = p + (l + 1) by omega]

theorem scanPost_error (post : Bool) (x : ScanError) :
    scanPost rd n p post = .error x ↔
      post = true ∧ ((n ≤ p ∧ x = ⟨.trunc, p⟩) ∨ (p < n ∧ rd p ≠ 0x00 ∧ x = ⟨.post, p⟩)) := by
  cases post
  · simp [scanPost]
  · simp [scanPost, expectByte_error, postamble]

end Stages

/-- The whole scan succeeds exactly on the closed form, and then reports where the payload is, how long, and where
the frame stops (42_frame_parse.md R120, R121, R124). -/
theorem scanFrame_ok (rd : Nat → Byte) (n maxLen : Nat) (mark post : Bool) (f : ScanFrame) :
    scanFrame rd n maxLen mark post = .ok f ↔
      validFrame rd n maxLen mark.toNat post.toNat ∧
      f = ⟨mark.toNat + 5, (rd (mark.toNat + 3)).toNat,
        mark.toNat + 5 + (rd (mark.toNat + 3)).toNat + 1 + post.toNat⟩ := by
  unfold scanFrame
  simp only [bind, Except.bind, pure, Except.pure]
  constructor
  · intro h
    split at h
    · cases h
    rename_i p0 h0
    split at h
    · cases h
    rename_i p1 h1
    split at h
    · cases h
    rename_i l h2
    split at h
    · cases h
    rename_i r h3
    split at h
    · cases h
    rename_i p4 h4
    split at h
    · cases h
    rename_i p5 h5
    obtain ⟨hm, rfl⟩ := (scanMarker_ok ..).mp h0
    obtain ⟨hn1, s0, s1, s2, rfl⟩ := (scanStart_ok ..).mp h1
    obtain ⟨hn2, hlcs, rfl, hl1, hl2⟩ := (scanLength_ok ..).mp h2
    obtain ⟨hn3, rfl⟩ := (scanPayload_ok ..).mp h3
    obtain ⟨hn4, hdcs, rfl⟩ := (expectSum_ok ..).mp h4
    obtain ⟨hpost, rfl⟩ := (scanPost_ok ..).mp h5
    cases h
    refine ⟨⟨by omega, ?_, s0, s1, s2, hlcs, hl1, hl2, ?_, ?_, ?_⟩, ?_⟩
    · cases mark
      · exact .inl rfl
      · exact .inr (hm rfl).2
    · cases post
      · simp at hn4 ⊢; omega
      · have := (hpost rfl).1
        simp at this ⊢; omega
    · exact (sumsToZero_sum8 ((List.range _).map fun k => rd (mark.toNat + 5 + k)) _).mp hdcs
    · cases post
      · exact .inl rfl
      · right
        have := (hpost rfl).2
        rwa [show mark.toNat + 6 + (rd (mark.toNat + 3)).toNat
          = mark.toNat + 3 + 2 + (rd (mark.toNat + 3)).toNat + 1 by omega]
    · rfl
  · rintro ⟨⟨hn, hm, s0, s1, s2, hlcs, hl1, hl2, hn2, hdcs, hpost⟩, rfl⟩
    have hmark : mark = true → 0 < n ∧ rd 0 = 0x01 := by
      rintro rfl
      exact ⟨by omega, hm.resolve_left (by simp)⟩
    rw [(scanMarker_ok rd n mark mark.toNat).mpr ⟨hmark, rfl⟩]
    simp only
    rw [(scanStart_ok rd n mark.toNat (mark.toNat + 3)).mpr ⟨by omega, s0, s1, s2, rfl⟩]
    simp only
    rw [(scanLength_ok rd n (mark.toNat + 3) maxLen (rd (mark.toNat + 3)).toNat).mpr
      ⟨by omega, hlcs, rfl, hl1, hl2⟩]
    simp only
    rw [(scanPayload_ok rd n _ (mark.toNat + 3 + 2) 0 _).mpr ⟨.inr (by omega), rfl⟩]
    simp only
    have hsum : expectSum rd n (mark.toNat + 3 + 2 + (rd (mark.toNat + 3)).toNat)
        (sumFrom 0 ((List.range (rd (mark.toNat + 3)).toNat).map fun k => rd (mark.toNat + 3 + 2 + k))) .dcs =
        .ok (mark.toNat + 3 + 2 + (rd (mark.toNat + 3)).toNat + 1) :=
      (expectSum_ok ..).mpr ⟨by omega, (sumsToZero_sum8 ..).mpr hdcs, rfl⟩
    rw [hsum]
    simp only
    rw [(scanPost_ok rd n _ post (mark.toNat + 3 + 2 + (rd (mark.toNat + 3)).toNat + 1 + post.toNat)).mpr
      ⟨?_, rfl⟩]
    rintro rfl
    refine ⟨by simp at hn2; omega, ?_⟩
    have := hpost.resolve_left (by simp)
    rwa [show mark.toNat + 6 + (rd (mark.toNat + 3)).toNat
      = mark.toNat + 3 + 2 + (rd (mark.toNat + 3)).toNat + 1 by omega] at this

/-- An error of the scan is an error of one of its stages, the ones before it having succeeded. -/
theorem scanFrame_error (rd : Nat → Byte) (n maxLen : Nat) (mark post : Bool) (x : ScanError) :
    scanFrame rd n maxLen mark post = .error x ↔
      scanMarker rd n mark = .error x ∨
      ∃ p, scanMarker rd n mark = .ok p ∧ (scanStart rd n p = .error x ∨
      ∃ q, scanStart rd n p = .ok q ∧ (scanLength rd n maxLen q = .error x ∨
      ∃ l, scanLength rd n maxLen q = .ok l ∧ (scanPayload rd n l (q + 2) 0 = .error x ∨
      ∃ r, scanPayload rd n l (q + 2) 0 = .ok r ∧ (expectSum rd n r.2 r.1 .dcs = .error x ∨
      ∃ u, expectSum rd n r.2 r.1 .dcs = .ok u ∧ scanPost rd n u post = .error x)))) := by
  unfold scanFrame
  simp only [bind, Except.bind, pure, Except.pure]
  cases h0 : scanMarker rd n mark with
  | error y => simp
  | ok p =>
    simp only [reduceCtorEq, false_or, Except.ok.injEq, exists_eq_left']
    cases h1 : scanStart rd n p with
    | error y => simp
    | ok q =>
      simp only [reduceCtorEq, false_or, Except.ok.injEq, exists_eq_left']
      cases h2 : scanLength rd n maxLen q with
      | error y => simp
      | ok l =>
        simp only [reduceCtorEq, false_or, Except.ok.injEq, exists_eq_left']
        cases h3 : scanPayload rd n l (q + 2) 0 with
        | error y => simp
        | ok r =>
          simp only [reduceCtorEq, false_or, Except.ok.injEq, exists_eq_left']
          cases h4 : expectSum rd n r.2 r.1 .dcs with
          | error y => simp
          | ok u =>
            simp only [reduceCtorEq, false_or, Except.ok.injEq, exists_eq_left']
            cases h5 : scanPost rd n u post <;> simp

/-- What PARSE answers: a refusal with its index, or the frame it found; all else is unchanged. -/
theorem execParse_cases (s : State) :
    (s.cfg.fbSize < s.regs.fcnt.toNat ∧ execParse s = .next (parseFail .range 0 s)) ∨
    (s.regs.fcnt.toNat ≤ s.cfg.fbSize ∧ ∃ x, scanFrame (s.byteAt .fbuf) s.regs.fcnt.toNat s.cfg.maxLen (ctrlMark s.regs.ctrl)
      (ctrlPost s.regs.ctrl) = .error x ∧ execParse s = .next (parseFail x.err x.pos s)) ∨
    (s.regs.fcnt.toNat ≤ s.cfg.fbSize ∧ ∃ f, scanFrame (s.byteAt .fbuf) s.regs.fcnt.toNat s.cfg.maxLen (ctrlMark s.regs.ctrl)
      (ctrlPost s.regs.ctrl) = .ok f ∧ execParse s = .next (complete true (setPos f.stop (setPay f.off f.len s)))) := by
  unfold execParse
  split
  · exact .inl ⟨by omega, rfl⟩
  · right
    split
    · rename_i x hx
      exact .inl ⟨by omega, x, hx, rfl⟩
    · rename_i f hf
      exact .inr ⟨by omega, f, hf, rfl⟩

end Sys2Proof.Machine
end

