-- ==== Sys2Proof/Laws/PerInstr.lean ====
section
/-! SUPPORT. Facts about each operation as syntax, one lemma per constructor. -/

namespace Sys2Proof.Laws.CommandCode

/-- The code of an operation has bits 7:4 zero and an operation code from 0x1 to 0x9 (30_encoding.md R70, R71). -/
def Statement (i : Instr) : Prop := cmdHigh (encode i) = 0 ∧ 1 ≤ (cmdOp (encode i)).toNat ∧ (cmdOp (encode i)).toNat ≤ 9

theorem lcs : Statement .lcs := by unfold Statement; decide
theorem chkl : Statement .chkl := by unfold Statement; decide
theorem dcs : Statement .dcs := by unfold Statement; decide
theorem chkd : Statement .chkd := by unfold Statement; decide
theorem build : Statement .build := by unfold Statement; decide
theorem parse : Statement .parse := by unfold Statement; decide
theorem verify : Statement .verify := by unfold Statement; decide
theorem vack : Statement .vack := by unfold Statement; decide
theorem ndefhdr : Statement .ndefhdr := by unfold Statement; decide

end Sys2Proof.Laws.CommandCode
end

