-- ==== Sys2Proof/Laws/Verify.lean ====
section
/-! SUPPORT. VERIFY and VACK: what their accept step and the steps of the collaborators do, each said once, and the
reads of the expected bytes that those steps leave alone. -/

namespace Sys2Proof.Machine

/-- The accept step of a comparison, whole (43_verify.md R141). -/
theorem startCompare_spec (n : Nat) (src : VSrc) (s : State) :
    startCompare n src s =
      { s with
        regs := { s.regs with status := statusAccept s.regs.status, ecode := 0x00 }
        cmp := { phase := if n > 0 then .rx else .settle, rxn := n, rxk := 0, mis := false, mispos := 0, vsrc := src }
        bus := if n > 0 then { s.bus with requests := n :: s.bus.requests } else s.bus
        sleeper := if n > 0 then s.sleeper else { s.sleeper with asked := s.sleeper.asked + 1 } } := by
  unfold startCompare
  by_cases h : n > 0
  · simp only [if_pos h]; rfl
  · simp only [if_neg h]; rfl

/-- The receive step, whole (43_verify.md R150). -/
theorem receiveByte_spec (b : Byte) (s : State) :
    receiveByte b s =
      { s with
        cmp := { compareByte s.cmp (s.expected s.cmp.rxk) b with
          phase := if s.cmp.rxk + 1 = s.cmp.rxn then .settle else s.cmp.phase }
        sleeper := if s.cmp.rxk + 1 = s.cmp.rxn then { s.sleeper with asked := s.sleeper.asked + 1 }
          else s.sleeper } := by
  have hk : ∀ w : Byte, (compareByte s.cmp w b).rxk = s.cmp.rxk + 1 := fun w => by
    unfold compareByte; split <;> rfl
  have hn : ∀ w : Byte, (compareByte s.cmp w b).rxn = s.cmp.rxn := fun w => by
    unfold compareByte; split <;> rfl
  have hp : ∀ w : Byte, (compareByte s.cmp w b).phase = s.cmp.phase := fun w => by
    unfold compareByte; split <;> rfl
  have hc (w : Byte) : (s.setCmp (compareByte s.cmp w b)).cmp.rxk = (s.setCmp (compareByte s.cmp w b)).cmp.rxn ↔
      s.cmp.rxk + 1 = s.cmp.rxn := by
    rw [State.setCmp_cmp, hk, hn]
  unfold receiveByte
  dsimp only
  by_cases h : s.cmp.rxk + 1 = s.cmp.rxn
  · rw [if_pos ((hc _).mpr h), if_pos h, if_pos h]
    rfl
  · rw [if_neg (fun hx => h ((hc _).mp hx)), if_neg h, if_neg h, ← hp (s.expected s.cmp.rxk)]
    rfl

/-- The settle-end step, whole (43_verify.md R150). -/
theorem settleEnd_spec (s : State) :
    settleEnd s = (s.setRegs { s.regs with
      pos := BitVec.ofNat 16 (if s.cmp.mis then s.cmp.mispos else s.cmp.rxn)
      status := statusDone (!s.cmp.mis) s.regs.status
      ecode := 0x00 }).setPhase .idle := rfl

/-- The transport's turn, by cases: a receive step, or nothing at all. -/
theorem transportTurn_cases (s : State) :
    (∃ b rest, s.cmp.phase = .rx ∧ s.bus.pending = b :: rest ∧
      transportTurn s = receiveByte b (s.setBus { s.bus with pending := rest, taken := s.bus.taken + 1 })) ∨
    ((s.cmp.phase ≠ .rx ∨ s.bus.pending = []) ∧ transportTurn s = s) := by
  unfold transportTurn
  split
  · rename_i b rest hp hb
    exact .inl ⟨b, rest, hp, hb, rfl⟩
  · rename_i h
    refine .inr ⟨?_, rfl⟩
    by_cases hp : s.cmp.phase = .rx
    · right
      cases hb : s.bus.pending with
      | nil => rfl
      | cons b rest => exact absurd hb (h b rest hp)
    · exact .inl hp

/-- The sleeper's turn, by cases: a settle-end step, or nothing at all. -/
theorem sleeperTurn_cases (s : State) :
    (s.cmp.phase = .settle ∧
      sleeperTurn s = settleEnd (s.setSleeper { s.sleeper with ended := s.sleeper.ended + 1 })) ∨
    (s.cmp.phase ≠ .settle ∧ sleeperTurn s = s) := by
  unfold sleeperTurn
  cases h : s.cmp.phase <;> simp

/-- The expected bytes depend on the source and on EBUF alone. -/
theorem State.expected_congr {s t : State} (hv : t.cmp.vsrc = s.cmp.vsrc) (hc : t.cfg = s.cfg)
    (he : t.epoch = s.epoch) (hb : t.bufs = s.bufs) (k : Nat) : t.expected k = s.expected k := by
  unfold State.expected
  rw [hv]
  cases s.cmp.vsrc
  · exact State.byteAt_congr hc he (by rw [hb]) k
  · rfl

/-- The source of a comparison stays while its bytes are received. -/
@[simp] theorem compareByte_vsrc (c : Compare) (w b : Byte) : (compareByte c w b).vsrc = c.vsrc := by
  unfold compareByte; split <;> rfl

@[simp] theorem compareByte_rxn (c : Compare) (w b : Byte) : (compareByte c w b).rxn = c.rxn := by
  unfold compareByte; split <;> rfl

@[simp] theorem compareByte_rxk (c : Compare) (w b : Byte) : (compareByte c w b).rxk = c.rxk + 1 := by
  unfold compareByte; split <;> rfl

@[simp] theorem compareByte_phase (c : Compare) (w b : Byte) : (compareByte c w b).phase = c.phase := by
  unfold compareByte; split <;> rfl

/-- MIS and MISPOS keep the first mismatch (43_verify.md R145). -/
theorem compareByte_mis (c : Compare) (w b : Byte) :
    ((compareByte c w b).mis = true ↔ c.mis = true ∨ b ≠ w) ∧
    (compareByte c w b).mispos = if c.mis = false ∧ b ≠ w then c.rxk else c.mispos := by
  unfold compareByte
  split
  · rename_i h
    exact ⟨by simp [h.2], rfl⟩
  · rename_i h
    refine ⟨⟨.inl, ?_⟩, rfl⟩
    rintro (hm | hb)
    · exact hm
    · by_contra hm
      exact h ⟨by simpa using hm, hb⟩

end Sys2Proof.Machine
end

