-- ==== Sys2Proof/Laws/Run.lean ====
section
/-! SUPPORT. Runs of steps, and the step of each collaborator of a comparison (43_verify.md R150), whole. -/

namespace Sys2Proof.Machine

/-- No step is the whole run of length 0. -/
@[simp] theorem runSteps_zero (s : State) : runSteps 0 s = .next s := rfl

/-- A run goes on from the state its first step answers. -/
theorem runSteps_succ (k : Nat) {s t : State} (h : step s = .next t) : runSteps (k + 1) s = runSteps k t := by
  have h' : core.step s = .next t := h
  simp only [runSteps, Host.Core.run, h']
  rfl

/-- A run of j + k steps is a run of k steps from where the first j end. -/
theorem runSteps_add (j k : Nat) {s t : State} (h : runSteps j s = .next t) :
    runSteps (j + k) s = runSteps k t := by
  induction j generalizing s with
  | zero =>
    cases h
    rw [Nat.zero_add]
  | succ j ih =>
    cases hs : step s with
    | next u =>
      rw [runSteps_succ _ hs] at h
      rw [Nat.add_right_comm, runSteps_succ _ hs, ih h]
    | fault f => cases f
    | refused r =>
      have h' : core.step s = .refused r := hs
      simp only [runSteps, Host.Core.run, h'] at h
      cases h

/-- A receive step that is not the last of its comparison. -/
theorem step_receive_more {s : State} {b : Byte} {rest : List Byte} {ts : List Agent}
    (ht : s.turns = .transport :: ts) (hp : s.cmp.phase = .rx) (hb : s.bus.pending = b :: rest)
    (hk : s.cmp.rxk + 1 ≠ s.cmp.rxn) :
    step s = .next { s with
      cmp := compareByte s.cmp (s.expected s.cmp.rxk) b
      bus := { s.bus with pending := rest, taken := s.bus.taken + 1 }
      turns := ts } := by
  have hturn : transportTurn (s.setTurns ts) =
      receiveByte b ((s.setTurns ts).setBus { s.bus with pending := rest, taken := s.bus.taken + 1 }) := by
    simp [transportTurn, hp, hb]
  have hne : (compareByte s.cmp (s.expected s.cmp.rxk) b).rxk ≠ (compareByte s.cmp (s.expected s.cmp.rxk) b).rxn := by
    simpa using hk
  rw [step_cons s _ _ ht]
  show Host.Outcome.next (transportTurn (s.setTurns ts)) = _
  rw [hturn, receiveByte]
  exact congrArg _ (if_neg hne)

/-- The last receive step of a comparison: PHASE becomes SETTLE and a delay is asked. -/
theorem step_receive_last {s : State} {b : Byte} {rest : List Byte} {ts : List Agent}
    (ht : s.turns = .transport :: ts) (hp : s.cmp.phase = .rx) (hb : s.bus.pending = b :: rest)
    (hk : s.cmp.rxk + 1 = s.cmp.rxn) :
    step s = .next { s with
      cmp := { compareByte s.cmp (s.expected s.cmp.rxk) b with phase := .settle }
      bus := { s.bus with pending := rest, taken := s.bus.taken + 1 }
      sleeper := { s.sleeper with asked := s.sleeper.asked + 1 }
      turns := ts } := by
  have hturn : transportTurn (s.setTurns ts) =
      receiveByte b ((s.setTurns ts).setBus { s.bus with pending := rest, taken := s.bus.taken + 1 }) := by
    simp [transportTurn, hp, hb]
  have he : (compareByte s.cmp (s.expected s.cmp.rxk) b).rxk = (compareByte s.cmp (s.expected s.cmp.rxk) b).rxn := by
    simpa using hk
  rw [step_cons s _ _ ht]
  show Host.Outcome.next (transportTurn (s.setTurns ts)) = _
  rw [hturn, receiveByte]
  exact congrArg _ (if_pos he)

/-- The settle-end step. -/
theorem step_settle {s : State} {ts : List Agent} (ht : s.turns = .sleeper :: ts) (hp : s.cmp.phase = .settle) :
    step s = .next (settleEnd ((s.setTurns ts).setSleeper { s.sleeper with ended := s.sleeper.ended + 1 })) := by
  rw [step_cons s _ _ ht]
  simp [agentTurn, sleeperTurn, hp]

end Sys2Proof.Machine
end

