-- ==== Sys2Proof/Tests/Slice0.lean ====
section
/-! SUPPORT. Small tests, each on fixed values taken from the spec (95_test_vectors.md, or the rule named), and one
witness for each statement that has hypotheses. -/

namespace Sys2Proof.Tests

open Sys2Proof Sys2Proof.Machine

/-! ## Helpers -/

/-- The state a meaning or a step answers, none if it stops. -/
def stateOf (r : Result) : Option State :=
  match r with
  | .next t => some t
  | .fault _ => none
  | .refused _ => none

/-- A reading of the answered state. -/
def after {α : Type} (r : Result) (f : State → α) : Option α := (stateOf r).map f

/-- LDP of 30_encoding.md R76, in one go. -/
def ldp (bs : List Byte) (s : State) : State :=
  (s.writeBytes .pbuf 0 bs).setRegs { s.regs with pcnt := BitVec.ofNat 16 bs.length }

/-- LDF of 30_encoding.md R76, in one go. -/
def ldf (bs : List Byte) (s : State) : State :=
  (s.writeBytes .fbuf 0 bs).setRegs { s.regs with fcnt := BitVec.ofNat 16 bs.length }

/-- LDE of 30_encoding.md R76, in one go. -/
def lde (bs : List Byte) (s : State) : State :=
  (s.writeBytes .ebuf 0 bs).setRegs { s.regs with ecnt := BitVec.ofNat 16 bs.length }

/-- The registers A and B loaded. -/
def ab (a b : Byte) (s : State) : State := s.setRegs { s.regs with a := a, b := b }

/-- The count registers loaded. -/
def counts (p f e : Half) (s : State) : State := s.setRegs { s.regs with pcnt := p, fcnt := f, ecnt := e }

/-- CTRL loaded. -/
def ctrl (v : Byte) (s : State) : State := s.setRegs { s.regs with ctrl := v }

/-- The transport's bytes and the order of turns. -/
def world (bytes : List Byte) (ts : List Agent) (s : State) : State :=
  (s.setBus { s.bus with pending := bytes }).setTurns ts

/-- The host's next action, and its turn. -/
def hostNext (act : HostAction) (s : State) : State :=
  (s.setHost { s.host with queue := [act] }).setTurns [.host]

/-- A state in which a comparison waits for its first byte, BUSY being 1. -/
def waiting : State :=
  (State.reset.setRegs { State.reset.regs with status := 0x01 }).setCmp
    { State.reset.cmp with phase := .rx, rxn := 7, vsrc := .ackrom }

/-- STATUS and ECODE. -/
def outcome (t : State) : Byte × Byte := (t.regs.status, t.regs.ecode)

/-- Register results of PARSE. -/
def parsed (t : State) : (Byte × Byte) × Half × Byte × Half :=
  (outcome t, t.regs.payoff, t.regs.paylen, t.regs.pos)

/-- Register results of NDEFHDR. -/
def header (t : State) : (Byte × Byte) × Half × Byte × Byte × Half × Half :=
  (outcome t, t.regs.hidx, t.regs.langlen, t.regs.textlen, t.regs.textoff, t.regs.pos)

/-- An instance without the NDEF unit. -/
def plain : Config := { Config.hardware with hasNdef := false }

/-! ## WellFormed: one ill-formed term per check (00_scope.md R4, 30_encoding.md R72, 10_state.md R21) -/

theorem test_wf_accepts :
    (Instr.ndefhdr.wf Config.hardware, Instr.lcs.wf plain, Config.hardware.wf) = (true, true, true) := by decide
theorem test_wf_refuses_absent_unit : Instr.ndefhdr.wf plain = false := by decide
theorem test_wf_refuses_wide_register : (HostAction.write .reg 0x04 0x100).wf = false := by decide
theorem test_wf_takes_wide_count : (HostAction.write .reg 0x07 0x1234).wf = true := by decide
theorem test_wf_refuses_wide_byte : (HostAction.write (.buf .fbuf) 0 0x100).wf = false := by decide
theorem test_wf_refuses_wide_flat_register : (HostAction.writeAt 0x004 0x100).wf = false := by decide
theorem test_wf_refuses_wide_flat_byte : (HostAction.writeAt 0x200 0x100).wf = false := by decide
theorem test_wf_refuses_no_payload : Config.wf { Config.hardware with maxLen := 0 } = false := by decide
theorem test_wf_refuses_long_payload : Config.wf { Config.hardware with maxLen := 256 } = false := by decide
theorem test_wf_refuses_far_header : Config.wf { Config.hardware with ndefHdrSkip := 65536 } = false := by decide

/-! ## Decoding (30_encoding.md R70 to R72): each word written bit by bit -/

theorem test_decode_lcs : decode Config.hardware 0b00000001#8 = .ok .lcs := by decide
theorem test_decode_chkl : decode Config.hardware 0b00000010#8 = .ok .chkl := by decide
theorem test_decode_dcs : decode Config.hardware 0b00000011#8 = .ok .dcs := by decide
theorem test_decode_chkd : decode Config.hardware 0b00000100#8 = .ok .chkd := by decide
theorem test_decode_build : decode Config.hardware 0b00000101#8 = .ok .build := by decide
theorem test_decode_parse : decode Config.hardware 0b00000110#8 = .ok .parse := by decide
theorem test_decode_verify : decode Config.hardware 0b00000111#8 = .ok .verify := by decide
theorem test_decode_vack : decode Config.hardware 0b00001000#8 = .ok .vack := by decide
theorem test_decode_ndefhdr : decode Config.hardware 0b00001001#8 = .ok .ndefhdr := by decide
theorem test_decode_ndefhdr_absent : decode plain 0b00001001#8 = .error .ndefAbsent := by decide
theorem test_decode_zero : decode Config.hardware 0b00000000#8 = .error .zero := by decide
theorem test_decode_unassigned :
    (decode Config.hardware 0b00001010#8, decode Config.hardware 0b00001111#8) =
      (.error .unassigned, .error .unassigned) := by decide
theorem test_decode_high_bit : decode Config.hardware 0b00010001#8 = .error .highBits := by decide
theorem test_table_words : (decodeTableWord 8 0x05, decodeTableWord 8 0x0A) = (some .build, none) := by decide

/-! ## The state after reset (10_state.md R32) and the buffers -/

theorem test_reset_ctrl :
    (State.reset.regs.ctrl, State.reset.regs.status, State.reset.cmp.phase) = (0x03, 0x00, .idle) := by decide
theorem test_reset_buffers_canonical :
    Memory.wf State.reset.bufs.pbuf ∧ Memory.wf State.reset.bufs.fbuf ∧ Memory.wf State.reset.bufs.ebuf := by decide
theorem test_buffer_keeps_order :
    ((Memory.write (Memory.write (Memory.write [] 7 0xAA) 2 0xBB) 7 0xCC) : Memory) = [(2, 0xBB), (7, 0xCC)] := by decide
/-- Row E11. -/
theorem test_byte_beyond_capacity :
    ((State.reset.writeByte .pbuf 255 0xAA).byteAt .pbuf 255, State.reset.writeByte .pbuf 255 0xAA) =
      (0x00, State.reset) := by decide

/-! ## The operations, from the rows of 95_test_vectors.md section 2 -/

/-- Row K3. -/
theorem test_lcs_two : after (exec .lcs (ab 0x02 0x00 State.reset)) (fun t => (outcome t, t.regs.r)) =
    some ((0x0A, 0x00), 0xFE) := by decide
/-- Row K1. -/
theorem test_lcs_zero : after (exec .lcs (ab 0x00 0x00 State.reset)) (fun t => t.regs.r) = some 0x00 := by decide
/-- Row K20. -/
theorem test_chkl_pair : after (exec .chkl (ab 0x02 0xFE State.reset)) outcome = some (0x0A, 0x00) := by decide
/-- Row K23. -/
theorem test_chkl_ack_pair : after (exec .chkl (ab 0x00 0xFF State.reset)) outcome = some (0x02, 0x00) := by decide
/-- Row K31. -/
theorem test_dcs_payload : after (exec .dcs (ldp [0xD4, 0x14, 0x01] State.reset)) (fun t => (outcome t, t.regs.r)) =
    some ((0x0A, 0x00), 0x17) := by decide
/-- Row K41. -/
theorem test_dcs_range : after (exec .dcs (counts 0x0100 0 0 State.reset)) (fun t => (outcome t, t.regs.r, t.regs.pos)) =
    some ((0x06, 0x02), 0x00, 0x0000) := by decide
/-- Row K53. -/
theorem test_chkd_transposed : after (exec .chkd (ab 0x00 0x16 (ldp [0x15, 0xD5] State.reset))) outcome =
    some (0x0A, 0x00) := by decide
/-- Row K52. -/
theorem test_chkd_changed : after (exec .chkd (ab 0x00 0x16 (ldp [0xD5, 0x14] State.reset))) outcome =
    some (0x02, 0x00) := by decide
/-- Row B1. -/
theorem test_build_frame :
    after (exec .build (ldp [0xD4, 0x14, 0x01] State.reset))
      (fun t => (outcome t, t.regs.fcnt, t.bytesAt .fbuf 0 10)) =
    some ((0x0A, 0x00), 10, [0x00, 0x00, 0xFF, 0x03, 0xFD, 0xD4, 0x14, 0x01, 0x17, 0x00]) := by decide
/-- Row B11. -/
theorem test_build_too_large :
    after (exec .build (counts 0x0100 5 0 State.reset)) (fun t => (outcome t, t.regs.fcnt, t.bufs.fbuf)) =
    some ((0x06, 0x04), 5, []) := by decide
/-- Row P1. -/
theorem test_parse_received :
    after (exec .parse (ldf [0x01, 0x00, 0x00, 0xFF, 0x02, 0xFE, 0xD5, 0x15, 0x16, 0x00] State.reset)) parsed =
    some ((0x0A, 0x00), 6, 2, 10) := by decide
/-- Row P2: the same without its last byte. -/
theorem test_parse_truncated :
    after (exec .parse (ldf [0x01, 0x00, 0x00, 0xFF, 0x02, 0xFE, 0xD5, 0x15, 0x16] State.reset)) parsed =
    some ((0x06, 0x05), 0, 0, 9) := by decide
/-- Row V10. -/
theorem test_verify_range :
    after (exec .verify (counts 0 0 264 State.reset)) (fun t => (outcome t, t.bus.requests, t.sleeper.asked)) =
    some ((0x06, 0x02), [], 0) := by decide
/-- 43_verify.md R146: count 0 asks for the delay at once. -/
theorem test_verify_empty :
    after (exec .verify State.reset) (fun t => (outcome t, t.cmp.phase, t.bus.requests, t.sleeper.asked)) =
    some ((0x01, 0x00), .settle, [], 1) := by decide
/-- 43_verify.md R141. -/
theorem test_vack_accept :
    after (exec .vack State.reset) (fun t => (outcome t, t.cmp.phase, t.bus.requests, t.cmp.vsrc)) =
    some ((0x01, 0x00), .rx, [7], .ackrom) := by decide
/-- Row V3, its first receive step: byte 00 differs from ACKROM[0] = 01. -/
theorem test_vack_mismatch :
    after (step (world [0x00, 0x00] [.transport] waiting)) (fun t => (t.cmp.mis, t.cmp.mispos, t.cmp.rxk, t.bus.pending)) =
    some (true, 0, 1, [0x00]) := by decide
/-- Row H25, with bit 7 of the status byte set as in row H4: bits 7:6 are ignored. -/
theorem test_ndef_found :
    after (exec .ndefhdr (ldf [0x00, 0x00, 0x00, 0x00, 0x00, 0x00, 0x00, 0x00, 0x00, 0x03, 0x00, 0x00, 0x00, 0x05, 0x54,
      0x82, 0x00, 0x00] State.reset)) header =
    some ((0x0A, 0x00), 9, 2, 2, 18, 9) := by decide
/-- Row H26. -/
theorem test_ndef_cut_off :
    after (exec .ndefhdr (ldf [0x00, 0x00, 0x00, 0x00, 0x00, 0x00, 0x00, 0x00, 0x00, 0x03, 0x00, 0x00, 0x00, 0x05, 0x54,
      0x00, 0x00] State.reset)) header =
    some ((0x06, 0x0B), 0, 0, 0, 0, 15) := by decide

/-! ## The host port, from section 2.6 and program 3 -/

/-- Row E4. -/
theorem test_illegal_command :
    after (step (hostNext (.write .reg 0x00 0x11) State.reset)) (fun t => (outcome t, t.regs.cmd, t.regs.r)) =
    some ((0x06, 0x01), 0x11, 0x00) := by decide
/-- A step runs the command of its word (row K3). -/
theorem test_fetch_word :
    after (step ((ab 0x02 0x00 State.reset).withFetchWord 8 0x01)) (fun t => (outcome t, t.regs.cmd, t.regs.r)) =
    some ((0x0A, 0x00), 0x01, 0xFE) := by decide
/-- Row E8. -/
theorem test_ctrl_reserved : after (step (hostNext (.write .reg 0x02 0xFF) State.reset)) (fun t => t.regs.ctrl) =
    some 0x03 := by decide
/-- Program 3, line 4: a command written while BUSY is dropped and sets OVR. -/
theorem test_overrun :
    after (step (hostNext (.write .reg 0x00 0x01) waiting)) (fun t => (outcome t, t.regs.cmd)) =
    some ((0x11, 0x00), 0x00) := by decide
/-- Program 3, line 3: a register written while BUSY keeps its value. -/
theorem test_busy_write_dropped :
    after (step (hostNext (.writeAt 0x004 0x55) waiting)) (fun t => (outcome t, t.regs.a)) =
    some ((0x01, 0x00), 0x00) := by decide
/-- 20_memory.md R41: the last EBUF byte at 0x506, and the unassigned address behind it. -/
theorem test_flat_edge :
    (flatMap Config.hardware 0x506, flatMap Config.hardware 0x507, flatMap Config.hardware 0x1FF) =
      (some (.buf .ebuf, 262), none, none) := by decide

/-! ## Witnesses: a concrete state for the hypotheses of each statement -/

/-- The host's turn with one action: what `hostDoes` asks for. -/
theorem hostNext_does (act : HostAction) (h : act ≠ .wait) (s : State) :
    (hostNext act s).hostDoes act (((hostNext act s).setTurns []).setHost { (hostNext act s).host with queue := [] }) :=
  ⟨h, [], [], rfl, rfl, rfl⟩

theorem hostNext_flag (act : HostAction) (s : State) (f : StatusFlag) : (hostNext act s).flag f = s.flag f := rfl

theorem test_witness_DecodeEncodeAgree :
    Instr.ndefhdr.wf Config.hardware = true ∧ decode Config.hardware 0x09 = .ok .ndefhdr ∧ plain.hasNdef = false := by
  decide

theorem test_witness_CommandCodesDecode : Config.hardware.hasNdef = true := by decide

theorem test_witness_StepRunsDecodedCommand :
    ∃ s s0 t t0 : State, s.hostDoes (.write .reg 0x00 0x09) s0 ∧ (HostAction.write .reg 0x00 0x09).wf = true ∧
      s.flag .busy = false ∧ decode s.cfg ((0x09 : Half).setWidth 8) = .ok .ndefhdr ∧
      t.hostDoes (.writeAt 0x000 0x01) t0 ∧ (HostAction.writeAt 0x000 0x01).wf = true ∧ t.flag .busy = false ∧
      decode t.cfg ((0x01 : Half).setWidth 8) = .ok .lcs :=
  ⟨_, _, _, _, hostNext_does _ (by decide) State.reset, by decide, by decide, by decide,
    hostNext_does _ (by decide) State.reset, by decide, by decide, by decide⟩

/-- The edges of the illegal bytes: 0x00, 0x0A, 0xFF, and 0x09 without the unit. -/
theorem test_witness_IllegalCommandCompletes :
    (∀ d : Half, d = 0x00 ∨ d = 0x0A ∨ d = 0xFF → (HostAction.write .reg 0x00 d).wf = true ∧
      ∃ s s0 : State, s.hostDoes (.write .reg 0x00 d) s0 ∧
      s.flag .busy = false ∧ ((d.setWidth 8).toNat = 0x00 ∨ 0x0A ≤ (d.setWidth 8).toNat)) ∧
    (HostAction.write .reg 0x00 0x09).wf = true ∧
    ∃ s s0 : State, s.hostDoes (.write .reg 0x00 0x09) s0 ∧ s.flag .busy = false ∧ s.cfg.hasNdef = false := by
  refine ⟨fun d hd => ⟨?_, _, _, hostNext_does _ (by simp) State.reset, (hostNext_flag ..).trans (by decide), ?_⟩,
    by decide, _, _, hostNext_does _ (by decide) { State.reset with cfg := plain }, by decide, by decide⟩
  all_goals rcases hd with rfl | rfl | rfl <;> decide

theorem test_witness_FetchWordRuns :
    State.reset.flag .busy = false ∧ decode State.reset.cfg (tableByte 8 0x09) = .ok .ndefhdr := by decide

theorem test_witness_WritesWhileBusyDropped :
    ∃ s s0 t t0 : State, s.hostDoes (.write .reg 0x00 0x01) s0 ∧ s.flag .busy = true ∧
      t.hostDoes (.write .reg 0x01 0x10) t0 ∧ t.flag .busy = true ∧ ¬ (Space.reg = .reg ∧ 0x01 = 0x00) :=
  ⟨_, _, _, _, hostNext_does _ (by decide) waiting, by decide, hostNext_does _ (by decide) waiting, by decide,
    by decide⟩

/-- Every register number of the table, with the unit and without it, and the last byte of a buffer while BUSY. -/
theorem test_witness_ReadsHaveNoSideEffects :
    (∀ i, i ≤ 0x10 → ∃ s s0 u u0 : State, s.hostDoes (.read .reg i) s0 ∧ s.cfg.hasNdef = true ∧
      u.hostDoes (.read .reg i) u0 ∧ u.cfg.hasNdef = false) ∧
    ∃ s s0 : State, s.hostDoes (.read (.buf .ebuf) 262) s0 ∧ s.flag .busy = true :=
  ⟨fun _ _ => ⟨_, _, _, _, hostNext_does _ (by simp) State.reset, rfl,
    hostNext_does _ (by simp) { State.reset with cfg := plain }, rfl⟩,
    ⟨_, _, hostNext_does _ (by decide) waiting, by decide⟩⟩

/-- The first unassigned register number and the first index beyond each buffer. -/
theorem test_witness_UnassignedAccessHasNoEffect :
    (∃ s s0 : State, s.hostDoes (.write .reg 0x11 0x55) s0) ∧ (∃ s s0 : State, s.hostDoes (.read .reg 0x11) s0) ∧
    (∃ s s0 : State, s.hostDoes (.write (.buf .pbuf) 255 0xAA) s0 ∧ capacity s.cfg .pbuf ≤ 255) ∧
    ∃ s s0 : State, s.hostDoes (.read (.buf .fbuf) 263) s0 ∧ capacity s.cfg .fbuf ≤ 263 :=
  ⟨⟨_, _, hostNext_does _ (by decide) State.reset⟩, ⟨_, _, hostNext_does _ (by decide) State.reset⟩,
    ⟨_, _, hostNext_does _ (by decide) State.reset, by decide⟩,
    ⟨_, _, hostNext_does _ (by decide) State.reset, by decide⟩⟩

theorem test_witness_BufferWriteThenRead :
    ∃ s s0 : State, s.hostDoes (.write (.buf .ebuf) 262 0xAA) s0 ∧ (HostAction.write (.buf .ebuf) 262 0xAA).wf = true ∧
      s.flag .busy = false ∧ 262 < capacity s.cfg .ebuf :=
  ⟨_, _, hostNext_does _ (by decide) State.reset, by decide, by decide, by decide⟩

/-- Every register number the statement speaks of, the read-only ones at the ends of their range among them, each with
the widest datum of a byte; the counts also with the widest of their own. -/
theorem test_witness_HostRegisterWrites (n : Nat) (d : Half)
    (_ : (n ∈ [0x02, 0x03, 0x04, 0x05, 0x06, 0x07, 0x08, 0x09, 0x0A, 0x10] ∧ d = 0x00FF) ∨
      (n ∈ [0x07, 0x08, 0x09] ∧ d = 0xFFFF)) :
    (HostAction.write .reg n d).wf = true ∧ ∃ s s0 : State, s.hostDoes (.write .reg n d) s0 ∧ s.flag .busy = false := by
  refine ⟨?_, _, _, hostNext_does _ (by simp) State.reset, (hostNext_flag ..).trans (by decide)⟩
  rename_i h
  rcases h with ⟨h, rfl⟩ | ⟨h, rfl⟩
  · revert n; decide
  · revert n; decide

theorem test_witness_StatusWriteClearsOverrunOnly :
    ∃ s s0 : State, s.hostDoes (.write .reg 0x01 0x10) s0 ∧ (HostAction.write .reg 0x01 0x10).wf = true ∧
      s.flag .busy = false ∧ s.flag .ovr = true :=
  ⟨_, _, hostNext_does _ (by decide) (State.reset.setRegs { State.reset.regs with status := 0x12 }), by decide, by decide,
    by decide⟩

theorem test_witness_FlatAddressMap :
    flatMap State.reset.cfg (0x306 : BitVec 12).toNat = some (.buf .fbuf, 262) ∧
      flatMap State.reset.cfg (0x307 : BitVec 12).toNat = none := by decide

theorem test_witness_WaitReadsUntilDone :
    (hostNext .wait State.reset).turns = [.host] ∧ (hostNext .wait State.reset).host.queue = [.wait] := by decide

theorem test_witness_DcsResult :
    (counts 256 0 0 State.reset).regs.pcnt.toNat > State.reset.cfg.pbSize ∧
      (counts 255 0 0 State.reset).regs.pcnt.toNat ≤ State.reset.cfg.pbSize := by decide

theorem test_witness_ChkdResult :
    (counts 256 0 0 State.reset).regs.pcnt.toNat > State.reset.cfg.pbSize ∧
      (counts 0 0 0 State.reset).regs.pcnt.toNat ≤ State.reset.cfg.pbSize := by decide

theorem test_witness_ChecksumFacts : State.reset.regs.pcnt.toNat ≤ State.reset.cfg.pbSize := by decide

theorem test_witness_BuildWritesFrame :
    State.reset.cfg.wf = true ∧ 1 ≤ (counts 255 0 0 State.reset).regs.pcnt.toNat ∧
      (counts 255 0 0 State.reset).regs.pcnt.toNat ≤ State.reset.cfg.maxLen ∧
      1 ≤ (counts 1 0 0 State.reset).regs.pcnt.toNat := by decide

theorem test_witness_BuildRefusesSizes :
    (counts 0 0 0 State.reset).regs.pcnt.toNat = 0 ∧ (counts 256 0 0 State.reset).regs.pcnt.toNat ≠ 0 ∧
      (counts 256 0 0 State.reset).regs.pcnt.toNat > State.reset.cfg.maxLen := by decide

theorem test_witness_BuildDependsOnPayloadOnly :
    ∃ s s' : State, s ≠ s' ∧ s.cfg = s'.cfg ∧ s.cfg.wf = true ∧ s.regs.pcnt = s'.regs.pcnt ∧ 1 ≤ s.regs.pcnt.toNat ∧
      s.regs.pcnt.toNat ≤ s.cfg.maxLen ∧ ∀ k, k < s.regs.pcnt.toNat → s.byteAt .pbuf k = s'.byteAt .pbuf k :=
  ⟨ldp [0xD5] State.reset, ctrl 0x00 (ldp [0xD5] State.reset), by decide, by decide, by decide, by decide, by decide,
    by decide, fun k _ => rfl⟩

theorem test_witness_ParseAfterBuildReturnsPayload :
    ∃ s : State, s.cfg.wf = true ∧ 1 ≤ s.regs.pcnt.toNat ∧ s.regs.pcnt.toNat ≤ s.cfg.maxLen ∧
      ctrlMark s.regs.ctrl = false :=
  ⟨ctrl 0x02 (ldp [0xD5, 0x15] State.reset), by decide, by decide, by decide, by decide⟩

/-- Row P1 as a state that holds a frame. -/
def framed : State := ldf [0x01, 0x00, 0x00, 0xFF, 0x02, 0xFE, 0xD5, 0x15, 0x16, 0x00] State.reset

theorem test_witness_holdsFrame : framed.holdsFrame := by
  refine ⟨by decide, by decide, .inr (by decide), ?_⟩
  decide

theorem test_witness_ParseAcceptsExactlyFrames : framed.holdsFrame ∧ ¬ (ctrl 0x02 framed).holdsFrame :=
  ⟨test_witness_holdsFrame, fun h => absurd h.2.2.2.1 (by decide)⟩

theorem test_witness_ParseSuccessOutputs : framed.cfg.wf = true ∧ framed.holdsFrame :=
  ⟨by decide, test_witness_holdsFrame⟩

/-- A PARSE that fails had no frame before it. -/
theorem noFrame_of_error {s : State} (h : after (exec .parse s) (fun t => t.flag .err) = some true) :
    ¬ s.holdsFrame := by
  intro hf
  rcases execParse_cases s with ⟨h1, _⟩ | ⟨_, x, h2, _⟩ | ⟨_, f, _, h3⟩
  · exact absurd hf.1 (by omega)
  · rw [(scanFrame_ok ..).mpr ⟨hf.2, rfl⟩] at h2
    cases h2
  · rw [show exec .parse s = execParse s from rfl, h3] at h
    simp [after, stateOf, State.flag] at h

/-- An instance of smaller MAXLEN, in which TOOLARGE can be met. -/
def small : Config := { Config.hardware with maxLen := 1 }

/-- One state for each error, and for TRUNC one whose frame ends in its head and one whose frame ends in its payload:
rows P35, P36, P2, P29, P26, P17, P27, P25, the first eight bytes of P1 where MAXLEN is 1 (42_frame_parse.md R126),
P28, P23. What PARSE reports is the row's. -/
def failures : List (State × (Byte × Half)) :=
  [(counts 0 264 0 State.reset, (0x02, 0)), (State.reset, (0x05, 0)),
   (ldf [0x01, 0x00, 0x00, 0xFF, 0x02, 0xFE, 0xD5, 0x15, 0x16] State.reset, (0x05, 9)),
   (ldf [0x01, 0x00, 0x00, 0xFF, 0xFF, 0x01, 0xD5, 0x15, 0x16, 0x00] State.reset, (0x05, 10)),
   (ldf [0x00, 0x00, 0x00, 0xFF, 0x02, 0xFD, 0xD5, 0x15, 0x16, 0x00] State.reset, (0x06, 0)),
   (ldf [0x01, 0x00, 0x00, 0x00, 0xFF, 0x02, 0xFE, 0xD5, 0x15, 0x16, 0x00] State.reset, (0x07, 3)),
   (ldf [0x01, 0x00, 0x00, 0xFF, 0x02, 0xFD, 0xD5, 0x15, 0x17, 0x00] State.reset, (0x08, 5)),
   (ldf [0x01, 0x00, 0x00, 0xFF, 0x00, 0x00, 0x00, 0x00] State.reset, (0x03, 4)),
   ({ counts 0 8 0 framed with cfg := small }, (0x04, 4)),
   (ldf [0x01, 0x00, 0x00, 0xFF, 0x02, 0xFE, 0xD5, 0x15, 0x17, 0x01] State.reset, (0x09, 8)),
   (ldf [0x01, 0x00, 0x00, 0xFF, 0x02, 0xFE, 0xD5, 0x15, 0x16, 0x01] State.reset, (0x0A, 9))]

theorem failures_reported : ∀ x ∈ failures,
    after (exec .parse x.1) (fun t => (t.flag .err, t.regs.ecode, t.regs.pos)) = some (true, x.2) := by decide

theorem test_witness_ParseFailureOutputs : ∀ x ∈ failures, x.1.cfg.wf = true ∧ ¬ x.1.holdsFrame := by
  refine fun x hx => ⟨?_, noFrame_of_error ?_⟩
  · revert x
    decide
  · revert x
    decide

theorem test_witness_ParseErrorIgnoresLaterBytes :
    ∃ s s' t : State, s.cfg.wf = true ∧ s'.cfg = s.cfg ∧ s'.regs.ctrl = s.regs.ctrl ∧ s'.regs.fcnt = s.regs.fcnt ∧
      exec .parse s = .next t ∧ t.flag .err = true ∧ s'.byteAt .fbuf 9 ≠ s.byteAt .fbuf 9 ∧
      ∀ i, i ≤ t.regs.pos.toNat + 1 → s'.byteAt .fbuf i = s.byteAt .fbuf i := by
  refine ⟨ctrl 0x02 framed, (ctrl 0x02 framed).writeByte .fbuf 9 0x55, parseFail .start 0 (ctrl 0x02 framed), by decide,
    by decide, by decide, by decide, rfl, by decide, by decide, ?_⟩
  decide

/-- PARSE of row P1 answers without an error, and POS is 10: the premises of the statements about an accepted
frame. -/
theorem test_witness_SingleByteErrorDetected_TrailingBytesIgnored : ∃ t : State, framed.cfg.wf = true ∧ exec .parse framed = .next t ∧
    t.flag .err = false ∧ 9 < t.regs.pos.toNat ∧ t.regs.pos.toNat ≤ 10 ∧ (0x01 : Byte) ≠ framed.byteAt .fbuf 9 :=
  ⟨_, by decide, rfl, by decide, by decide, by decide, by decide⟩

/-- A payload buffer that holds the accepted payload and its checksum in B. -/
theorem test_witness_AcceptedFrameMeetsChecks : ∃ t v : State, framed.cfg.wf = true ∧ exec .parse framed = .next t ∧
    t.flag .err = false ∧ v.cfg = t.cfg ∧ v.regs.pcnt.toNat = t.regs.paylen.toNat ∧
    (∀ k, k < t.regs.paylen.toNat → v.byteAt .pbuf k = t.byteAt .fbuf (t.regs.payoff.toNat + k)) ∧
    v.regs.b = t.byteAt .fbuf (t.regs.payoff.toNat + t.regs.paylen.toNat) :=
  ⟨_, ab 0x00 0x16 (ldp [0xD5, 0x15] State.reset), by decide, rfl, by decide, by decide, by decide, by decide, by decide⟩

/-- Row P9. -/
theorem test_witness_AckIsNoFrame : ∃ s : State, ctrlMark s.regs.ctrl = true ∧ 7 ≤ s.regs.fcnt.toNat ∧
    s.regs.fcnt.toNat ≤ s.cfg.fbSize ∧
    ∀ k, k < 7 → s.byteAt .fbuf k = ([0x01, 0x00, 0x00, 0xFF, 0x00, 0xFF, 0x00] : List Byte).getD k 0 :=
  ⟨ldf [0x01, 0x00, 0x00, 0xFF, 0x00, 0xFF, 0x00] State.reset, by decide, by decide, by decide, by decide⟩

theorem test_witness_VerifyAccepts :
    (counts 0 0 263 State.reset).regs.ecnt.toNat ≤ State.reset.cfg.ebSize ∧
      (counts 0 0 263 State.reset).regs.ecnt.toNat > 0 ∧ State.reset.regs.ecnt.toNat = 0 := by decide

theorem test_witness_VerifyRefusesRange :
    (counts 0 0 264 State.reset).regs.ecnt.toNat > State.reset.cfg.ebSize := by decide

/-- A receive step in the middle of a comparison and one at its end, with a mismatch before, now, and not at all. -/
theorem test_witness_ReceiveStep :
    ∃ s u : State, s.turns = [.transport] ∧ s.cmp.phase = .rx ∧ s.bus.pending = [0x00] ∧ s.cmp.mis = false ∧
      0x00 ≠ s.expected s.cmp.rxk ∧ s.cmp.rxk + 1 ≠ s.cmp.rxn ∧ u.turns = [.transport] ∧ u.cmp.phase = .rx ∧
      u.bus.pending = [0x00] ∧ u.cmp.mis = true ∧ u.cmp.rxk + 1 = u.cmp.rxn :=
  ⟨world [0x00] [.transport] waiting,
    (world [0x00] [.transport] waiting).setCmp { waiting.cmp with rxk := 6, mis := true, mispos := 2 },
    by decide⟩

theorem test_witness_SettleEndStep :
    ∃ s : State, s.turns = [.sleeper] ∧ s.cmp.phase = .settle ∧ s.cmp.mis = true :=
  ⟨(world [] [.sleeper] waiting).setCmp { waiting.cmp with phase := .settle, rxk := 7, mis := true, mispos := 4 },
    by decide⟩

/-- Row V12 (a mismatch), and count 0 (row V9). -/
theorem test_witness_VerifyRun :
    (∃ (s : State) (bs rest : List Byte) (ts : List Agent), bs = [0xAB] ∧ s.regs.ecnt.toNat ≤ s.cfg.ebSize ∧
      bs.length = s.regs.ecnt.toNat ∧ s.bus.pending = bs ++ rest ∧
      s.turns = List.replicate bs.length .transport ++ .sleeper :: ts) ∧
    ∃ (s : State) (bs rest : List Byte) (ts : List Agent), bs = [] ∧ s.regs.ecnt.toNat ≤ s.cfg.ebSize ∧
      bs.length = s.regs.ecnt.toNat ∧ s.bus.pending = bs ++ rest ∧
      s.turns = List.replicate bs.length .transport ++ .sleeper :: ts :=
  ⟨⟨world [0xAB, 0x11] [.transport, .sleeper] (lde [0xAA] State.reset), [0xAB], [0x11], [], by decide⟩,
    ⟨world [] [.sleeper] State.reset, [], [], [], by decide⟩⟩

/-- Row V1. -/
theorem test_witness_VackRun :
    ∃ (s : State) (bs rest : List Byte) (ts : List Agent), bs.length = 7 ∧ s.bus.pending = bs ++ rest ∧
      s.turns = List.replicate 7 .transport ++ .sleeper :: ts :=
  ⟨world [0x01, 0x00, 0x00, 0xFF, 0x00, 0xFF, 0x00] (List.replicate 7 .transport ++ [.sleeper]) State.reset,
    [0x01, 0x00, 0x00, 0xFF, 0x00, 0xFF, 0x00], [], [], by decide⟩

theorem test_witness_HostCannotDisturbComparison :
    ∃ s t : State, s.turns = [.host] ∧ s.flag .busy = true ∧ step s = .next t :=
  ⟨hostNext (.write (.buf .ebuf) 0 0x55) waiting, _, by decide, by decide, rfl⟩

/-- Rows V13 and V14. -/
theorem test_witness_SilentCollaboratorHangs :
    ∃ s u : State, s.flag .busy = true ∧ .resetPin ∉ s.turns ∧ s.cmp.phase = .rx ∧ s.bus.pending = [] ∧
      u.flag .busy = true ∧ .resetPin ∉ u.turns ∧ u.cmp.phase = .settle ∧ .sleeper ∉ u.turns :=
  ⟨world [] [.transport, .sleeper, .host] waiting,
    (world [] [.transport, .host] waiting).setCmp { waiting.cmp with phase := .settle }, by decide⟩

/-- Row H25: a header at 9 in a region that ends at 16. -/
def tagged : State :=
  ldf [0x00, 0x00, 0x00, 0x00, 0x00, 0x00, 0x00, 0x00, 0x00, 0x03, 0x00, 0x00, 0x00, 0x05, 0x54, 0x02, 0x00, 0x00]
    State.reset

theorem tagged_firstHeader : tagged.firstHeader 9 := by
  refine ⟨⟨by decide, by decide, by decide, by decide⟩, fun j hj h => ?_⟩
  have h9 : (9 : Nat) ≤ j := h.1
  omega

theorem test_witness_NdefHeaderFound :
    tagged.cfg.wf = true ∧ tagged.cfg.hasNdef = true ∧ tagged.regs.fcnt.toNat ≤ tagged.cfg.fbSize ∧
      tagged.firstHeader 9 ∧ 9 + 6 < regionEnd tagged.cfg tagged.regs.fcnt.toNat ∧
      (tagged.byteAt .fbuf (9 + 6)).toNat % 64 + 1 ≤ (tagged.byteAt .fbuf (9 + 4)).toNat :=
  ⟨by decide, by decide, by decide, tagged_firstHeader, by decide, by decide⟩

/-- Row H20: nothing in FBUF. The region's end on both sides of its edge: the counts 10, 11 and 12 for skips 9 and
2. -/
theorem test_witness_NdefHeaderNotFound :
    State.reset.cfg.wf = true ∧ State.reset.cfg.hasNdef = true ∧ State.reset.regs.fcnt.toNat ≤ State.reset.cfg.fbSize ∧
      (∀ i, ¬ State.reset.headerAt i) ∧
      (regionEnd Config.hardware 10, regionEnd Config.hardware 11, regionEnd Config.hardware 12) = (9, 9, 10) := by
  refine ⟨by decide, by decide, by decide, fun i h => ?_, by decide⟩
  have h1 : (9 : Nat) ≤ i := h.1
  have h2 : i + 5 < 9 := h.2.1
  omega

/-- Row H27, row H25 with one byte less (the status byte beyond the region), and row H25 with a status byte that asks
for more than the payload length. -/
theorem test_witness_NdefHeaderErrors :
    (counts 0 264 0 State.reset).regs.fcnt.toNat > State.reset.cfg.fbSize ∧
    ((counts 0 17 0 tagged).firstHeader 9 ∧ regionEnd tagged.cfg (counts 0 17 0 tagged).regs.fcnt.toNat ≤ 9 + 6) ∧
    ((tagged.writeByte .fbuf 15 0x3F).firstHeader 9 ∧
      9 + 6 < regionEnd tagged.cfg (tagged.writeByte .fbuf 15 0x3F).regs.fcnt.toNat ∧
      ((tagged.writeByte .fbuf 15 0x3F).byteAt .fbuf (9 + 4)).toNat <
        ((tagged.writeByte .fbuf 15 0x3F).byteAt .fbuf (9 + 6)).toNat % 64 + 1) := by
  refine ⟨by decide, ⟨⟨⟨by decide, by decide, by decide, by decide⟩, fun j hj h => ?_⟩, by decide⟩,
    ⟨⟨by decide, by decide, by decide, by decide⟩, fun j hj h => ?_⟩, by decide, by decide⟩
  all_goals
    have h9 : (9 : Nat) ≤ j := h.1
    omega

/-- Row H28: another marker and another checksum byte. -/
theorem test_witness_NdefDependsOnRegionOnly :
    ∃ s s' t : State, s' ≠ s ∧ s'.cfg = s.cfg ∧ s.cfg.hasNdef = true ∧ s'.regs.fcnt = s.regs.fcnt ∧
      (∀ i, s.cfg.ndefHdrSkip ≤ i → i < regionEnd s.cfg s.regs.fcnt.toNat → s'.byteAt .fbuf i = s.byteAt .fbuf i) ∧
      exec .ndefhdr s = .next t := by
  refine ⟨tagged, tagged.writeByte .fbuf 0 0x01, _, by decide, by decide, by decide, by decide, fun i h _ => ?_, rfl⟩
  have h9 : (9 : Nat) ≤ i := h
  rw [State.byteAt_writeByte, if_neg (by omega)]

theorem test_witness_NdefUnitAbsent : ({ State.reset with cfg := plain } : State).cfg.hasNdef = false := by decide

theorem test_witness_OperationsKeepHostRegisters : ∃ t : State, exec .build framed = .next t := ⟨_, rfl⟩

theorem test_witness_OtherOperationsCompleteAtOnce : Instr.build ≠ .verify ∧ Instr.build ≠ .vack := by decide

theorem test_witness_ResetInputEffect : (world [0x01] [.resetPin] waiting).turns = [.resetPin] := by decide

theorem test_witness_StartHasInvariant : plain.wf = true ∧ Config.hardware.wf = true := by decide

/-- The invariant holds of a busy state too, and it steps. -/
theorem test_witness_StepKeepsInvariant : (world [0x01] [.transport] waiting).Inv ∧
    ∃ t, step (world [0x01] [.transport] waiting) = .next t := by
  refine ⟨?_, _, rfl⟩
  constructor
  case bufs_wf => intro b; cases b <;> decide
  all_goals decide

theorem test_witness_OverrunIsSticky :
    ∃ s t : State, step s = .next t ∧ s.flag .ovr = true ∧ t.flag .ovr = false :=
  ⟨hostNext (.write .reg 0x01 0x10) (State.reset.setRegs { State.reset.regs with status := 0x12 }), _, rfl, by decide,
    by decide⟩

theorem test_witness_StreamIsTakenInOrder :
    ∃ t : State, step (world [0x01, 0x02] [.transport] waiting) = .next t ∧ t.bus.pending = [0x02] ∧ t.bus.taken = 1 :=
  ⟨_, rfl, by decide, by decide⟩

/-- A start (row V1) and an end (row V9). -/
theorem test_witness_ComparisonStartsAndEnds :
    (∃ s t : State, step s = .next t ∧ s.flag .busy = false ∧ t.flag .busy = true) ∧
    ∃ s t : State, step s = .next t ∧ s.flag .busy = true ∧ t.flag .busy = false :=
  ⟨⟨hostNext (.write .reg 0x00 0x08) State.reset, _, rfl, by decide, by decide⟩,
    ⟨(world [] [.sleeper] waiting).setCmp { waiting.cmp with phase := .settle, rxk := 7 }, _, rfl, by decide, by decide⟩⟩

end Sys2Proof.Tests
end

section
/-! PROOFS. The error completion without an index, and an instance without the NDEF unit. -/

namespace Sys2Proof.Machine

/-! ## `raise`, in the words of the statements (60_exceptions.md R182, 10_state.md R31) -/

theorem raise_failedWith (e : ErrCode) (s : State) : failedWith e (raise e s) := by
  simp [failedWith, State.flag]

theorem raise_onlyS (e : ErrCode) (s : State) : onlyS s.regs s (raise e s) :=
  ⟨raise_spec s e, statusError_high s.regs.status⟩

theorem raise_sameBytes (e : ErrCode) (s : State) : sameBytes s (raise e s) :=
  fun _ _ => raise_byteAt ..

/-! ## What HAS_NDEF selects (00_scope.md R6) -/

theorem decode_ndefCode (cfg : Config) :
    decode cfg 0x09 = if cfg.hasNdef then .ok .ndefhdr else .error .ndefAbsent := rfl

theorem exec_ndefhdr (s : State) :
    exec .ndefhdr s = if s.cfg.hasNdef then .next (ndefHeader s) else .next (raise .illop s) := rfl

theorem ndefGate_absent {cfg : Config} (h : cfg.hasNdef = false) (v : Half) : ndefGate cfg v = 0 := by
  simp [ndefGate, h]

theorem State.portValue_ndef (s : State) :
    s.portValue .reg 0x0D = ndefGate s.cfg s.regs.hidx ∧
    s.portValue .reg 0x0E = ndefGate s.cfg (s.regs.langlen.setWidth 16) ∧
    s.portValue .reg 0x0F = ndefGate s.cfg (s.regs.textlen.setWidth 16) ∧
    s.portValue .reg 0x10 = ndefGate s.cfg s.regs.textoff := ⟨rfl, rfl, rfl, rfl⟩

/-- Settles O47: with HAS_NDEF = 0 the decoder and `exec` take the branch of an illegal command, and the gate before
the four registers gives 0. -/
theorem ndefUnitAbsent : Obligations.NdefUnitAbsent := by
  unfold Obligations.NdefUnitAbsent
  intro s habsent
  obtain ⟨hhidx, hlanglen, htextlen, htextoff⟩ := s.portValue_ndef
  refine ⟨?decoded, ⟨raise .illop s, ?ran, raise_failedWith .illop s, raise_onlyS .illop s, raise_sameBytes .illop s⟩,
    ?registers⟩
  case decoded => rw [decode_ndefCode, habsent]; rfl
  case ran => rw [exec_ndefhdr, habsent]; rfl
  case registers => simp only [hhidx, hlanglen, htextlen, htextoff, ndefGate_absent habsent, and_self]

end Sys2Proof.Machine
end

section
/-! PROOFS. What an operation can answer, each said once: the clauses of the invariant that no flag and no phase
enters, the states an operation computes before it completes, and the three ways its accepting step ends. -/

namespace Sys2Proof.Machine

/-! ## The clauses of the invariant that hold whatever BUSY and PHASE are -/

/-- The clauses of `State.Inv` that speak neither of the flags nor of the comparison. They hold between the accept of a
command and its completion too, where BUSY is 1 and PHASE is still IDLE and the invariant itself does not hold. -/
structure State.Static (s : State) : Prop where
  cfg_wf : s.cfg.wf = true
  status_reserved : s.regs.status &&& 0xE0#8 = 0#8
  ctrl_reserved : s.regs.ctrl &&& 0xFC#8 = 0#8
  bufs_wf : ∀ b : Buffer, Memory.wf (s.bufs.get b) ∧ Memory.below (s.bufs.get b) (capacity s.cfg b)
  payload_report : (s.regs.payoff = 0 ∧ s.regs.paylen = 0) ∨
    ((s.regs.payoff = 5 ∨ s.regs.payoff = 6) ∧ 1 ≤ s.regs.paylen.toNat ∧ s.regs.paylen.toNat ≤ s.cfg.maxLen)
  header_report : (s.regs.hidx = 0 ∧ s.regs.langlen = 0 ∧ s.regs.textlen = 0 ∧ s.regs.textoff = 0) ∨
    (s.regs.langlen.toNat ≤ 63 ∧ s.regs.langlen.toNat + 1 + s.regs.textlen.toNat ≤ 255 ∧
      s.regs.textoff.toNat = s.regs.hidx.toNat + 7 + s.regs.langlen.toNat)
  ndef_absent : s.cfg.hasNdef = false →
    s.regs.hidx = 0 ∧ s.regs.langlen = 0 ∧ s.regs.textlen = 0 ∧ s.regs.textoff = 0

theorem State.Inv.static {s : State} (h : s.Inv) : s.Static := { h with }

theorem State.Static.accept {s : State} (h : s.Static) (c : Byte) : (accept c s).Static :=
  { h with status_reserved := (statusAccept_reserved _).trans h.status_reserved }

/-- A byte write changes the buffers alone. -/
theorem State.writeByte_eq_setBufs (s : State) (b : Buffer) (i : Nat) (v : Byte) :
    s.writeByte b i v = s.setBufs (s.writeByte b i v).bufs := by
  unfold State.writeByte
  split <;> rfl

/-- A run of writes changes the buffers alone. -/
theorem State.writeBytes_eq_setBufs (b : Buffer) (vs : List Byte) : ∀ (s : State) (i : Nat),
    s.writeBytes b i vs = s.setBufs (s.writeBytes b i vs).bufs := by
  induction vs with
  | nil => exact fun s _ => (State.setBufs_self s).symm
  | cons v rest ih =>
    intro s i
    calc (s.writeByte b i v).writeBytes b (i + 1) rest
        = (s.writeByte b i v).setBufs ((s.writeByte b i v).writeBytes b (i + 1) rest).bufs := ih ..
      _ = s.setBufs ((s.writeByte b i v).writeBytes b (i + 1) rest).bufs := by
          rw [State.writeByte_eq_setBufs s, State.setBufs_setBufs]

theorem State.Static.writeBytes {s : State} (h : s.Static) (b : Buffer) (i : Nat) (vs : List Byte) :
    (s.writeBytes b i vs).Static := by
  have hbufs := State.writeBytes_bufs_wf b vs s i h.bufs_wf
  rw [State.writeBytes_eq_setBufs]
  exact { h with bufs_wf := hbufs }

/-! ## What an operation computes before it completes (10_state.md R31) -/

/-- The registers that the host alone writes are the same in `u` and `s`. -/
def sameHostRegs (s u : State) : Prop :=
  u.regs.cmd = s.regs.cmd ∧ u.regs.ctrl = s.regs.ctrl ∧ u.regs.a = s.regs.a ∧ u.regs.b = s.regs.b ∧
    u.regs.pcnt = s.regs.pcnt ∧ u.regs.ecnt = s.regs.ecnt

/-- `u` is `s` with an operation's results written: the host's registers, STATUS and every buffer but FBUF are the same,
and the clauses above hold of `u` when they hold of `s`. -/
structure ResultsOf (s u : State) : Prop where
  cfg : u.cfg = s.cfg
  epoch : u.epoch = s.epoch
  hostRegs : sameHostRegs s u
  status : u.regs.status = s.regs.status
  bufs : ∀ b : Buffer, b ≠ .fbuf → u.bufs.get b = s.bufs.get b
  static : s.Static → u.Static

theorem ResultsOf.refl (s : State) : ResultsOf s s :=
  ⟨rfl, rfl, ⟨rfl, rfl, rfl, rfl, rfl, rfl⟩, rfl, fun _ _ => rfl, id⟩

theorem ResultsOf.setR (s : State) (v : Byte) : ResultsOf s (setR v s) :=
  ⟨rfl, rfl, ⟨rfl, rfl, rfl, rfl, rfl, rfl⟩, rfl, fun _ _ => rfl, fun h => { h with }⟩

/-- BUILD's results. -/
theorem ResultsOf.built (s : State) (n : Nat) (vs : List Byte) :
    ResultsOf s (setFcnt n (s.writeBytes .fbuf 0 vs)) where
  cfg := by simp
  epoch := by simp
  hostRegs := by simp [sameHostRegs]
  status := by simp
  bufs b hb := State.writeBytes_get_other .fbuf b hb vs s 0
  static h := { h.writeBytes .fbuf 0 vs with }

/-- PARSE's results after an error. -/
theorem ResultsOf.noPayload (s : State) (p : Nat) : ResultsOf s (setPos p (setPay 0 0 s)) :=
  ⟨rfl, rfl, ⟨rfl, rfl, rfl, rfl, rfl, rfl⟩, rfl, fun _ _ => rfl, fun h =>
    { h with payload_report := .inl ⟨rfl, rfl⟩ }⟩

/-- PARSE's results for a frame (42_frame_parse.md R121). -/
theorem ResultsOf.payload {s : State} {f : ScanFrame}
    (hf : scanFrame (s.byteAt .fbuf) s.regs.fcnt.toNat s.cfg.maxLen (ctrlMark s.regs.ctrl) (ctrlPost s.regs.ctrl) =
      .ok f) : ResultsOf s (setPos f.stop (setPay f.off f.len s)) := by
  obtain ⟨⟨-, -, -, -, -, -, hpos, hmax, -⟩, rfl⟩ := (scanFrame_ok ..).mp hf
  refine ⟨rfl, rfl, ⟨rfl, rfl, rfl, rfl, rfl, rfl⟩, rfl, fun _ _ => rfl, fun h =>
    { h with payload_report := .inr ⟨?offset, ?length⟩ }⟩
  case offset => cases ctrlMark s.regs.ctrl; exacts [.inl rfl, .inr rfl]
  case length => simpa using ⟨hpos, hmax⟩

/-- NDEFHDR's results when there is no header to report. -/
theorem ResultsOf.noHeader (s : State) (p : Nat) : ResultsOf s (setPos p (setNdef 0 0 0 0 s)) :=
  ⟨rfl, rfl, ⟨rfl, rfl, rfl, rfl, rfl, rfl⟩, rfl, fun _ _ => rfl, fun h =>
    { h with header_report := .inl ⟨rfl, rfl, rfl, rfl⟩, ndef_absent := fun _ => ⟨rfl, rfl, rfl, rfl⟩ }⟩

/-- A header pattern stands inside FBUF: in an empty region there is none (44_ndef_header.md R161). -/
theorem State.headerAt_lt_fbSize {s : State} {i : Nat} (hn : s.regs.fcnt.toNat ≤ s.cfg.fbSize) (h : s.headerAt i) :
    i + 5 < s.cfg.fbSize := by
  obtain ⟨hlo, hhi, -⟩ := h
  unfold regionEnd at hhi
  split at hhi <;> omega

/-- NDEFHDR's results for a header (44_ndef_header.md R163): no number is cut by the width of its register. -/
theorem ResultsOf.header {s : State} {i ll pl : Nat} (hndef : s.cfg.hasNdef = true)
    (hn : s.regs.fcnt.toNat ≤ s.cfg.fbSize) (hi : s.headerAt i) (hll : ll ≤ 63) (hlp : ll + 1 ≤ pl) (hpl : pl ≤ 255) :
    ResultsOf s (setPos i (setNdef i ll (pl - ll - 1) (i + 7 + ll) s)) := by
  refine ⟨rfl, rfl, ⟨rfl, rfl, rfl, rfl, rfl, rfl⟩, rfl, fun _ _ => rfl, fun h =>
    { h with header_report := .inr ?agree, ndef_absent := fun hno => absurd (hndef.symm.trans hno) (by decide) }⟩
  obtain ⟨-, hmax, -⟩ := (Config.wf_iff _).mp h.cfg_wf
  have hlt := State.headerAt_lt_fbSize hn hi
  simp only [Config.fbSize] at hlt
  simp only [setPos_regs, setNdef_regs, BitVec.toNat_ofNat]
  omega

/-! ## How the accepting step of an operation ends -/

/-- The states an operation run from `s` can answer: a completion or an error completion over its results, or, where
`compares` holds, a comparison started. -/
inductive Answers (compares : Prop) (s : State) : State → Prop where
  | completes (r : Bool) (u : State) : ResultsOf s u → Answers compares s (complete r u)
  | fails (e : ErrCode) (u : State) : ResultsOf s u → Answers compares s (raise e u)
  | starts (n : Nat) (src : VSrc) : compares → n ≤ s.cfg.ebSize → (src = .ackrom → n = 7) →
      Answers compares s (startCompare n src s)

theorem Answers.imp {p q : Prop} {s t : State} (hpq : p → q) (h : Answers p s t) : Answers q s t := by
  cases h with
  | completes r u hu => exact .completes r u hu
  | fails e u hu => exact .fails e u hu
  | starts n src hp hn hsrc => exact .starts n src (hpq hp) hn hsrc

theorem ndefHeader_answers {s : State} (p : Prop) (hndef : s.cfg.hasNdef = true) : Answers p s (ndefHeader s) := by
  rcases ndefHeader_cases s with ⟨e, q, h⟩ | h | ⟨i, hn, hi, hlp, h⟩ <;> rw [h]
  · exact .fails e _ (.noHeader s q)
  · exact .completes _ _ (.noHeader s _)
  · exact .completes _ _ (.header hndef hn hi.1 (langLen_le _) hlp (Nat.le_of_lt_succ (s.byteAt .fbuf (i + 4)).isLt))

/-- What an operation can answer; only VERIFY and VACK start a comparison. -/
theorem exec_answers {i : Instr} {s t : State} (h : exec i s = .next t) :
    Answers (i = .verify ∨ i = .vack) s t := by
  cases i with
  | lcs => cases h; exact .completes _ _ (.setR s _)
  | chkl => cases h; exact .completes _ _ (.refl s)
  | dcs =>
    simp only [exec, execDcs] at h
    split at h <;> cases h
    · exact .fails _ _ (.refl s)
    · exact .completes _ _ (.setR s _)
  | chkd =>
    simp only [exec, execChkd] at h
    split at h <;> cases h
    · exact .fails _ _ (.refl s)
    · exact .completes _ _ (.refl s)
  | build =>
    rcases execBuild_cases s with ⟨-, hs⟩ | ⟨-, -, hs⟩ | ⟨-, -, hs⟩ <;> cases hs.symm.trans h
    · exact .fails _ _ (.refl s)
    · exact .fails _ _ (.refl s)
    · exact .completes _ _ (.built s _ _)
  | parse =>
    rcases execParse_cases s with ⟨-, hs⟩ | ⟨-, x, -, hs⟩ | ⟨-, f, hf, hs⟩ <;> cases hs.symm.trans h
    · exact .fails _ _ (.noPayload s _)
    · exact .fails _ _ (.noPayload s _)
    · exact .completes _ _ (.payload hf)
  | verify =>
    simp only [exec, execVerify] at h
    split at h <;> cases h
    · exact .fails _ _ (.refl s)
    · exact .starts _ _ (.inl rfl) (by omega) (by simp)
  | vack =>
    cases h
    exact .starts _ _ (.inr rfl) (by simp [ackRom, Config.ebSize, Config.fbSize]) (by simp [ackRom])
  | ndefhdr =>
    rw [exec_ndefhdr] at h
    split at h <;> cases h
    · exact ndefHeader_answers _ ‹_›
    · exact .fails _ _ (.refl s)

/-- The registers no operation writes (10_state.md R31). -/
theorem Answers.hostRegs {p : Prop} {s t : State} (h : Answers p s t) : sameHostRegs s t := by
  cases h with
  | completes r u hu => exact hu.hostRegs
  | fails e u hu => exact hu.hostRegs
  | starts n src => rw [startCompare_spec]; exact ⟨rfl, rfl, rfl, rfl, rfl, rfl⟩

/-- OVR is in no operation's write set (10_state.md R31). -/
theorem Answers.ovr {p : Prop} {s t : State} (h : Answers p s t) : t.flag .ovr = s.flag .ovr := by
  cases h with
  | completes r u hu => simp [State.flag, hu.status]
  | fails e u hu => simp [State.flag, hu.status]
  | starts n src => simp [State.flag, startCompare_spec]

/-- FBUF is the one buffer an operation writes (10_state.md R31). -/
theorem Answers.byteAt {p : Prop} {s t : State} (h : Answers p s t) {b : Buffer} (hb : b ≠ .fbuf) (k : Nat) :
    t.byteAt b k = s.byteAt b k := by
  cases h with
  | completes r u hu => exact State.byteAt_congr hu.cfg hu.epoch (hu.bufs b hb) k
  | fails e u hu => exact State.byteAt_congr hu.cfg hu.epoch (hu.bufs b hb) k
  | starts n src => rw [startCompare_spec]; rfl

/-- Only a started comparison leaves BUSY at 1. -/
theorem Answers.compares_of_busy {p : Prop} {s t : State} (h : Answers p s t) (hb : t.flag .busy = true) : p := by
  cases h with
  | completes r u => simp [State.flag] at hb
  | fails e u => simp [State.flag] at hb
  | starts n src hp => exact hp

/-- Settles O48: each of the three ends of an operation keeps them. -/
theorem operationsKeepHostRegisters : Obligations.OperationsKeepHostRegisters := by
  unfold Obligations.OperationsKeepHostRegisters
  intro i s t h
  have ha := exec_answers h
  obtain ⟨hcmd, hctrl, hopA, hopB, hpcnt, hecnt⟩ := ha.hostRegs
  exact ⟨hcmd, hctrl, hopA, hopB, hpcnt, hecnt, ha.ovr,
    fun k => ⟨ha.byteAt (by decide) k, ha.byteAt (by decide) k⟩⟩

end Sys2Proof.Machine
end

section
/-! PROOFS. What a step can do, said once: the effect of a host action, and the effect of the turn of each agent. -/

namespace Sys2Proof.Machine

/-! ## A host action -/

/-- The action writes d to the register with number n, by number or by flat address (20_memory.md R41). -/
def writesReg (act : HostAction) (n : Nat) (d : Half) : Prop :=
  act = .write .reg n d ∨ act = .writeAt (BitVec.ofNat 12 n) d

/-- What a host action can do to `s`: nothing outside the host's port, an overrun, a write to a buffer byte, to CTRL, to
one of the other registers the host writes, to STATUS, or a command. -/
inductive HostEffect (act : HostAction) (s : State) : State → Prop where
  | port (p : HostPort) : HostEffect act s (s.setHost p)
  | overrun : s.flag .busy = true → HostEffect act s (setOverrun s)
  | byte (b : Buffer) (i : Nat) (v : Byte) : HostEffect act s (s.writeByte b i v)
  | control (v : Byte) : HostEffect act s (s.setRegs { s.regs with ctrl := ctrlHostWrite v })
  | operand (a b : Byte) (pcnt fcnt ecnt : Half) :
      HostEffect act s (s.setRegs { s.regs with a := a, b := b, pcnt := pcnt, fcnt := fcnt, ecnt := ecnt })
  | status (d : Half) : s.flag .busy = false → writesReg act 0x01 d →
      HostEffect act s (s.setRegs { s.regs with status := statusHostWrite (d.setWidth 8) s.regs.status })
  | command (d : Half) (t : State) : s.flag .busy = false → writesReg act 0x00 d →
      Answers (d.setWidth 8 = 0x07#8 ∨ d.setWidth 8 = 0x08#8) (accept (d.setWidth 8) s) t → HostEffect act s t

/-- A byte with bits 7:4 zero is its operation code (30_encoding.md R70). -/
theorem toNat_eq_cmdOp {c : Byte} (h : cmdHigh c = 0) : c.toNat = (cmdOp c).toNat := by
  have hhigh : c.toNat >>> 4 % 16 = 0 := by simpa [cmdHigh] using congrArg BitVec.toNat h
  have hop : (cmdOp c).toNat = c.toNat % 16 := by simp [cmdOp]
  omega

/-- The decoder inverts the table of codes (30_encoding.md R71). -/
theorem encode_of_decode {cfg : Config} {c : Byte} {i : Instr} (h : decode cfg c = .ok i) : encode i = c := by
  unfold decode at h
  split at h
  · cases h
  · rename_i hhigh
    refine BitVec.eq_of_toNat_eq (Eq.trans ?_ (toNat_eq_cmdOp (not_not.mp hhigh)).symm)
    split at h
    case h_10 hop =>
      split at h <;> cases h
      exact hop.symm
    all_goals cases h <;> exact Eq.symm ‹(cmdOp c).toNat = _›

theorem compareCode_of_decode {cfg : Config} {c : Byte} {i : Instr} (h : decode cfg c = .ok i)
    (hi : i = .verify ∨ i = .vack) : c = 0x07#8 ∨ c = 0x08#8 := by
  rcases hi with rfl | rfl
  · exact .inl (encode_of_decode h).symm
  · exact .inr (encode_of_decode h).symm

/-- What the accept of a command byte leads to, legal or not (60_exceptions.md R180, R185). -/
theorem issueCommand_answers {c : Byte} {s t : State} (h : issueCommand c s = .next t) :
    Answers (c = 0x07#8 ∨ c = 0x08#8) (accept c s) t := by
  unfold issueCommand at h
  split at h
  · rename_i i hi
    exact (exec_answers h).imp (compareCode_of_decode hi)
  · cases h
    exact .fails _ _ (.refl _)

theorem eq_zero_of_regOfNum_cmd {i : Nat} (h : regOfNum i = some .cmd) : i = 0x00 := by
  unfold regOfNum at h
  split at h <;> cases h
  rfl

theorem eq_one_of_regOfNum_status {i : Nat} (h : regOfNum i = some .status) : i = 0x01 := by
  unfold regOfNum at h
  split at h <;> cases h
  rfl

/-- A register write while BUSY is 0, by the register. -/
theorem writeReg_effect {act : HostAction} {n : RegName} {i : Nat} {d : Half} {s t : State}
    (hb : s.flag .busy = false) (hn : regOfNum i = some n) (hact : writesReg act i d)
    (h : writeReg n d s = .next t) : HostEffect act s t := by
  cases n with
  | cmd =>
    cases eq_zero_of_regOfNum_cmd hn
    exact .command d t hb hact (issueCommand_answers h)
  | status =>
    cases eq_one_of_regOfNum_status hn
    cases h
    exact .status d hb hact
  | ctrl => cases h; exact .control _
  | a => cases h; exact .operand _ s.regs.b s.regs.pcnt s.regs.fcnt s.regs.ecnt
  | b => cases h; exact .operand s.regs.a _ s.regs.pcnt s.regs.fcnt s.regs.ecnt
  | pcnt => cases h; exact .operand s.regs.a s.regs.b d s.regs.fcnt s.regs.ecnt
  | fcnt => cases h; exact .operand s.regs.a s.regs.b s.regs.pcnt d s.regs.ecnt
  | ecnt => cases h; exact .operand s.regs.a s.regs.b s.regs.pcnt s.regs.fcnt d
  | ecode | r | pos | payoff | paylen | hidx | langlen | textlen | textoff => cases h; exact .port s.host

theorem hostWrite_effect {act : HostAction} {sp : Space} {i : Nat} {d : Half} {s t : State}
    (hact : sp = .reg → writesReg act i d) (h : hostWrite sp i d s = .next t) : HostEffect act s t := by
  rcases hostWrite_cases sp i d s with ⟨hb, -, -, hw⟩ | ⟨-, hw⟩ | ⟨-, b, -, hw⟩ | ⟨hb, hsp, n, hn, hw⟩ | ⟨-, hw⟩
  · cases hw.symm.trans h
    exact .overrun hb
  · cases hw.symm.trans h
    exact .port s.host
  · cases hw.symm.trans h
    exact .byte b i _
  · exact writeReg_effect hb hn (hact hsp) (hw.symm.trans h)
  · cases hw.symm.trans h
    exact .port s.host

theorem hostAct_effect {act : HostAction} {s t : State} (h : hostAct act s = .next t) : HostEffect act s t := by
  rcases hostAct_cases act s with ⟨sp, i, d, hact, hw⟩ | ⟨v, hw⟩ | hw
  · refine hostWrite_effect (fun hsp => ?_) (hw.symm.trans h)
    subst hsp
    rcases hact with rfl | ⟨addr, rfl, hmap⟩
    · exact .inl rfl
    · obtain ⟨rfl, -⟩ := flatMap_reg s.cfg _ _ hmap
      exact .inr (by simp)
  · cases hw.symm.trans h
    exact .port _
  · cases hw.symm.trans h
    exact .port s.host

/-! ## A step -/

/-- What a step can do to `s`: nothing but take a turn; the reset input; a receive step in RX; a settle-end step in
SETTLE; or the host's next action. -/
inductive StepEffect (s : State) : State → Prop where
  | idle (ts : List Agent) : StepEffect s (s.setTurns ts)
  | reset (ts : List Agent) : s.turns = .resetPin :: ts → StepEffect s (pinReset (s.setTurns ts))
  | receive (ts : List Agent) (bus : Bus) (b : Byte) : s.cmp.phase = .rx →
      StepEffect s (receiveByte b ((s.setTurns ts).setBus bus))
  | settle (ts : List Agent) (sl : Sleeper) : s.turns = .sleeper :: ts → s.cmp.phase = .settle →
      StepEffect s (settleEnd ((s.setTurns ts).setSleeper sl))
  | host (ts : List Agent) (act : HostAction) (q : List HostAction) (p : HostPort) (t : State) :
      s.turns = .host :: ts → s.host.queue = act :: q → HostEffect act ((s.setTurns ts).setHost p) t → StepEffect s t

theorem hostTurn_effect {s t : State} {ts : List Agent} (hs : s.turns = .host :: ts)
    (h : hostTurn (s.setTurns ts) = .next t) : StepEffect s t := by
  unfold hostTurn at h
  split at h
  · cases h
    exact .idle ts
  · rename_i act q hq
    exact .host ts act q _ t hs hq (hostAct_effect h)

/-- Every step is one of these effects. -/
theorem step_effect {s t : State} (h : step s = .next t) : StepEffect s t := by
  cases hs : s.turns with
  | nil =>
    cases (step_nil s hs).symm.trans h
    exact .idle s.turns
  | cons who ts =>
    rw [step_cons s who ts hs] at h
    cases who with
    | host => exact hostTurn_effect hs h
    | transport =>
      cases h
      rcases transportTurn_cases (s.setTurns ts) with ⟨b, rest, hp, -, ht⟩ | ⟨-, ht⟩ <;> rw [ht]
      · exact .receive ts _ b hp
      · exact .idle ts
    | sleeper =>
      cases h
      rcases sleeperTurn_cases (s.setTurns ts) with ⟨hp, ht⟩ | ⟨-, ht⟩ <;> rw [ht]
      · exact .settle ts _ hs hp
      · exact .idle ts
    | resetPin =>
      cases h
      exact .reset ts hs

end Sys2Proof.Machine
end

section
/-! PROOFS. The invariant: it holds after reset, and every effect of a step keeps it. -/

namespace Sys2Proof.Machine

/-! ## States in which no comparison runs -/

/-- In PHASE IDLE the clauses on the comparison hold of themselves; the flags and ECODE are left to say. -/
theorem State.Static.inv_of_idle {s : State} (h : s.Static) (hphase : s.cmp.phase = .idle)
    (hbusy : s.flag .busy = false) (herr : s.flag .err = true → s.flag .t = false ∧ s.flag .done = true)
    (hcode : (s.flag .err = true ↔ s.regs.ecode ≠ 0x00) ∧ s.regs.ecode.toNat ≤ 0x0C) : s.Inv :=
  { h with
    busy_phase := by simp [hbusy, hphase]
    busy_flags := by simp [hbusy]
    err_flags := herr
    err_code := hcode
    phase_count := by simp [hphase]
    source_count := by simp [hphase]
    mispos_read := by simp [hphase] }

/-- A normal completion (60_exceptions.md R181). -/
theorem State.Static.complete_inv {s : State} (h : s.Static) (r : Bool) : (complete r s).Inv := by
  have hstatic : (complete r s).Static :=
    { h with status_reserved := (statusDone_reserved r _).trans h.status_reserved }
  exact hstatic.inv_of_idle rfl (by simp [State.flag]) (by simp [State.flag]) (by simp [State.flag])

/-- An error completion (60_exceptions.md R182, R183). -/
theorem State.Static.raise_inv {s : State} (h : s.Static) (e : ErrCode) : (raise e s).Inv := by
  have hstatic : (raise e s).Static :=
    { h with status_reserved := (statusError_reserved _).trans h.status_reserved }
  obtain ⟨hne, hle⟩ := e.code_range
  exact hstatic.inv_of_idle rfl (by simp [State.flag]) (by simp [State.flag]) ⟨by simpa [State.flag] using hne, hle⟩

/-- Reset clears every flag (10_state.md R32). -/
theorem State.flag_of_resetRegs {s : State} (h : s.regs = Regs.reset) (f : StatusFlag) : s.flag f = false := by
  rw [State.flag, h]
  cases f <;> rfl

/-- Registers, hidden state and buffers as after reset, for any well-formed parameters (10_state.md R32). -/
theorem inv_of_resetValues {s : State} (hcfg : s.cfg.wf = true) (hregs : s.regs = Regs.reset)
    (hcmp : s.cmp = Compare.reset) (hbufs : s.bufs = Buffers.reset) : s.Inv := by
  have hstatic : s.Static := by
    constructor
    case cfg_wf => exact hcfg
    case bufs_wf => simp [hbufs]
    all_goals simp [hregs, Regs.reset]
  have hflag := State.flag_of_resetRegs hregs
  exact hstatic.inv_of_idle (by rw [hcmp]; rfl) (hflag .busy) (by simp [hflag]) (by simp [hflag, hregs, Regs.reset])

/-! ## A comparison -/

/-- The accept step of a comparison within its source (43_verify.md R141). -/
theorem State.Static.startCompare_inv {s : State} (h : s.Static) {n : Nat} {src : VSrc} (hn : n ≤ s.cfg.ebSize)
    (hsrc : src = .ackrom → n = 7) : (startCompare n src s).Inv := by
  rw [startCompare_spec]
  exact { h with
    status_reserved := (statusAccept_reserved _).trans h.status_reserved
    busy_phase := by by_cases h0 : n > 0 <;> simp [State.flag, h0]
    busy_flags := by simp [State.flag]
    err_flags := by simp [State.flag]
    err_code := by simp [State.flag]
    phase_count := by by_cases h0 : n > 0 <;> simp [h0]; omega
    source_count := fun _ => ⟨hn, hsrc⟩
    mispos_read := by simp }

/-- MISPOS stays below the count of the bytes read (10_state.md R25). -/
theorem compareByte_mispos_lt {c : Compare} (w b : Byte) (h : c.mis = true → c.mispos < c.rxk)
    (hm : (compareByte c w b).mis = true) : (compareByte c w b).mispos < c.rxk + 1 := by
  obtain ⟨hmis, hpos⟩ := compareByte_mis c w b
  rw [hpos]
  split
  · exact Nat.lt_succ_self _
  · rename_i hold
    have hc : c.mis = true := by
      by_contra hc
      exact hold ⟨by simpa using hc, (hmis.mp hm).resolve_left hc⟩
    exact Nat.lt_succ_of_lt (h hc)

/-- A receive step (43_verify.md R150). -/
theorem State.Inv.receiveByte {s : State} (h : s.Inv) (hrx : s.cmp.phase = .rx) (b : Byte) :
    (receiveByte b s).Inv := by
  have hrun : s.cmp.phase ≠ .idle := by simp [hrx]
  have hbusy : s.flag .busy = true := h.busy_phase.mpr hrun
  have hlt : s.cmp.rxk < s.cmp.rxn := h.phase_count.1 hrx
  rw [receiveByte_spec]
  exact { h with
    busy_phase := ⟨fun _ => by dsimp only; split <;> simp [hrx], fun _ => hbusy⟩
    phase_count := by
      simp only [hrx, compareByte_rxk, compareByte_rxn]
      split <;> simp <;> omega
    source_count := fun _ => by simpa using h.source_count hrun
    mispos_read := fun _ hm => by simpa using compareByte_mispos_lt _ b (h.mispos_read hrun) hm }

/-- The settle-end step (43_verify.md R150). -/
theorem State.Inv.settleEnd {s : State} (h : s.Inv) : (settleEnd s).Inv := by
  have hpos : ∀ p, (setPos p s).Static := fun p => { h with }
  exact (hpos _).complete_inv _

/-! ## The host -/

/-- A new STATUS that differs in OVR alone. -/
theorem State.Inv.setStatus {s : State} (h : s.Inv) {v : Byte} (hres : v &&& 0xE0#8 = s.regs.status &&& 0xE0#8)
    (hflags : ∀ f : StatusFlag, f ≠ .ovr → getFlag v f = s.flag f) :
    (s.setRegs { s.regs with status := v }).Inv := by
  have hbusy : (s.setRegs { s.regs with status := v }).flag .busy = s.flag .busy := hflags _ (by decide)
  have hdone : (s.setRegs { s.regs with status := v }).flag .done = s.flag .done := hflags _ (by decide)
  have herr : (s.setRegs { s.regs with status := v }).flag .err = s.flag .err := hflags _ (by decide)
  have ht : (s.setRegs { s.regs with status := v }).flag .t = s.flag .t := hflags _ (by decide)
  exact { h with
    status_reserved := hres.trans h.status_reserved
    busy_phase := by rw [hbusy]; exact h.busy_phase
    busy_flags := by rw [hbusy, hdone, herr, ht]; exact h.busy_flags
    err_flags := by rw [hdone, herr, ht]; exact h.err_flags
    err_code := by rw [herr]; exact h.err_code }

theorem State.Inv.writeByte {s : State} (h : s.Inv) (b : Buffer) (i : Nat) (v : Byte) : (s.writeByte b i v).Inv := by
  have hbufs := State.writeByte_bufs_wf s b i v h.bufs_wf
  rw [State.writeByte_eq_setBufs]
  exact { h with bufs_wf := hbufs }

/-- Whatever an operation answers from a state between accept and completion. -/
theorem State.Static.answers_inv {p : Prop} {s t : State} (h : s.Static) (ha : Answers p s t) : t.Inv := by
  cases ha with
  | completes r u hu => exact (hu.static h).complete_inv r
  | fails e u hu => exact (hu.static h).raise_inv e
  | starts n src _ hn hsrc => exact h.startCompare_inv hn hsrc

theorem State.Inv.hostEffect {act : HostAction} {s t : State} (h : s.Inv) (he : HostEffect act s t) : t.Inv := by
  cases he with
  | port p => exact { h with }
  | overrun =>
    exact h.setStatus (setOverrun_reserved s) fun f hf => (setOverrun_flag s f).trans (if_neg hf)
  | byte b i v => exact h.writeByte b i v
  | control v => exact { h with ctrl_reserved := ctrlHostWrite_reserved v }
  | operand => exact { h with }
  | status d =>
    exact h.setStatus (statusHostWrite_reserved ..) fun f hf =>
      (statusHostWrite_flag ..).trans (if_neg fun hovr => hf hovr.1)
  | command d t _ _ ha => exact (h.static.accept _).answers_inv ha

/-! ## The statements -/

/-- Settles O54, by the effects of a step. -/
theorem stepKeepsInvariant : Obligations.StepKeepsInvariant := by
  unfold Obligations.StepKeepsInvariant
  intro s t h hstep
  cases step_effect hstep with
  | idle ts => exact { h with }
  | reset ts => exact inv_of_resetValues h.cfg_wf rfl rfl rfl
  | receive ts bus b hrx =>
    have h' : ((s.setTurns ts).setBus bus).Inv := { h with }
    exact h'.receiveByte hrx b
  | settle ts sl =>
    have h' : ((s.setTurns ts).setSleeper sl).Inv := { h with }
    exact h'.settleEnd
  | host ts act q p t _ _ he =>
    have h' : ((s.setTurns ts).setHost p).Inv := { h with }
    exact h'.hostEffect he

/-- Settles O53: both states have the reset values, over well-formed parameters. -/
theorem startHasInvariant : Obligations.StartHasInvariant := by
  unfold Obligations.StartHasInvariant
  exact ⟨inv_of_resetValues (by decide) rfl rfl rfl, fun _ _ _ _ _ hwf => inv_of_resetValues hwf rfl rfl rfl⟩

/-- Settles O52: the reset state is written out field by field. -/
theorem resetValues : Obligations.ResetValues := by
  unfold Obligations.ResetValues
  exact ⟨rfl, rfl, rfl⟩

end Sys2Proof.Machine
end

section
/-! PROOFS. What can clear OVR, and what starts and ends a comparison: the flags after each effect of a step. -/

namespace Sys2Proof.Machine

/-- OVR after a settle-end step is OVR before it (60_exceptions.md R181). -/
theorem settleEnd_ovr (s : State) : (settleEnd s).flag .ovr = s.flag .ovr := by
  simp [settleEnd_spec, State.flag]

/-- A receive step writes no register (43_verify.md R150). -/
theorem receiveByte_flag (b : Byte) (s : State) (f : StatusFlag) : (receiveByte b s).flag f = s.flag f := by
  rw [receiveByte_spec]
  rfl

/-- A host action clears OVR only by a write to STATUS with bit 4 set. -/
theorem HostEffect.status_of_clears_ovr {act : HostAction} {s t : State} (h : HostEffect act s t)
    (hs : s.flag .ovr = true) (ht : t.flag .ovr = false) :
    s.flag .busy = false ∧ ∃ d : Half, writesReg act 0x01 d ∧ d.getLsbD 4 = true := by
  have hkeeps : t.flag .ovr = s.flag .ovr → False := fun he => by simp [he, hs] at ht
  cases h with
  | port | control | operand => exact (hkeeps rfl).elim
  | overrun => simp [setOverrun_flag] at ht
  | byte b i v => exact (hkeeps (by simp [State.flag])).elim
  | command d t _ _ ha => exact (hkeeps (ha.ovr.trans (statusAccept_flag ..))).elim
  | status d hb hact =>
    refine ⟨hb, d, hact, ?_⟩
    by_contra hbit
    exact hkeeps ((statusHostWrite_flag ..).trans (if_neg fun h => hbit (by simpa [getFlag, StatusFlag.bit] using h.2)))

/-- A host action makes the block busy only by a write of VERIFY or VACK to CMD. -/
theorem HostEffect.command_of_sets_busy {act : HostAction} {s t : State} (h : HostEffect act s t)
    (hs : s.flag .busy = false) (ht : t.flag .busy = true) :
    ∃ d : Half, writesReg act 0x00 d ∧ (d.setWidth 8 = 0x07#8 ∨ d.setWidth 8 = 0x08#8) ∧
      t.regs.cmd = d.setWidth 8 := by
  have hkeeps : t.flag .busy = s.flag .busy → False := fun he => by simp [he, hs] at ht
  cases h with
  | port | control | operand => exact (hkeeps rfl).elim
  | overrun hb => simp [hb] at hs
  | byte b i v => exact (hkeeps (by simp [State.flag])).elim
  | status d => exact (hkeeps ((statusHostWrite_flag ..).trans (if_neg (by simp)))).elim
  | command d t _ hact ha => exact ⟨d, hact, ha.compares_of_busy ht, ha.hostRegs.1⟩

/-- No host action ends a comparison (20_memory.md R49). -/
theorem HostEffect.busy {act : HostAction} {s t : State} (h : HostEffect act s t) (hs : s.flag .busy = true) :
    t.flag .busy = true := by
  cases h with
  | port | control | operand => exact hs
  | overrun => rw [setOverrun_flag]; exact hs
  | byte b i v => simpa [State.flag] using hs
  | status d hb | command d t hb => simp [hb] at hs

/-- Settles O55: of the effects of a step, reset and a STATUS write are the only ones that can clear OVR. -/
theorem overrunIsSticky : Obligations.OverrunIsSticky := by
  unfold Obligations.OverrunIsSticky
  intro s t hstep hs ht
  cases step_effect hstep with
  | idle => exact absurd (hs.symm.trans ht) (by decide)
  | reset ts hturns => exact .inl ⟨ts, hturns⟩
  | receive =>
    rw [receiveByte_flag] at ht
    exact absurd (hs.symm.trans ht) (by decide)
  | settle =>
    rw [settleEnd_ovr] at ht
    exact absurd (hs.symm.trans ht) (by decide)
  | host ts act q p t hturns hqueue he =>
    obtain ⟨hb, d, hact, hbit⟩ := he.status_of_clears_ovr hs ht
    exact .inr ⟨hb, ts, act, q, d, hturns, hqueue, hbit, hact⟩

/-- Settles O57: a comparison is started by the host's command and ended by reset or the settle-end step. -/
theorem comparisonStartsAndEnds : Obligations.ComparisonStartsAndEnds := by
  unfold Obligations.ComparisonStartsAndEnds
  intro s t hstep
  constructor
  · intro hs ht
    cases step_effect hstep with
    | idle => exact absurd (hs.symm.trans ht) (by decide)
    | reset => exact absurd ((State.flag_of_resetRegs rfl .busy).symm.trans ht) (by decide)
    | receive =>
      rw [receiveByte_flag] at ht
      exact absurd (hs.symm.trans ht) (by decide)
    | settle => simp [settleEnd_spec, State.flag] at ht
    | host ts act q p t hturns hqueue he =>
      obtain ⟨d, hact, hcode, hcmd⟩ := he.command_of_sets_busy hs ht
      exact ⟨ts, act, q, d, hturns, hqueue, hact, hcode, hcmd⟩
  · intro hs ht
    cases step_effect hstep with
    | idle => exact absurd (hs.symm.trans ht) (by decide)
    | reset ts hturns => exact .inl ⟨ts, hturns⟩
    | receive =>
      rw [receiveByte_flag] at ht
      exact absurd (hs.symm.trans ht) (by decide)
    | settle ts sl hturns hphase => exact .inr ⟨⟨ts, hturns⟩, hphase⟩
    | host ts act q p t _ _ he => exact absurd ((he.busy hs).symm.trans ht) (by decide)

end Sys2Proof.Machine
end

section
/-! PROOFS. A host write while BUSY is 0: to a buffer byte, to a register, to STATUS. -/

namespace Sys2Proof.Machine

/-- The step of a host write while BUSY is 0. -/
theorem State.hostDoes_writeIdle {s s0 : State} {sp : Space} {i : Nat} {d : Half}
    (h : s.hostDoes (.write sp i d) s0) (hb : s.flag .busy = false) : step s = writeIdle sp i d s0 := by
  rw [State.hostDoes_step h]
  simp [hostAct, hostWrite, State.hostDoes_flag h, hb]

/-- CTRL keeps bits 1:0 of what the host writes (10_state.md R13). -/
theorem ctrlHostWrite_eq_setWidth (v : Byte) : ctrlHostWrite v = (v.setWidth 2).setWidth 8 := by
  revert v
  decide

theorem ctrlHostWrite_getLsbD (v : Byte) (k : Nat) :
    (ctrlHostWrite v).getLsbD k = (decide (k < 2) && v.getLsbD k) := by
  rw [ctrlHostWrite_eq_setWidth, BitVec.getLsbD_setWidth, BitVec.getLsbD_setWidth]
  by_cases hk : k < 2
  · simp [hk, show k < 8 by omega]
  · simp [hk]

/-- Bit 4 of the datum is the OVR bit of the byte STATUS takes (10_state.md R12). -/
theorem getFlag_ovr_setWidth (d : Half) : getFlag (d.setWidth 8) .ovr = d.getLsbD 4 := by
  simp [getFlag, StatusFlag.bit]

/-- Settles O9, by the read after a byte write. -/
theorem bufferWriteThenRead : Obligations.BufferWriteThenRead := by
  unfold Obligations.BufferWriteThenRead
  intro s s0 b i d hdoes _ hb hi
  rw [← (State.hostDoes_keeps hdoes).1] at hi
  refine ⟨s0.writeByte b i (d.setWidth 8), State.hostDoes_writeIdle hdoes hb, ?written, fun c j hother => ?others,
    State.writeByte_eq_setBufs ..⟩
  case written => rw [State.byteAt_writeByte, if_pos ⟨rfl, rfl, hi⟩]
  case others =>
    rw [State.byteAt_writeByte, if_neg (fun h => hother.elim (· h.1) (· h.2.1)), State.hostDoes_byteAt hdoes]

/-- Settles O10: each register by its number. -/
theorem hostRegisterWrites : Obligations.HostRegisterWrites := by
  unfold Obligations.HostRegisterWrites
  intro s s0 n d hdoes _ hb
  rw [State.hostDoes_writeIdle hdoes hb]
  refine ⟨?control, ?_, ?_, ?_, ?_, ?_, ?readOnly⟩
  case control =>
    rintro rfl
    refine ⟨ctrlHostWrite (d.setWidth 8), rfl, ?_, ?_, fun k hk => ?_⟩
    · rw [ctrlMark, ctrlHostWrite_getLsbD]; simp
    · rw [ctrlPost, ctrlHostWrite_getLsbD]; simp
    · simp [ctrlHostWrite_getLsbD, not_lt.mpr hk]
  case readOnly =>
    rintro (rfl | rfl | ⟨hlo, hhi⟩)
    · rfl
    · rfl
    · interval_cases n <;> rfl
  all_goals
    rintro rfl
    rfl

/-- Settles O11, by the flags after a host write to STATUS. -/
theorem statusWriteClearsOverrunOnly : Obligations.StatusWriteClearsOverrunOnly := by
  unfold Obligations.StatusWriteClearsOverrunOnly
  intro s s0 d hdoes _ hb
  obtain ⟨-, hregs, -⟩ := State.hostDoes_keeps hdoes
  refine ⟨s0.setRegs { s0.regs with status := statusHostWrite (d.setWidth 8) s0.regs.status },
    State.hostDoes_writeIdle hdoes hb, rfl, ?reserved, fun f => ?flags⟩
  case reserved => rw [← hregs]; exact statusHostWrite_reserved ..
  case flags =>
    rw [← State.hostDoes_flag hdoes f, ← getFlag_ovr_setWidth]
    exact statusHostWrite_flag ..

end Sys2Proof.Machine
end

section
/-! PROOFS. Accesses through the host port: a write while BUSY is 1, a read, an access to nothing, and the flat address
map of this hardware. -/

namespace Sys2Proof.Machine

/-! ## A write while BUSY is 1 -/

/-- The step of a host write while BUSY is 1. -/
theorem State.hostDoes_writeBusy {s s0 : State} {sp : Space} {i : Nat} {d : Half}
    (h : s.hostDoes (.write sp i d) s0) (hb : s.flag .busy = true) : step s = .next (writeBusy sp i s0) := by
  rw [State.hostDoes_step h]
  simp [hostAct, hostWrite, State.hostDoes_flag h, hb]

/-- Only a write to CMD leaves a trace while BUSY is 1 (20_memory.md R49). -/
theorem writeBusy_of_not_cmd {sp : Space} {i : Nat} (h : ¬ (sp = .reg ∧ i = 0x00)) (s : State) :
    writeBusy sp i s = s := by
  unfold writeBusy
  split
  · exact absurd ⟨rfl, rfl⟩ h
  · rfl

/-- Settles O6: a CMD write sets OVR, by the flags after it; any other write is dropped. -/
theorem writesWhileBusyDropped : Obligations.WritesWhileBusyDropped := by
  unfold Obligations.WritesWhileBusyDropped
  intro s s0 sp i d hdoes hb
  have hstep := State.hostDoes_writeBusy hdoes hb
  constructor
  · rintro ⟨rfl, rfl⟩
    obtain ⟨-, hregs, -⟩ := State.hostDoes_keeps hdoes
    refine ⟨setOverrun s0, hstep, rfl, ?reserved, fun f => ?flags⟩
    case reserved => rw [setOverrun_reserved, hregs]
    case flags => rw [setOverrun_flag, State.hostDoes_flag hdoes]
  · intro hother
    rw [hstep, writeBusy_of_not_cmd hother]

/-! ## A read -/

/-- The step of a host read, BUSY or not: the host's port gets the answer (20_memory.md R48, R49). -/
theorem State.hostDoes_read {s s0 : State} {sp : Space} {i : Nat} (h : s.hostDoes (.read sp i) s0) :
    step s = .next (s0.setHost { s0.host with lastRead := some (s.portValue sp i) }) := by
  rw [State.hostDoes_step h, ← State.hostDoes_portValue h]
  rfl

/-- Settles O7: the answer is `portValue`, compared with the register table number by number. -/
theorem readsHaveNoSideEffects : Obligations.ReadsHaveNoSideEffects := by
  unfold Obligations.ReadsHaveNoSideEffects
  intro s s0 sp i hdoes
  refine ⟨_, s.portValue sp i, State.hostDoes_read hdoes, rfl, fun b k => ?bytes, ?buffer, ?register⟩
  case bytes => rw [State.setHost_byteAt, State.hostDoes_byteAt hdoes]
  case buffer =>
    rintro b rfl
    rfl
  case register =>
    rintro rfl
    refine ⟨?_, ?_, ?_, ?_, ?_, ?_, ?_, ?_, ?_, ?_, ?_, ?_, ?_, ?_, ?_, ?_, ?_⟩
    all_goals
      rintro rfl
      rfl

/-! ## An access to nothing -/

/-- No register has the number, or the index is at or beyond the capacity of the buffer (20_memory.md R43). -/
def unassigned (cfg : Config) (sp : Space) (i : Nat) : Prop :=
  (sp = .reg ∧ 0x11 ≤ i) ∨ ∃ b, sp = .buf b ∧ capacity cfg b ≤ i

theorem State.portValue_unassigned {s : State} {sp : Space} {i : Nat} (h : unassigned s.cfg sp i) :
    s.portValue sp i = 0 := by
  rcases h with ⟨rfl, hi⟩ | ⟨b, rfl, hi⟩
  · simp [State.portValue, regOfNum_unassigned i hi]
  · simp [State.portValue, State.byteAt_beyond s b i hi]

theorem writeIdle_unassigned {s : State} {sp : Space} {i : Nat} (h : unassigned s.cfg sp i) (d : Half) :
    writeIdle sp i d s = .next s := by
  rcases h with ⟨rfl, hi⟩ | ⟨b, rfl, hi⟩
  · simp [writeIdle, regOfNum_unassigned i hi]
  · simp [writeIdle, State.writeByte, not_lt.mpr hi]

theorem writeBusy_unassigned {s : State} {sp : Space} {i : Nat} (h : unassigned s.cfg sp i) :
    writeBusy sp i s = s := by
  refine writeBusy_of_not_cmd ?_ s
  rintro ⟨rfl, rfl⟩
  rcases h with ⟨-, hi⟩ | ⟨b, hb, -⟩
  · exact absurd hi (by decide)
  · cases hb

/-- Settles O8: a write is dropped whatever BUSY is, and the value a read answers is 0. -/
theorem unassignedAccessHasNoEffect : Obligations.UnassignedAccessHasNoEffect := by
  unfold Obligations.UnassignedAccessHasNoEffect
  intro s s0 sp i d (h : unassigned s.cfg sp i)
  constructor
  · intro hdoes
    rw [← (State.hostDoes_keeps hdoes).1] at h
    cases hb : s.flag .busy with
    | true => rw [State.hostDoes_writeBusy hdoes hb, writeBusy_unassigned h]
    | false => rw [State.hostDoes_writeIdle hdoes hb, writeIdle_unassigned h]
  · intro hdoes
    rw [State.hostDoes_read hdoes, State.portValue_unassigned h]

/-! ## A flat address -/

/-- The window of a buffer in the flat map of this hardware ends at its capacity (20_memory.md R41). -/
theorem window_hardware (b : Buffer) (addr last : Nat) (h : last + 1 = flatBase b + capacity Config.hardware b) :
    (flatBase b ≤ addr ∧ addr < flatBase b + capacity Config.hardware b) ↔ (flatBase b ≤ addr ∧ addr ≤ last) := by
  rw [← h, Nat.lt_succ_iff]

theorem hostAct_flat {s : State} {addr : BitVec 12} {sp : Space} {i : Nat}
    (h : flatMap s.cfg addr.toNat = some (sp, i)) (d : Half) :
    hostAct (.writeAt addr d) s = hostAct (.write sp i d) s ∧ hostAct (.readAt addr) s = hostAct (.read sp i) s := by
  simp only [hostAct, h, and_self]

theorem hostAct_flat_unassigned {s : State} {addr : BitVec 12} (h : flatMap s.cfg addr.toNat = none) (d : Half) :
    hostAct (.writeAt addr d) s = .next s ∧ hostAct (.readAt addr) s = .next (answerRead 0 s) := by
  simp only [hostAct, h, and_self]

/-- Settles O12: the three windows of this hardware, and a flat access by what the map gives for its address. -/
theorem flatAddressMap : Obligations.FlatAddressMap := by
  unfold Obligations.FlatAddressMap
  refine ⟨fun addr _ => ?table, fun s addr d sp i h => hostAct_flat h d, fun s addr d h => hostAct_flat_unassigned h d⟩
  case table =>
    simp only [flatMap, window_hardware .pbuf addr 0x1FE rfl, window_hardware .fbuf addr 0x306 rfl,
      window_hardware .ebuf addr 0x506 rfl]
    rfl

end Sys2Proof.Machine
end

section
/-! PROOFS. What a turn leaves alone: a running comparison on the host's turn, and the parameters and the byte stream on
every turn but a receive step. -/

namespace Sys2Proof.Machine

/-- The host's turn by cases: its queue is empty, or its next action is done. -/
theorem hostTurn_cases (s : State) :
    hostTurn s = .next s ∨ ∃ (act : HostAction) (p : HostPort), hostTurn s = hostAct act (s.setHost p) := by
  unfold hostTurn
  split
  · exact .inl rfl
  · exact .inr ⟨_, _, rfl⟩

/-! ## A running comparison (20_memory.md R49) -/

/-- While BUSY is 1 the host's turn changes the host's port and at most OVR. -/
theorem hostTurn_busy {s t : State} (hb : s.flag .busy = true) (h : hostTurn s = .next t) :
    ∃ p : HostPort, t = s.setHost p ∨ t = setOverrun (s.setHost p) := by
  rcases hostTurn_cases s with hs | ⟨act, p, hs⟩
  · cases hs.symm.trans h
    exact ⟨s.host, .inl rfl⟩
  · rcases hostAct_busy act (s.setHost p) hb with ha | ha | ⟨v, ha⟩ <;> cases (hs.trans ha).symm.trans h
    · exact ⟨p, .inr rfl⟩
    · exact ⟨p, .inl rfl⟩
    · exact ⟨{ p with lastRead := some v }, .inl rfl⟩

/-- Settles O41: the host's port is outside what the statement speaks of, and setting OVR keeps every other flag. -/
theorem hostCannotDisturbComparison : Obligations.HostCannotDisturbComparison := by
  unfold Obligations.HostCannotDisturbComparison
  intro s t ts hturns hb hstep
  rw [step_cons s .host ts hturns] at hstep
  obtain ⟨p, rfl | rfl⟩ := hostTurn_busy (s := s.setTurns ts) hb hstep
  · exact ⟨rfl, rfl, rfl, rfl, fun _ _ => rfl, rfl, rfl, fun _ _ => rfl⟩
  · exact ⟨rfl, rfl, rfl, rfl, fun _ _ => rfl, rfl, setOverrun_reserved _,
      fun f hf => (setOverrun_flag _ f).trans (if_neg hf)⟩

/-! ## The byte stream (20_memory.md R44) -/

/-- The parameters and the byte stream are the same in `t` and `s`; a request for bytes may have been made. -/
structure StreamKept (s t : State) : Prop where
  cfg : t.cfg = s.cfg
  pending : t.bus.pending = s.bus.pending
  taken : t.bus.taken = s.bus.taken

theorem StreamKept.of_bus {s t : State} (hcfg : t.cfg = s.cfg) (hbus : t.bus = s.bus) : StreamKept s t :=
  ⟨hcfg, congrArg Bus.pending hbus, congrArg Bus.taken hbus⟩

/-- What leads from `s` to `u` changes neither the parameters nor the bus. -/
theorem StreamKept.of_start {s u t : State} (h : StreamKept u t) (hcfg : u.cfg = s.cfg) (hbus : u.bus = s.bus) :
    StreamKept s t :=
  ⟨h.cfg.trans hcfg, h.pending.trans (congrArg Bus.pending hbus), h.taken.trans (congrArg Bus.taken hbus)⟩

/-- The accept step of a comparison asks for bytes and takes none. -/
theorem startCompare_stream (n : Nat) (src : VSrc) (s : State) : StreamKept s (startCompare n src s) := by
  rw [startCompare_spec]
  by_cases hn : n > 0
  · simp only [if_pos hn]
    exact ⟨rfl, rfl, rfl⟩
  · simp only [if_neg hn]
    exact .of_bus rfl rfl

theorem ndefHeader_stream (s : State) : StreamKept s (ndefHeader s) := by
  rcases ndefHeader_cases s with ⟨e, p, h⟩ | h | ⟨i, -, -, -, h⟩ <;> rw [h] <;> exact .of_bus rfl rfl

/-- No operation takes a byte in its accepting step. -/
theorem exec_stream {i : Instr} {s t : State} (h : exec i s = .next t) : StreamKept s t := by
  cases i with
  | lcs | chkl => cases h; exact .of_bus rfl rfl
  | dcs | chkd =>
    simp only [exec, execDcs, execChkd] at h
    split at h <;> cases h <;> exact .of_bus rfl rfl
  | build =>
    rcases execBuild_cases s with ⟨-, hs⟩ | ⟨-, -, hs⟩ | ⟨-, -, hs⟩ <;> cases hs.symm.trans h
    · exact .of_bus rfl rfl
    · exact .of_bus rfl rfl
    · exact .of_bus (by simp) (by simp)
  | parse =>
    rcases execParse_cases s with ⟨-, hs⟩ | ⟨-, x, -, hs⟩ | ⟨-, f, -, hs⟩ <;> cases hs.symm.trans h <;>
      exact .of_bus rfl rfl
  | verify =>
    simp only [exec, execVerify] at h
    split at h <;> cases h
    · exact .of_bus rfl rfl
    · exact startCompare_stream ..
  | vack => cases h; exact startCompare_stream ..
  | ndefhdr =>
    rw [exec_ndefhdr] at h
    split at h <;> cases h
    · exact ndefHeader_stream s
    · exact .of_bus rfl rfl

theorem issueCommand_stream {c : Byte} {s t : State} (h : issueCommand c s = .next t) : StreamKept s t := by
  unfold issueCommand at h
  split at h
  · exact (exec_stream h).of_start rfl rfl
  · cases h
    exact .of_bus rfl rfl

theorem writeReg_stream {n : RegName} {d : Half} {s t : State} (h : writeReg n d s = .next t) : StreamKept s t := by
  cases n with
  | cmd => exact issueCommand_stream h
  | status | ctrl | a | b | pcnt | fcnt | ecnt
  | ecode | r | pos | payoff | paylen | hidx | langlen | textlen | textoff => cases h; exact .of_bus rfl rfl

theorem hostWrite_stream {sp : Space} {i : Nat} {d : Half} {s t : State} (h : hostWrite sp i d s = .next t) :
    StreamKept s t := by
  rcases hostWrite_cases sp i d s with ⟨-, -, -, hw⟩ | ⟨-, hw⟩ | ⟨-, b, -, hw⟩ | ⟨-, -, n, -, hw⟩ | ⟨-, hw⟩
  · cases hw.symm.trans h
    exact .of_bus rfl rfl
  · cases hw.symm.trans h
    exact .of_bus rfl rfl
  · cases hw.symm.trans h
    exact .of_bus (State.writeByte_cfg ..) (State.writeByte_bus ..)
  · exact writeReg_stream (hw.symm.trans h)
  · cases hw.symm.trans h
    exact .of_bus rfl rfl

theorem hostAct_stream {act : HostAction} {s t : State} (h : hostAct act s = .next t) : StreamKept s t := by
  rcases hostAct_cases act s with ⟨sp, i, d, -, ha⟩ | ⟨v, ha⟩ | ha
  · exact hostWrite_stream (ha.symm.trans h)
  · cases ha.symm.trans h
    exact .of_bus rfl rfl
  · cases ha.symm.trans h
    exact .of_bus rfl rfl

theorem hostTurn_stream {s t : State} (h : hostTurn s = .next t) : StreamKept s t := by
  rcases hostTurn_cases s with hs | ⟨act, p, hs⟩
  · cases hs.symm.trans h
    exact .of_bus rfl rfl
  · exact (hostAct_stream (hs.symm.trans h)).of_start rfl rfl

/-- The delay handshake and the byte stream have nothing in common (43_verify.md R147). -/
theorem sleeperTurn_stream (s : State) : StreamKept s (sleeperTurn s) := by
  rcases sleeperTurn_cases s with ⟨-, h⟩ | ⟨-, h⟩ <;> rw [h] <;> exact .of_bus rfl rfl

/-- The transport's turn keeps the stream, or takes its first byte in RX. -/
theorem transportTurn_stream (s : State) :
    StreamKept s (transportTurn s) ∨
    (s.cmp.phase = .rx ∧ (∃ b, s.bus.pending = b :: (transportTurn s).bus.pending) ∧
      (transportTurn s).bus.taken = s.bus.taken + 1 ∧ (transportTurn s).cfg = s.cfg) := by
  rcases transportTurn_cases s with ⟨b, rest, hrx, hpending, h⟩ | ⟨-, h⟩
  · rw [h, receiveByte_spec]
    exact .inr ⟨hrx, ⟨b, hpending⟩, rfl, rfl⟩
  · rw [h]
    exact .inl (.of_bus rfl rfl)

/-- A step keeps the parameters and the stream, but for a receive step. -/
theorem step_stream {s t : State} (h : step s = .next t) :
    StreamKept s t ∨
    (s.cmp.phase = .rx ∧ (∃ ts, s.turns = .transport :: ts) ∧ (∃ b, s.bus.pending = b :: t.bus.pending) ∧
      t.bus.taken = s.bus.taken + 1 ∧ t.cfg = s.cfg) := by
  cases hturns : s.turns with
  | nil =>
    cases (step_nil s hturns).symm.trans h
    exact .inl (.of_bus rfl rfl)
  | cons who ts =>
    rw [step_cons s who ts hturns] at h
    cases who with
    | host => exact .inl ((hostTurn_stream h).of_start rfl rfl)
    | transport =>
      cases h
      rcases transportTurn_stream (s.setTurns ts) with hkept | ⟨hrx, hbyte, htaken, hcfg⟩
      · exact .inl (hkept.of_start rfl rfl)
      · exact .inr ⟨hrx, ⟨ts, rfl⟩, hbyte, htaken, hcfg⟩
    | sleeper =>
      cases h
      exact .inl ((sleeperTurn_stream (s.setTurns ts)).of_start rfl rfl)
    | resetPin =>
      cases h
      exact .inl (.of_bus rfl rfl)

/-- Settles O56: every turn keeps the parameters and the stream, but for the transport's in RX. -/
theorem streamIsTakenInOrder : Obligations.StreamIsTakenInOrder := by
  unfold Obligations.StreamIsTakenInOrder
  intro s t h
  rcases step_stream h with hkept | ⟨hrx, hturn, hbyte, htaken, hcfg⟩
  · exact ⟨hkept.cfg, .inl ⟨hkept.pending, hkept.taken⟩⟩
  · exact ⟨hcfg, .inr ⟨hrx, hturn, hbyte, htaken⟩⟩

end Sys2Proof.Machine
end

section
/-! PROOFS. The command byte: decoding inverts encoding, and the bytes that decode to nothing. -/

namespace Sys2Proof.Machine

/-- An operation of the instance decodes from its own code (30_encoding.md R71). -/
theorem decode_encode {cfg : Config} {i : Instr} (h : i.wf cfg = true) : decode cfg (encode i) = .ok i := by
  cases i with
  | ndefhdr => exact (decode_ndefCode cfg).trans (if_pos h)
  | lcs | chkl | dcs | chkd | build | parse | verify | vack => rfl

/-- Only operations of the instance are decoded. -/
theorem wf_of_decode {cfg : Config} {c : Byte} {i : Instr} (h : decode cfg c = .ok i) : i.wf cfg = true := by
  cases i with
  | ndefhdr =>
    rw [← encode_of_decode h] at h
    by_contra hno
    cases ((decode_ndefCode cfg).trans (if_neg hno)).symm.trans h
  | lcs | chkl | dcs | chkd | build | parse | verify | vack => rfl

/-- A byte with one of bits 7:4 set is above every operation code. -/
theorem le_toNat_of_cmdHigh {c : Byte} (h : cmdHigh c ≠ 0) : 0x10 ≤ c.toNat := by
  by_contra hlt
  refine h (BitVec.eq_of_toNat_eq ?_)
  have hquot : c.toNat / 16 = 0 := by omega
  simp [cmdHigh, Nat.shiftRight_eq_div_pow, hquot]

/-- The illegal bytes (30_encoding.md R72), by the branches of the decoder. -/
theorem decode_illegal_iff (cfg : Config) (c : Byte) : (∃ e, decode cfg c = .error e) ↔
    c.toNat = 0x00 ∨ 0x0A ≤ c.toNat ∨ (c.toNat = 0x09 ∧ cfg.hasNdef = false) := by
  unfold decode
  split
  case isTrue hhigh => exact iff_of_true ⟨_, rfl⟩ (.inr (.inl (le_trans (by decide) (le_toNat_of_cmdHigh hhigh))))
  case isFalse hhigh =>
    rw [toNat_eq_cmdOp (not_not.mp hhigh)]
    split
    case h_1 hop => exact iff_of_true ⟨_, rfl⟩ (.inl hop)
    case h_10 hop => cases cfg.hasNdef <;> simp [hop]
    case h_11 =>
      simp only [imp_false] at *
      exact iff_of_true ⟨_, rfl⟩ (.inr (.inl (by omega)))
    case h_2 hop | h_3 hop | h_4 hop | h_5 hop | h_6 hop | h_7 hop | h_8 hop | h_9 hop => simp [hop]

/-- Settles O1: the three facts above and `encode_of_decode`. -/
theorem decodeEncodeAgree : Obligations.DecodeEncodeAgree := by
  unfold Obligations.DecodeEncodeAgree
  exact ⟨fun _ _ => decode_encode, fun _ _ _ h => ⟨encode_of_decode h, wf_of_decode h⟩, decode_illegal_iff⟩

/-- Settles O2: each byte is the code of its operation. -/
theorem commandCodesDecode : Obligations.CommandCodesDecode := by
  unfold Obligations.CommandCodesDecode
  intro cfg
  exact ⟨decode_encode (i := .lcs) rfl, decode_encode (i := .chkl) rfl, decode_encode (i := .dcs) rfl,
    decode_encode (i := .chkd) rfl, decode_encode (i := .build) rfl, decode_encode (i := .parse) rfl,
    decode_encode (i := .verify) rfl, decode_encode (i := .vack) rfl, decode_encode (i := .ndefhdr)⟩

end Sys2Proof.Machine
end

section
/-! PROOFS. The host's WAIT (30_encoding.md R75). -/

namespace Sys2Proof.Machine

/-- The host's turn does the first action of its queue. -/
theorem hostTurn_cons {s : State} {act : HostAction} {q : List HostAction} (h : s.host.queue = act :: q) :
    hostTurn s = hostAct act (s.setHost { s.host with queue := queueAfter act q s }) := by
  simp only [hostTurn, h]

/-- WAIT reads STATUS. -/
theorem hostAct_wait (s : State) :
    hostAct .wait s = .next (s.setHost { s.host with lastRead := some (s.regs.status.setWidth 16) }) := rfl

/-- Settles O13: the host's turn takes WAIT from the queue as DONE says, and WAIT reads STATUS. -/
theorem waitReadsUntilDone : Obligations.WaitReadsUntilDone := by
  unfold Obligations.WaitReadsUntilDone
  intro s ts q hturns hqueue
  calc step s
      = hostTurn (s.setTurns ts) := step_cons s .host ts hturns
    _ = hostAct .wait ((s.setTurns ts).setHost { s.host with queue := queueAfter .wait q s }) := hostTurn_cons hqueue
    _ = _ := by rw [hostAct_wait]; rfl

end Sys2Proof.Machine
end

section
/-! PROOFS. The checksum functions (40_checksum.md R90 to R92): one relation decides both, that a byte completes a
number to a multiple of 0x100. -/

namespace Sys2Proof.Machine

/-- `lcs(n)` is the only byte that completes n (40_checksum.md R90). -/
theorem completes_iff_eq_lcsOf (n : Nat) (c : Byte) : (n + c.toNat) % 0x100 = 0 ↔ c = lcsOf n := by
  have hc := c.isLt
  rw [← BitVec.toNat_inj, lcsOf_toNat]
  omega

theorem lcsOf_completes (n : Nat) : (n + (lcsOf n).toNat) % 0x100 = 0 := (completes_iff_eq_lcsOf n _).mpr rfl

/-- The length checksum is the two's complement of the low byte (40_checksum.md R90). -/
theorem lcsOf_eq_neg (n : Nat) : lcsOf n = -BitVec.ofNat 8 n := by
  refine BitVec.eq_of_toNat_eq ?_
  rw [lcsOf_toNat, BitVec.toNat_neg, BitVec.toNat_ofNat]

theorem lcsOf_toNat_eq_neg (a : Byte) : lcsOf a.toNat = -a := by
  rw [lcsOf_eq_neg, BitVec.ofNat_toNat, BitVec.setWidth_eq]

/-- The data checksum is the length checksum's function applied to the exact sum (40_checksum.md R91). -/
theorem dcsOf_eq_lcsOf (p : List Byte) : dcsOf p = lcsOf (natSum p) := by
  refine BitVec.eq_of_toNat_eq ?_
  rw [dcsOf_toNat, lcsOf_toNat]

theorem natSum_eq_sum_map (p : List Byte) : natSum p = (p.map BitVec.toNat).sum := by
  induction p with
  | nil => rfl
  | cons b rest ih => rw [natSum, ih, List.map_cons, List.sum_cons]

theorem natSum_perm {p q : List Byte} (h : p.Perm q) : natSum p = natSum q := by
  rw [natSum_eq_sum_map, natSum_eq_sum_map, (h.map BitVec.toNat).sum_eq]

/-- Settles O14, by the relation that decides `lcsOf`. -/
theorem lengthChecksumFunction : Obligations.LengthChecksumFunction := by
  unfold Obligations.LengthChecksumFunction
  refine ⟨fun n => ⟨lcsOf_toNat n, lcsOf_completes n, ?inverted, fun c => (completes_iff_eq_lcsOf n c).mp⟩, ?values⟩
  case inverted => exact (lcsOf_eq_neg n).trans (BitVec.neg_eq_not_add _)
  case values => decide

/-- Settles O15: what holds of the length checksum of every number holds for the exact sum of the bytes. -/
theorem dataChecksumFunction : Obligations.DataChecksumFunction := by
  unfold Obligations.DataChecksumFunction
  refine ⟨fun p => ⟨dcsOf_toNat p, ?completes, ?unique⟩, ?values⟩
  case completes => rw [dcsOf_eq_lcsOf, lcsOf_completes]
  case unique => exact fun c hc => dcsOf_eq_lcsOf p ▸ (completes_iff_eq_lcsOf _ c).mp hc
  case values => decide

/-- Settles O16: each fact is one of the exact sum, reduced once. -/
theorem sumIsOrderBlind : Obligations.SumIsOrderBlind := by
  unfold Obligations.SumIsOrderBlind
  refine ⟨sum8_toNat, fun p q => ?append, fun p q h => BitVec.eq_of_toNat_eq ?perm⟩
  case append => rw [sum8_toNat, sum8_toNat, sum8_toNat, natSum_append, Nat.add_mod]
  case perm => rw [sum8_toNat, sum8_toNat, natSum_perm h]

end Sys2Proof.Machine
end

section
/-! PROOFS. The checksum operations LCS, CHKL, DCS and CHKD (40_checksum.md R93 to R97). -/

namespace Sys2Proof.Machine

/-! ## `complete`, in the words of the statements (60_exceptions.md R181, 10_state.md R31) -/

@[simp] theorem complete_flag_t (r : Bool) (s : State) : (complete r s).flag .t = r :=
  statusDone_flag r s.regs.status .t

theorem complete_completedWith (r : Bool) (s : State) : completedWith r (complete r s) := by
  simp [completedWith, State.flag]

theorem complete_onlyS (r : Bool) (s : State) : onlyS s.regs s (complete r s) :=
  ⟨complete_spec s r, statusDone_high r s.regs.status⟩

theorem complete_setR_onlyS (r : Bool) (v : Byte) (s : State) :
    onlyS { s.regs with r := v } s (complete r (setR v s)) :=
  ⟨complete_spec (setR v s) r, statusDone_high r s.regs.status⟩

theorem complete_sameBytes (r : Bool) (s : State) : sameBytes s (complete r s) := fun _ _ => complete_byteAt ..

theorem complete_setR_sameBytes (r : Bool) (v : Byte) (s : State) : sameBytes s (complete r (setR v s)) :=
  fun _ _ => (complete_byteAt ..).trans (setR_byteAt ..)

/-! ## What each operation answers -/

theorem exec_lcs (s : State) : exec .lcs s = .next (complete true (setR (lcsOf s.regs.a.toNat) s)) := rfl

theorem exec_chkl (s : State) : exec .chkl s = .next (complete (sumsToZero s.regs.a s.regs.b) s) := rfl

section PayloadOperations

variable {s : State}

theorem exec_dcs_beyond (h : s.regs.pcnt.toNat > s.cfg.pbSize) : exec .dcs s = .next (raise .range s) := if_pos h

theorem exec_dcs_within (h : s.regs.pcnt.toNat ≤ s.cfg.pbSize) :
    exec .dcs s = .next (complete true (setR (dcsOf s.payload) s)) := if_neg (not_lt.mpr h)

theorem exec_chkd_beyond (h : s.regs.pcnt.toNat > s.cfg.pbSize) : exec .chkd s = .next (raise .range s) := if_pos h

theorem exec_chkd_within (h : s.regs.pcnt.toNat ≤ s.cfg.pbSize) :
    exec .chkd s = .next (complete (sumsToZero (sum8 s.payload) s.regs.b) s) := if_neg (not_lt.mpr h)

/-- The payload is PCNT and the bytes of PBUF, whatever the other registers are. -/
theorem State.payload_congr {t : State} (hpcnt : t.regs.pcnt = s.regs.pcnt) (hbytes : sameBytes s t) :
    t.payload = s.payload := by
  rw [State.payload, State.payload, hpcnt]
  exact State.bytesAt_congr fun _ _ => hbytes ..

end PayloadOperations

/-! ## What the two checks decide -/

/-- CHKL tests whether B is the length checksum of A (40_checksum.md R94). -/
theorem sumsToZero_iff_eq_lcsOf (a b : Byte) : sumsToZero a b = true ↔ b = lcsOf a.toNat := by
  rw [sumsToZero_iff, completes_iff_eq_lcsOf]

/-- CHKD tests whether B is the data checksum of the payload (40_checksum.md R96). -/
theorem sumsToZero_sum8_iff_eq_dcsOf (p : List Byte) (c : Byte) : sumsToZero (sum8 p) c = true ↔ c = dcsOf p := by
  rw [sumsToZero_sum8, completes_iff_eq_lcsOf, dcsOf_eq_lcsOf]

/-- CHKD's result is that of the exact sum of the payload (40_checksum.md R96). -/
theorem sumsToZero_sum8_eq_decide (p : List Byte) (c : Byte) :
    sumsToZero (sum8 p) c = decide ((natSum p + c.toNat) % 0x100 = 0) := by
  rw [Bool.eq_iff_iff, sumsToZero_sum8, decide_eq_true_iff]

/-- Per A, CHKL gives T = 1 for the length checksum in B alone (40_checksum.md R97). -/
theorem exec_chkl_validates_iff (s : State) (a b : Byte) :
    (∃ t, exec .chkl (s.setRegs { s.regs with a := a, b := b }) = .next t ∧ t.flag .t = true) ↔ b = lcsOf a.toNat := by
  simp [exec_chkl, sumsToZero_iff_eq_lcsOf]

/-! ## The statements -/

/-- Settles O18: CHKL completes with the relation that only `lcs(A)` meets. -/
theorem chklResult : Obligations.ChklResult := by
  unfold Obligations.ChklResult
  refine ⟨rfl, fun s => ⟨_, exec_chkl s, complete_completedWith .., ?validates, complete_onlyS _ s,
    complete_sameBytes _ s⟩⟩
  case validates => rw [complete_flag_t, sumsToZero_iff_eq_lcsOf]

/-- Settles O19: the two sides of the capacity are the two branches of DCS. -/
theorem dcsResult : Obligations.DcsResult := by
  unfold Obligations.DcsResult
  refine ⟨rfl, fun s => ⟨fun h => ?beyond, fun h => ?within⟩⟩
  case beyond => exact ⟨_, exec_dcs_beyond h, raise_failedWith .range s, raise_onlyS .range s, raise_sameBytes .range s⟩
  case within =>
    rw [← State.payload_eq_map]
    exact ⟨_, exec_dcs_within h, complete_completedWith .., dcsOf_toNat s.payload,
      complete_setR_onlyS true (dcsOf s.payload) s, complete_setR_sameBytes true (dcsOf s.payload) s⟩

/-- Settles O20: the two sides of the capacity are the two branches of CHKD. -/
theorem chkdResult : Obligations.ChkdResult := by
  unfold Obligations.ChkdResult
  refine ⟨rfl, fun s => ⟨fun h => ?beyond, fun h => ?within⟩⟩
  case beyond => exact ⟨_, exec_chkd_beyond h, raise_failedWith .range s, raise_onlyS .range s, raise_sameBytes .range s⟩
  case within =>
    rw [← State.payload_eq_map, ← sumsToZero_sum8_eq_decide]
    refine ⟨_, exec_chkd_within h, complete_completedWith .., ?validates, complete_onlyS _ s, complete_sameBytes _ s⟩
    rw [complete_flag_t, sumsToZero_sum8_iff_eq_dcsOf]

/-- DCS, then its result in B, then CHKD validates (40_checksum.md R97). -/
theorem dcs_then_chkd_validates {s : State} (h : s.regs.pcnt.toNat ≤ s.cfg.pbSize) :
    ∃ t u, exec .dcs s = .next t ∧ exec .chkd (t.setRegs { t.regs with b := t.regs.r }) = .next u ∧
      u.flag .t = true := by
  refine ⟨_, _, exec_dcs_within h, exec_chkd_within h, ?_⟩
  rw [complete_flag_t, State.payload_congr (s := s) (t := State.setRegs _ _)]
  · exact sumsToZero_dcsOf s.payload
  · rfl
  · exact complete_setR_sameBytes true (dcsOf s.payload) s

/-- Settles O21: CHKL accepts `lcs(A)` and nothing else, CHKD accepts what DCS answered, and the length checksum of a
byte is its negation. -/
theorem checksumFacts : Obligations.ChecksumFacts := by
  unfold Obligations.ChecksumFacts
  refine ⟨fun s a => (exec_chkl_validates_iff s a _).mpr rfl, fun s a => ?unique, fun s => dcs_then_chkd_validates,
    fun a => ⟨?involution, ?single⟩⟩
  case unique => simp only [exec_chkl_validates_iff, existsUnique_eq]
  case involution => rw [lcsOf_toNat_eq_neg, lcsOf_toNat_eq_neg, BitVec.neg_neg]
  case single => rw [dcsOf_eq_lcsOf]; rfl

/-- Settles O17: LCS completes over the state with `lcs(A)` in R, and A is its own low byte. -/
theorem lcsResult : Obligations.LcsResult := by
  unfold Obligations.LcsResult
  refine ⟨rfl, fun s => ⟨_, exec_lcs s, complete_completedWith .., ?result,
    complete_setR_onlyS true (lcsOf s.regs.a.toNat) s, complete_setR_sameBytes true (lcsOf s.regs.a.toNat) s⟩⟩
  case result => rw [complete_regs, setR_regs, lcsOf_toNat, Nat.mod_eq_of_lt s.regs.a.isLt]

end Sys2Proof.Machine
end

section
/-! PROOFS. BUILD, and PARSE of the frame it leaves (41_frame_build.md R111 to R115). -/

namespace Sys2Proof.Machine

/-! ## What BUILD answers -/

/-- The state BUILD answers with when it does not refuse the size (41_frame_build.md R111). -/
def State.built (s : State) : State :=
  complete true (setFcnt (s.regs.pcnt.toNat + 7) (s.writeBytes .fbuf 0 (frameOf s.payload)))

section Build

variable {s : State}

theorem exec_build_empty (h : s.regs.pcnt.toNat = 0) : exec .build s = .next (raise .empty s) := if_pos h

theorem exec_build_toolarge (h0 : s.regs.pcnt.toNat ≠ 0) (h : s.regs.pcnt.toNat > s.cfg.maxLen) :
    exec .build s = .next (raise .toolarge s) := (if_neg h0).trans (if_pos h)

theorem exec_build_within (h0 : 1 ≤ s.regs.pcnt.toNat) (h : s.regs.pcnt.toNat ≤ s.cfg.maxLen) :
    exec .build s = .next s.built := (if_neg (Nat.ne_of_gt h0)).trans (if_neg (not_lt.mpr h))

@[simp] theorem State.built_cfg : s.built.cfg = s.cfg := by simp [State.built]

@[simp] theorem State.built_ctrl : s.built.regs.ctrl = s.regs.ctrl := by simp [State.built]

theorem State.built_completedWith : completedWith true s.built := complete_completedWith ..

/-- BUILD writes FCNT, the buffers, and what a completion writes (41_frame_build.md R111, 10_state.md R31). -/
theorem State.built_onlyS : onlyS { s.regs with fcnt := s.built.regs.fcnt } (s.setBufs s.built.bufs) s.built := by
  refine ⟨?whole, ?overrun⟩
  case whole =>
    conv_lhs => rw [State.built, State.writeBytes_eq_setBufs]
    simp [State.built, complete_spec, setFcnt]
  case overrun => simp [sameOverrun, State.built]

section Frame

variable (h : s.regs.pcnt.toNat ≤ s.cfg.maxLen)
include h

/-- FCNT holds the frame's length: 255 + 7 fits its width (00_scope.md R4). -/
theorem State.built_fcnt (hwf : s.cfg.wf = true) : s.built.regs.fcnt.toNat = s.regs.pcnt.toNat + 7 := by
  obtain ⟨-, hmax, -⟩ := (Config.wf_iff s.cfg).mp hwf
  have hfit : s.regs.pcnt.toNat + 7 < 2 ^ 16 := by omega
  simp only [State.built, complete_regs, setFcnt_regs, BitVec.toNat_ofNat, Nat.mod_eq_of_lt hfit]

theorem State.built_byteAt_beyond {i : Nat} (hi : s.regs.pcnt.toNat + 7 ≤ i) :
    s.built.byteAt .fbuf i = s.byteAt .fbuf i := by
  simpa [State.built, not_lt.mpr hi] using built_byteAt s h .fbuf i

theorem State.built_byteAt_other {b : Buffer} (hb : b ≠ .fbuf) (i : Nat) : s.built.byteAt b i = s.byteAt b i := by
  simpa [State.built, hb] using built_byteAt s h b i

end Frame

end Build

/-! ## A frame where bytes are read -/

/-- The bytes read from index 0 on are the frame of the payload p (30_encoding.md R60). -/
def readsFrame (rd : Nat → Byte) (p : List Byte) : Prop := ∀ i < p.length + 7, rd i = (frameOf p).getD i 0

section ReadsFrame

variable {rd : Nat → Byte} {p : List Byte} (h : readsFrame rd p)
include h

/-- The fields of the frame as they are read (30_encoding.md R60). -/
theorem readsFrame_fields :
    rd 0 = 0x00 ∧ rd 1 = 0x00 ∧ rd 2 = 0xFF ∧ rd 3 = BitVec.ofNat 8 p.length ∧ rd 4 = lcsOf p.length ∧
    (∀ k < p.length, rd (5 + k) = p.getD k 0) ∧ rd (5 + p.length) = dcsOf p ∧ rd (6 + p.length) = 0x00 := by
  obtain ⟨h0, h1, h2, hlen, hlcs, hpay, hdcs, hpost⟩ := frameOf_fields p
  exact ⟨(h 0 (by omega)).trans h0, (h 1 (by omega)).trans h1, (h 2 (by omega)).trans h2,
    (h 3 (by omega)).trans hlen, (h 4 (by omega)).trans hlcs,
    fun k hk => (h (5 + k) (by omega)).trans (hpay k hk), (h (5 + p.length) (by omega)).trans hdcs,
    (h (6 + p.length) (by omega)).trans hpost⟩

theorem readsFrame_len (hlen : p.length ≤ 255) : (rd 3).toNat = p.length := by
  obtain ⟨-, -, -, h3, -⟩ := readsFrame_fields h
  rw [h3, BitVec.toNat_ofNat, Nat.mod_eq_of_lt (by omega)]

theorem readsFrame_payload : ((List.range p.length).map fun k => rd (5 + k)) = p := by
  obtain ⟨-, -, -, -, -, hpay, -⟩ := readsFrame_fields h
  refine List.ext_getElem (by simp) fun k _ hk => ?_
  simp [hpay k hk, hk]

/-- PARSE accepts a frame of a payload of 1 to MAXLEN bytes when no marker is expected: `lcs` and `dcs` complete the
sums it tests (42_frame_parse.md R124). -/
theorem validFrame_of_readsFrame {maxLen q : Nat} (h1 : 1 ≤ p.length) (hle : p.length ≤ maxLen) (hmax : maxLen ≤ 255)
    (hq : q ≤ 1) : validFrame rd (p.length + 7) maxLen 0 q := by
  obtain ⟨hsof0, hsof1, hsof2, -, hlcs, -, hdcs, hpost⟩ := readsFrame_fields h
  have hlen : (rd 3).toNat = p.length := readsFrame_len h (by omega)
  unfold validFrame
  simp only [Nat.zero_add, hlen, hlcs, hdcs, readsFrame_payload h]
  exact ⟨by omega, .inl trivial, hsof0, hsof1, hsof2, lcsOf_completes _, h1, hle, by omega,
    (sumsToZero_sum8 ..).mp (sumsToZero_dcsOf p), .inr hpost⟩

end ReadsFrame

/-! ## The frame BUILD leaves -/

theorem State.payload_getD {s : State} {k : Nat} (hk : k < s.regs.pcnt.toNat) :
    s.payload.getD k 0 = s.byteAt .pbuf k := by
  rw [State.payload, State.bytesAt_getD _ _ _ _ _ hk, Nat.zero_add]

section BuiltFrame

variable {s : State} (h : s.regs.pcnt.toNat ≤ s.cfg.maxLen)
include h

theorem State.built_readsFrame : readsFrame (s.built.byteAt .fbuf) s.payload := by
  intro i hi
  rw [State.payload_length] at hi
  simpa [State.built, hi] using built_byteAt s h .fbuf i

theorem State.built_byteAt_len (hwf : s.cfg.wf = true) : (s.built.byteAt .fbuf 3).toNat = s.regs.pcnt.toNat := by
  obtain ⟨-, hmax, -⟩ := (Config.wf_iff s.cfg).mp hwf
  rw [readsFrame_len (State.built_readsFrame h) (by rw [State.payload_length]; omega), State.payload_length]

theorem State.built_byteAt_payload {k : Nat} (hk : k < s.regs.pcnt.toNat) :
    s.built.byteAt .fbuf (5 + k) = s.byteAt .pbuf k := by
  obtain ⟨-, -, -, -, -, hpay, -⟩ := readsFrame_fields (State.built_readsFrame h)
  rw [hpay k (by rwa [State.payload_length]), State.payload_getD hk]

/-- With MARK = 0 the state after BUILD holds a frame PARSE accepts (41_frame_build.md R115 (c)). -/
theorem State.built_holdsFrame (hwf : s.cfg.wf = true) (h1 : 1 ≤ s.regs.pcnt.toNat)
    (hmark : ctrlMark s.regs.ctrl = false) : s.built.holdsFrame := by
  obtain ⟨-, hmax, -⟩ := (Config.wf_iff s.cfg).mp hwf
  refine ⟨?fits, ?valid⟩
  case fits =>
    rw [State.built_fcnt h hwf, State.built_cfg, Config.fbSize]
    omega
  case valid =>
    have hreads := State.built_readsFrame h
    rw [State.built_fcnt h hwf, State.built_cfg, State.built_ctrl, hmark]
    rw [← State.payload_length] at h h1 ⊢
    exact validFrame_of_readsFrame hreads h1 h hmax (Bool.toNat_le _)

end BuiltFrame

/-! ## PARSE of a frame -/

/-- PARSE of a frame completes with the offset of the payload, LEN, and the index after the frame
(42_frame_parse.md R121). -/
theorem exec_parse_of_holdsFrame {s : State} (h : s.holdsFrame) :
    let m := (ctrlMark s.regs.ctrl).toNat
    let l := (s.byteAt .fbuf (m + 3)).toNat
    let stop := m + 5 + l + 1 + (ctrlPost s.regs.ctrl).toNat
    exec .parse s = .next (complete true (setPos stop (setPay (m + 5) l s))) := by
  obtain ⟨hfit, hvalid⟩ := h
  have hscan := (scanFrame_ok ..).mpr ⟨hvalid, rfl⟩
  change execParse s = _
  rw [execParse, if_neg (not_lt.mpr hfit), hscan]

/-! ## The statements -/

/-- Settles O22: FBUF reads as the frame of the payload below FCNT and as before beyond it, and the length and data
checksum bytes are the numbers `lcs` and `dcs` give. -/
theorem buildWritesFrame : Obligations.BuildWritesFrame := by
  unfold Obligations.BuildWritesFrame
  refine ⟨rfl, fun s hwf h1 h => ?_⟩
  obtain ⟨-, hmax, -⟩ := (Config.wf_iff s.cfg).mp hwf
  have hreads : readsFrame (s.built.byteAt .fbuf) s.payload := State.built_readsFrame h
  obtain ⟨hsof0, hsof1, hsof2, -, hlcs, -, hdcs, hpost⟩ := readsFrame_fields hreads
  rw [State.payload_length] at hlcs hdcs hpost
  refine ⟨s.built, exec_build_within h1 h, State.built_completedWith, State.built_fcnt h hwf, hsof0, hsof1, hsof2,
    State.built_byteAt_len h hwf, ?lengthChecksum, fun k => State.built_byteAt_payload h, ?dataChecksum, hpost,
    fun i => State.built_byteAt_beyond h,
    fun i => ⟨State.built_byteAt_other h (by decide) i, State.built_byteAt_other h (by decide) i⟩, State.built_onlyS⟩
  case lengthChecksum => rw [hlcs, lcsOf_toNat, Nat.mod_eq_of_lt (by omega : s.regs.pcnt.toNat < 0x100)]
  case dataChecksum => rw [hdcs, dcsOf_toNat, State.payload_eq_map]

/-- Settles O24: FCNT is PCNT + 7 and the bytes below it are the frame of the payload, and the two payloads are the same
list. -/
theorem buildDependsOnPayloadOnly : Obligations.BuildDependsOnPayloadOnly := by
  unfold Obligations.BuildDependsOnPayloadOnly
  intro s s' hcfg hwf hpcnt h1 h hbytes
  have h' : s'.regs.pcnt.toNat ≤ s'.cfg.maxLen := by rwa [← hpcnt, ← hcfg]
  have hpayload : s.payload = s'.payload := by
    rw [State.payload, State.payload, ← hpcnt]
    exact State.bytesAt_congr fun k hk => by simpa using hbytes k hk
  refine ⟨s.built, s'.built, exec_build_within h1 h, exec_build_within (hpcnt ▸ h1) h', ?fcnt, fun i hi => ?frame⟩
  case fcnt => simp [State.built, hpcnt]
  case frame =>
    rw [State.built_fcnt h hwf, ← State.payload_length] at hi
    rw [State.built_readsFrame h i hi, State.built_readsFrame h' i (hpayload ▸ hi), hpayload]

/-- Settles O25: BUILD leaves a frame PARSE accepts, whose LEN byte is PCNT, and PARSE writes no byte. -/
theorem parseAfterBuildReturnsPayload : Obligations.ParseAfterBuildReturnsPayload := by
  unfold Obligations.ParseAfterBuildReturnsPayload
  intro s hwf h1 h hmark
  obtain ⟨-, hmax, -⟩ := (Config.wf_iff s.cfg).mp hwf
  have hparse := exec_parse_of_holdsFrame (State.built_holdsFrame h hwf h1 hmark)
  simp only [State.built_ctrl, hmark, Bool.toNat_false, Nat.zero_add, State.built_byteAt_len h hwf] at hparse
  have hpost := Bool.toNat_le (ctrlPost s.regs.ctrl)
  refine ⟨s.built, _, exec_build_within h1 h, State.built_completedWith, hparse, complete_completedWith .., rfl,
    ?paylen, ?pos, fun k hk => ?payload⟩
  case paylen => exact Nat.mod_eq_of_lt (by omega)
  case pos =>
    rw [complete_regs, setPos_regs, BitVec.toNat_ofNat, Nat.mod_eq_of_lt (by omega)]
    omega
  case payload => rw [complete_byteAt, setPos_byteAt, setPay_byteAt, State.built_byteAt_payload h hk]

/-- Settles O23: each refused size is its own branch of BUILD, and an error completion writes no byte. -/
theorem buildRefusesSizes : Obligations.BuildRefusesSizes := by
  unfold Obligations.BuildRefusesSizes
  exact fun s => ⟨fun h => ⟨_, exec_build_empty h, raise_failedWith .empty s, raise_onlyS .empty s,
      raise_sameBytes .empty s⟩,
    fun h0 h => ⟨_, exec_build_toolarge h0 h, raise_failedWith .toolarge s, raise_onlyS .toolarge s,
      raise_sameBytes .toolarge s⟩⟩

end Sys2Proof.Machine
end

section
/-! PROOFS. The scan of PARSE as a row of tests, and the first fault that ends it (42_frame_parse.md R120, R123,
R124). -/

namespace Sys2Proof.Machine

/-! ## The tests of the scan -/

/-- The test PARSE makes at index i passes, if it makes one there, for m, q the values of CTRL.MARK and CTRL.POST
(42_frame_parse.md R120). The test at the LCS byte stands with the size tests behind it; there is none at the length
byte or in the payload. -/
structure PassesAt (rd : Nat → Byte) (maxLen m q i : Nat) : Prop where
  marker : i = 0 → m = 1 → rd i = 0x01 := by omega
  sof0 : i = m → rd i = 0x00 := by omega
  sof1 : i = m + 1 → rd i = 0x00 := by omega
  sof2 : i = m + 2 → rd i = 0xFF := by omega
  lcs : i = m + 4 → ((rd (m + 3)).toNat + (rd i).toNat) % 0x100 = 0 ∧ 1 ≤ (rd (m + 3)).toNat ∧
    (rd (m + 3)).toNat ≤ maxLen := by omega
  dcs : i = m + 5 + (rd (m + 3)).toNat →
    (natSum ((List.range (rd (m + 3)).toNat).map fun k => rd (m + 5 + k)) + (rd i).toNat) % 0x100 = 0 := by omega
  post : i = m + 5 + (rd (m + 3)).toNat + 1 → q = 1 → rd i = 0x00 := by omega

/-- The scan of n bytes reaches the cursor p: no byte below it is missing, and every test below it passes. -/
structure Reaches (rd : Nat → Byte) (n maxLen m q p : Nat) : Prop where
  within : p ≤ n
  tests : ∀ i < p, PassesAt rd maxLen m q i

section Tests

variable {rd : Nat → Byte} {n maxLen m q : Nat}

theorem passesAt_marker : PassesAt rd maxLen 1 q 0 ↔ rd 0 = 0x01 :=
  ⟨fun h => h.marker rfl rfl, fun h => { marker := fun _ _ => h }⟩

theorem passesAt_sof0 : PassesAt rd maxLen m q m ↔ rd m = 0x00 :=
  ⟨fun h => h.sof0 rfl, fun h => { sof0 := fun _ => h }⟩

theorem passesAt_sof1 : PassesAt rd maxLen m q (m + 1) ↔ rd (m + 1) = 0x00 :=
  ⟨fun h => h.sof1 rfl, fun h => { sof1 := fun _ => h }⟩

theorem passesAt_sof2 : PassesAt rd maxLen m q (m + 2) ↔ rd (m + 2) = 0xFF :=
  ⟨fun h => h.sof2 rfl, fun h => { sof2 := fun _ => h }⟩

theorem passesAt_len : PassesAt rd maxLen m q (m + 3) := {}

theorem passesAt_lcs : PassesAt rd maxLen m q (m + 4) ↔
    ((rd (m + 3)).toNat + (rd (m + 4)).toNat) % 0x100 = 0 ∧ 1 ≤ (rd (m + 3)).toNat ∧ (rd (m + 3)).toNat ≤ maxLen :=
  ⟨fun h => h.lcs rfl, fun h => { lcs := fun _ => h }⟩

theorem passesAt_payload {k : Nat} (hk : k < (rd (m + 3)).toNat) : PassesAt rd maxLen m q (m + 5 + k) := {}

theorem passesAt_dcs : PassesAt rd maxLen m q (m + 5 + (rd (m + 3)).toNat) ↔
    (natSum ((List.range (rd (m + 3)).toNat).map fun k => rd (m + 5 + k)) +
      (rd (m + 5 + (rd (m + 3)).toNat)).toNat) % 0x100 = 0 :=
  ⟨fun h => h.dcs rfl, fun h => { dcs := fun _ => h }⟩

theorem passesAt_post : PassesAt rd maxLen m q (m + 5 + (rd (m + 3)).toNat + 1) ↔
    (q = 1 → rd (m + 5 + (rd (m + 3)).toNat + 1) = 0x00) :=
  ⟨fun h => h.post rfl, fun h => { post := fun _ => h }⟩

theorem reaches_zero : Reaches rd n maxLen m q 0 := ⟨Nat.zero_le n, fun i hi => absurd hi (Nat.not_lt_zero i)⟩

theorem reaches_succ {p : Nat} :
    Reaches rd n maxLen m q (p + 1) ↔ Reaches rd n maxLen m q p ∧ p < n ∧ PassesAt rd maxLen m q p :=
  ⟨fun h => ⟨⟨by have := h.within; omega, fun i hi => h.tests i (by omega)⟩, h.within, h.tests p (by omega)⟩,
    fun ⟨h, hp, ht⟩ => ⟨hp, Nat.forall_lt_succ_right.mpr ⟨h.tests, ht⟩⟩⟩

theorem Reaches.mono {p p' : Nat} (h : Reaches rd n maxLen m q p) (hp : p' ≤ p) : Reaches rd n maxLen m q p' :=
  ⟨hp.trans h.within, fun i hi => h.tests i (hi.trans_le hp)⟩

/-- No test is made on the bytes of the payload. -/
theorem Reaches.payload {p : Nat} (h : Reaches rd n maxLen m q (m + 5)) (hp : p ≤ m + 5 + (rd (m + 3)).toNat)
    (hn : p ≤ n) : Reaches rd n maxLen m q p := by
  refine ⟨hn, fun i hi => ?_⟩
  rcases lt_or_ge i (m + 5) with hlt | hge
  · exact h.tests i hlt
  · obtain ⟨k, rfl⟩ := Nat.exists_eq_add_of_le hge
    exact passesAt_payload (by omega)

end Tests

/-! ## The stages of the scan: each carries the cursor on -/

section Stages

variable (rd : Nat → Byte) (n maxLen m q : Nat)

/-- The scan goes on behind the marker exactly where it reaches the start sequence; each stage below says the same of
its own end, for whatever `X` the scan goes on with. -/
theorem scanMarker_then (mark : Bool) (X : Nat → Prop) :
    (∃ p, scanMarker rd n mark = .ok p ∧ X p) ↔ Reaches rd n maxLen mark.toNat q mark.toNat ∧ X mark.toNat := by
  cases mark
  · simp [scanMarker_ok, reaches_zero]
  · simp [scanMarker_ok, reaches_succ, reaches_zero, passesAt_marker]

theorem scanStart_then (X : Nat → Prop) :
    (Reaches rd n maxLen m q m ∧ ∃ p, scanStart rd n m = .ok p ∧ X p) ↔
      Reaches rd n maxLen m q (m + 3) ∧ X (m + 3) := by
  simp only [scanStart_ok, reaches_succ, passesAt_sof0, passesAt_sof1, passesAt_sof2]
  constructor
  · rintro ⟨h, _, ⟨hn, h0, h1, h2, rfl⟩, hX⟩
    exact ⟨⟨⟨⟨h, by omega, h0⟩, by omega, h1⟩, hn, h2⟩, hX⟩
  · rintro ⟨⟨⟨⟨h, -, h0⟩, -, h1⟩, hn, h2⟩, hX⟩
    exact ⟨h, _, ⟨hn, h0, h1, h2, rfl⟩, hX⟩

theorem scanLength_then (X : Nat → Prop) :
    (Reaches rd n maxLen m q (m + 3) ∧ ∃ l, scanLength rd n maxLen (m + 3) = .ok l ∧ X l) ↔
      Reaches rd n maxLen m q (m + 5) ∧ X (rd (m + 3)).toNat := by
  rw [reaches_succ (p := m + 4), reaches_succ (p := m + 3), passesAt_lcs]
  simp only [scanLength_ok]
  constructor
  · rintro ⟨h, _, ⟨hn, hlcs, rfl, hl⟩, hX⟩
    exact ⟨⟨⟨h, by omega, passesAt_len⟩, hn, hlcs, hl⟩, hX⟩
  · rintro ⟨⟨⟨h, -⟩, hn, hlcs, hl⟩, hX⟩
    exact ⟨h, _, ⟨hn, hlcs, rfl, hl⟩, hX⟩

theorem scanPayload_then (X : Byte × Nat → Prop) :
    (Reaches rd n maxLen m q (m + 5) ∧ ∃ r, scanPayload rd n (rd (m + 3)).toNat (m + 5) 0 = .ok r ∧ X r) ↔
      Reaches rd n maxLen m q (m + 5 + (rd (m + 3)).toNat) ∧
        X (sum8 ((List.range (rd (m + 3)).toNat).map fun k => rd (m + 5 + k)), m + 5 + (rd (m + 3)).toNat) := by
  simp only [scanPayload_ok]
  constructor
  · rintro ⟨h, _, ⟨hn, rfl⟩, hX⟩
    have := h.within
    exact ⟨h.payload le_rfl (by omega), hX⟩
  · rintro ⟨h, hX⟩
    exact ⟨h.mono (by omega), _, ⟨.inr h.within, rfl⟩, hX⟩

theorem expectSum_dcs_then (X : Nat → Prop) :
    (Reaches rd n maxLen m q (m + 5 + (rd (m + 3)).toNat) ∧ ∃ p, expectSum rd n (m + 5 + (rd (m + 3)).toNat)
        (sum8 ((List.range (rd (m + 3)).toNat).map fun k => rd (m + 5 + k))) .dcs = .ok p ∧ X p) ↔
      Reaches rd n maxLen m q (m + 5 + (rd (m + 3)).toNat + 1) ∧ X (m + 5 + (rd (m + 3)).toNat + 1) := by
  simp only [expectSum_ok, sumsToZero_sum8, reaches_succ, passesAt_dcs, and_assoc, exists_and_left, exists_eq_left]

end Stages

/-- The whole scan errs exactly where one of its stages does, at a cursor it reaches (42_frame_parse.md R120). -/
theorem scanFrame_error_iff_stage (rd : Nat → Byte) (n maxLen q : Nat) (mark post : Bool) (x : ScanError) :
    let m := mark.toNat
    let l := (rd (m + 3)).toNat
    let payload := (List.range l).map fun k => rd (m + 5 + k)
    scanFrame rd n maxLen mark post = .error x ↔
      scanMarker rd n mark = .error x ∨
      Reaches rd n maxLen m q m ∧ scanStart rd n m = .error x ∨
      Reaches rd n maxLen m q (m + 3) ∧ scanLength rd n maxLen (m + 3) = .error x ∨
      Reaches rd n maxLen m q (m + 5) ∧ scanPayload rd n l (m + 5) 0 = .error x ∨
      Reaches rd n maxLen m q (m + 5 + l) ∧ expectSum rd n (m + 5 + l) (sum8 payload) .dcs = .error x ∨
      Reaches rd n maxLen m q (m + 5 + l + 1) ∧ scanPost rd n (m + 5 + l + 1) post = .error x := by
  intro m l payload
  rw [scanFrame_error, scanMarker_then rd n maxLen q, and_or_left, scanStart_then, and_or_left, scanLength_then,
    and_or_left, scanPayload_then, and_or_left, expectSum_dcs_then]

/-! ## The first fault -/

/-- What PARSE reports when the test at index i fails (42_frame_parse.md R123): EMPTY and TOOLARGE, tested behind the
LCS byte, point back at the length byte. -/
def faultOf (rd : Nat → Byte) (m i : Nat) : ScanError :=
  if i < m then ⟨.marker, i⟩
  else if i < m + 3 then ⟨.start, i⟩
  else if i < m + 5 then
    if sumsToZero (rd (m + 3)) (rd (m + 4)) = false then ⟨.lcs, i⟩
    else if (rd (m + 3)).toNat = 0 then ⟨.empty, i - 1⟩ else ⟨.toolarge, i - 1⟩
  else if i ≤ m + 5 + (rd (m + 3)).toNat then ⟨.dcs, i⟩
  else ⟨.post, i⟩

/-- The reported index is that of the failed test, or the one before it. -/
theorem faultOf_pos {rd : Nat → Byte} {m i : Nat} : (faultOf rd m i).pos ≤ i ∧ i ≤ (faultOf rd m i).pos + 1 := by
  unfold faultOf
  split_ifs <;> dsimp only <;> omega

section FaultOf

variable {rd : Nat → Byte} {m i : Nat}

theorem faultOf_marker (h : i < m) : faultOf rd m i = ⟨.marker, i⟩ := if_pos h

theorem faultOf_start (hm : m ≤ i) (h : i < m + 3) : faultOf rd m i = ⟨.start, i⟩ := by
  rw [faultOf, if_neg (by omega), if_pos h]

theorem faultOf_length : faultOf rd m (m + 4) =
    if sumsToZero (rd (m + 3)) (rd (m + 4)) = false then ⟨.lcs, m + 4⟩
    else if (rd (m + 3)).toNat = 0 then ⟨.empty, m + 3⟩ else ⟨.toolarge, m + 3⟩ := by
  rw [faultOf, if_neg (by omega), if_neg (by omega), if_pos (by omega), Nat.add_succ_sub_one]

theorem faultOf_dcs : faultOf rd m (m + 5 + (rd (m + 3)).toNat) = ⟨.dcs, m + 5 + (rd (m + 3)).toNat⟩ := by
  rw [faultOf, if_neg (by omega), if_neg (by omega), if_neg (by omega), if_pos le_rfl]

theorem faultOf_post : faultOf rd m (m + 5 + (rd (m + 3)).toNat + 1) = ⟨.post, m + 5 + (rd (m + 3)).toNat + 1⟩ := by
  rw [faultOf, if_neg (by omega), if_neg (by omega), if_neg (by omega), if_neg (by omega)]

end FaultOf

/-- The scan ends at index i with the report x: it reaches i, and there a byte of the frame is missing or a test
fails. -/
def FirstFault (rd : Nat → Byte) (n maxLen m q i : Nat) (x : ScanError) : Prop :=
  Reaches rd n maxLen m q i ∧ ((i = n ∧ n < m + 5 + (rd (m + 3)).toNat + 1 + q ∧ x = ⟨.trunc, n⟩) ∨
    (i < n ∧ ¬ PassesAt rd maxLen m q i ∧ x = faultOf rd m i))

section Faults

variable {rd : Nat → Byte} {n maxLen m q : Nat} {x y : ScanError}

/-- Where the bytes end inside the frame, the fault is TRUNC. -/
theorem Reaches.trunc {i : Nat} (h : Reaches rd n maxLen m q i) (hi : n ≤ i)
    (hshort : n < m + 5 + (rd (m + 3)).toNat + 1 + q) : FirstFault rd n maxLen m q i ⟨.trunc, i⟩ := by
  obtain rfl : i = n := h.within.antisymm hi
  exact ⟨h, .inl ⟨rfl, hshort, rfl⟩⟩

theorem Reaches.fault {i : Nat} (h : Reaches rd n maxLen m q i) (hi : i < n) (hfail : ¬ PassesAt rd maxLen m q i)
    (hx : faultOf rd m i = x) : FirstFault rd n maxLen m q i x :=
  ⟨h, .inr ⟨hi, hfail, hx.symm⟩⟩

theorem Reaches.start_fault (h : Reaches rd n maxLen m q m) (hx : scanStart rd n m = .error x) :
    ∃ i, FirstFault rd n maxLen m q i x := by
  rcases (scanStart_error ..).mp hx with ⟨hn, rfl⟩ | ⟨hn, hb, rfl⟩ | ⟨hn, hb, hx⟩
  · exact ⟨_, h.trunc hn (by omega)⟩
  · exact ⟨_, h.fault hn (mt passesAt_sof0.mp hb) (faultOf_start (by omega) (by omega))⟩
  replace h := reaches_succ.mpr ⟨h, hn, passesAt_sof0.mpr hb⟩
  rcases hx with ⟨hn, rfl⟩ | ⟨hn, hb, rfl⟩ | ⟨hn, hb, hx⟩
  · exact ⟨_, h.trunc hn (by omega)⟩
  · exact ⟨_, h.fault hn (mt passesAt_sof1.mp hb) (faultOf_start (by omega) (by omega))⟩
  replace h := reaches_succ.mpr ⟨h, hn, passesAt_sof1.mpr hb⟩
  rcases hx with ⟨hn, rfl⟩ | ⟨hn, hb, rfl⟩
  · exact ⟨_, h.trunc hn (by omega)⟩
  · exact ⟨_, h.fault hn (mt passesAt_sof2.mp hb) (faultOf_start (by omega) (by omega))⟩

theorem Reaches.length_fault (h : Reaches rd n maxLen m q (m + 3))
    (hx : scanLength rd n maxLen (m + 3) = .error x) : ∃ i, FirstFault rd n maxLen m q i x := by
  have hlcs := fun hn => reaches_succ.mpr ⟨h, hn, passesAt_len⟩
  rcases (scanLength_error ..).mp hx with
    ⟨hn, rfl⟩ | ⟨hlen, hn, rfl⟩ | ⟨hn, hs, rfl⟩ | ⟨hn, hs, ⟨hl, rfl⟩ | ⟨h0, hl, rfl⟩⟩
  · exact ⟨_, h.trunc hn (by omega)⟩
  · exact ⟨_, (hlcs hlen).trunc hn (by omega)⟩
  all_goals replace h := hlcs (by omega)
  · exact ⟨_, h.fault hn (mt passesAt_lcs.mp (by simp [← sumsToZero_iff, hs])) (by simp [faultOf_length, hs])⟩
  · exact ⟨_, h.fault hn (mt passesAt_lcs.mp (by omega)) (by simp [faultOf_length, hs, hl])⟩
  · exact ⟨_, h.fault hn (mt passesAt_lcs.mp (by omega)) (by simp [faultOf_length, hs, h0])⟩

/-- An error of the scan reports its first fault. -/
theorem fault_of_scanFrame {mark post : Bool} (hx : scanFrame rd n maxLen mark post = .error x) :
    ∃ i, FirstFault rd n maxLen mark.toNat post.toNat i x := by
  rcases (scanFrame_error_iff_stage rd n maxLen post.toNat mark post x).mp hx with
    hx | ⟨h, hx⟩ | ⟨h, hx⟩ | ⟨h, hx⟩ | ⟨h, hx⟩ | ⟨h, hx⟩
  · obtain ⟨rfl, ⟨hn, rfl⟩ | ⟨hn, hb, rfl⟩⟩ := (scanMarker_error ..).mp hx
    · exact ⟨0, reaches_zero.trunc hn.le (by omega)⟩
    · exact ⟨0, reaches_zero.fault hn (mt passesAt_marker.mp hb) rfl⟩
  · exact h.start_fault hx
  · exact h.length_fault hx
  · obtain ⟨hn, rfl⟩ := (scanPayload_error _ _ _ _ _ _ h.within).mp hx
    exact ⟨n, (h.payload hn.le le_rfl).trunc le_rfl (by omega)⟩
  · rcases (expectSum_error ..).mp hx with ⟨hn, rfl⟩ | ⟨hn, hs, rfl⟩
    · exact ⟨_, h.trunc hn (by omega)⟩
    · exact ⟨_, h.fault hn (by simp [passesAt_dcs, ← sumsToZero_sum8, hs]) faultOf_dcs⟩
  · obtain ⟨rfl, ⟨hn, rfl⟩ | ⟨hn, hb, rfl⟩⟩ := (scanPost_error ..).mp hx
    · exact ⟨_, h.trunc hn (by rw [Bool.toNat_true]; omega)⟩
    · exact ⟨_, h.fault hn (mt passesAt_post.mp (by simpa using hb)) faultOf_post⟩

/-- A valid frame is one that fits and whose every test passes (42_frame_parse.md R124). -/
theorem validFrame_iff (hm : m ≤ 1) (hq : q ≤ 1) : validFrame rd n maxLen m q ↔
    m + 5 + (rd (m + 3)).toNat + 1 + q ≤ n ∧ ∀ i, PassesAt rd maxLen m q i := by
  constructor
  · rintro ⟨-, hmark, h0, h1, h2, hlcs, hmin, hmax, hn, hdcs, hpost⟩
    have hadd : m + 6 + (rd (m + 3)).toNat = m + 5 + (rd (m + 3)).toNat + 1 := by omega
    rw [hadd] at hn hpost
    exact ⟨hn, fun i =>
      { marker := fun hi hm => hi ▸ hmark.resolve_left (by omega)
        sof0 := fun hi => hi ▸ h0
        sof1 := fun hi => hi ▸ h1
        sof2 := fun hi => hi ▸ h2
        lcs := fun hi => hi ▸ ⟨hlcs, hmin, hmax⟩
        dcs := fun hi => hi ▸ hdcs
        post := fun hi hq => hi ▸ hpost.resolve_left (by omega) }⟩
  · rintro ⟨hn, h⟩
    obtain ⟨hlcs, hmin, hmax⟩ := passesAt_lcs.mp (h (m + 4))
    refine ⟨by omega, ?marker, passesAt_sof0.mp (h _), passesAt_sof1.mp (h _), passesAt_sof2.mp (h _), hlcs, hmin,
      hmax, by omega, passesAt_dcs.mp (h _), ?post⟩
    case marker => exact (Nat.le_one_iff_eq_zero_or_eq_one.mp hm).imp_right ((h 0).marker rfl)
    case post =>
      rw [show m + 6 + (rd (m + 3)).toNat = m + 5 + (rd (m + 3)).toNat + 1 by omega]
      exact (Nat.le_one_iff_eq_zero_or_eq_one.mp hq).imp_right (passesAt_post.mp (h _))

/-- A test that fails stands at one of the scan's indices, and the byte there is the wrong one. -/
theorem not_passesAt {i : Nat} (h : ¬ PassesAt rd maxLen m q i) :
    (i = 0 ∧ m = 1 ∧ rd i ≠ 0x01) ∨ (i = m ∧ rd i ≠ 0x00) ∨ (i = m + 1 ∧ rd i ≠ 0x00) ∨
    (i = m + 2 ∧ rd i ≠ 0xFF) ∨
    (i = m + 4 ∧ ¬ (((rd (m + 3)).toNat + (rd i).toNat) % 0x100 = 0 ∧ 1 ≤ (rd (m + 3)).toNat ∧
      (rd (m + 3)).toNat ≤ maxLen)) ∨
    (i = m + 5 + (rd (m + 3)).toNat ∧
      (natSum ((List.range (rd (m + 3)).toNat).map fun k => rd (m + 5 + k)) + (rd i).toNat) % 0x100 ≠ 0) ∨
    (i = m + 5 + (rd (m + 3)).toNat + 1 ∧ q = 1 ∧ rd i ≠ 0x00) := by
  contrapose! h
  obtain ⟨hmarker, h0, h1, h2, hlcs, hdcs, hpost⟩ := h
  exact ⟨hmarker, h0, h1, h2, hlcs, hdcs, hpost⟩

theorem FirstFault.le_pos {i : Nat} (h : FirstFault rd n maxLen m q i x) : i ≤ x.pos + 1 := by
  rcases h.2 with ⟨rfl, -, rfl⟩ | ⟨-, -, rfl⟩
  · exact Nat.le_succ i
  · exact faultOf_pos.2

theorem FirstFault.pos_le_index {i : Nat} (h : FirstFault rd n maxLen m q i x) : x.pos ≤ i := by
  rcases h.2 with ⟨rfl, -, rfl⟩ | ⟨-, -, rfl⟩
  · exact le_rfl
  · exact faultOf_pos.1

theorem FirstFault.pos_le {i : Nat} (h : FirstFault rd n maxLen m q i x) : x.pos ≤ n :=
  h.pos_le_index.trans h.1.within

/-- Where a test fails or the bytes end, the scan goes no further. -/
theorem FirstFault.le {i j : Nat} (hi : FirstFault rd n maxLen m q i x) (hj : Reaches rd n maxLen m q j) : j ≤ i := by
  by_contra hlt
  rcases hi.2 with ⟨hn, -⟩ | ⟨-, hfail, -⟩
  · have := hj.within
    omega
  · exact hfail (hj.tests i (by omega))

/-- There is one first fault, so its report is the scan's. -/
theorem FirstFault.unique {i j : Nat} (hi : FirstFault rd n maxLen m q i x) (hj : FirstFault rd n maxLen m q j y) :
    x = y := by
  obtain rfl : i = j := (hj.le hi.1).antisymm (hi.le hj.1)
  rcases hi.2, hj.2 with ⟨⟨_, _, rfl⟩ | ⟨hn, _, rfl⟩, ⟨_, _, rfl⟩ | ⟨_, _, rfl⟩⟩
  · rfl
  · omega
  · omega
  · rfl

/-- The scan finds the first fault: a valid frame has none. -/
theorem scanFrame_of_fault {mark post : Bool} {i : Nat} (h : FirstFault rd n maxLen mark.toNat post.toNat i x) :
    scanFrame rd n maxLen mark post = .error x := by
  cases hx : scanFrame rd n maxLen mark post with
  | error y =>
    obtain ⟨j, hj⟩ := fault_of_scanFrame hx
    rw [h.unique hj]
  | ok f =>
    obtain ⟨hstop, hpass⟩ := (validFrame_iff (Bool.toNat_le _) (Bool.toNat_le _)).mp ((scanFrame_ok ..).mp hx).1
    rcases h.2 with ⟨-, hn, -⟩ | ⟨-, hfail, -⟩
    · omega
    · exact absurd (hpass i) hfail

end Faults

/-! ## The first fault, in the words of the statements -/

theorem Reaches.testsPassed {s : State} {n p : Nat}
    (h : Reaches (s.byteAt .fbuf) n s.cfg.maxLen (ctrlMark s.regs.ctrl).toNat (ctrlPost s.regs.ctrl).toNat p) :
    s.testsPassed p :=
  ⟨fun hp => (h.tests _ hp).marker rfl, fun hp => passesAt_sof0.mp (h.tests _ hp),
    fun hp => passesAt_sof1.mp (h.tests _ hp), fun hp => passesAt_sof2.mp (h.tests _ hp),
    fun hp => passesAt_lcs.mp (h.tests _ hp), fun hp => passesAt_dcs.mp (h.tests _ hp)⟩

/-- The report of the first fault, error by error (42_frame_parse.md R122, R123). -/
theorem FirstFault.reports {rd : Nat → Byte} {n maxLen m q i : Nat} {x : ScanError}
    (h : FirstFault rd n maxLen m q i x) :
    let l := (rd (m + 3)).toNat
    let p := x.pos
    let lcsHolds := (l + (rd (m + 4)).toNat) % 0x100 = 0
    (x.err = .trunc ∧ p = n ∧ (n < m + 5 ∨ (lcsHolds ∧ 1 ≤ l ∧ l ≤ maxLen ∧ n < m + 6 + l + q))) ∨
      (x.err = .marker ∧ p < n ∧ p = 0 ∧ m = 1 ∧ rd p ≠ 0x01) ∨
      (x.err = .start ∧ p < n ∧ ((p = m ∧ rd p ≠ 0x00) ∨ (p = m + 1 ∧ rd p ≠ 0x00) ∨ (p = m + 2 ∧ rd p ≠ 0xFF))) ∨
      (x.err = .lcs ∧ p < n ∧ p = m + 4 ∧ ¬ lcsHolds) ∨
      (x.err = .empty ∧ m + 4 < n ∧ p = m + 3 ∧ lcsHolds ∧ l = 0) ∨
      (x.err = .toolarge ∧ m + 4 < n ∧ p = m + 3 ∧ lcsHolds ∧ l > maxLen) ∨
      (x.err = .dcs ∧ p < n ∧ p = m + 5 + l ∧
        (natSum ((List.range l).map fun k => rd (m + 5 + k)) + (rd p).toNat) % 0x100 ≠ 0) ∨
      (x.err = .post ∧ p < n ∧ p = m + 6 + l ∧ q = 1 ∧ rd p ≠ 0x00) := by
  intro l p lcsHolds
  obtain ⟨hr, ⟨rfl, hshort, rfl⟩ | ⟨hi, hfail, hx⟩⟩ := h
  · refine .inl ⟨rfl, rfl, (lt_or_ge i (m + 5)).imp_right fun hlen => ?_⟩
    obtain ⟨hlcs, hmin, hmax⟩ := passesAt_lcs.mp (hr.tests (m + 4) hlen)
    exact ⟨hlcs, hmin, hmax, by omega⟩
  rcases not_passesAt hfail with
    ⟨rfl, rfl, hb⟩ | ⟨rfl, hb⟩ | ⟨rfl, hb⟩ | ⟨rfl, hb⟩ | ⟨rfl, hb⟩ | ⟨rfl, hb⟩ | ⟨rfl, hq, hb⟩
  · subst hx
    exact .inr (.inl ⟨rfl, hi, rfl, rfl, hb⟩)
  · obtain rfl := hx.trans (faultOf_start (by omega) (by omega))
    exact .inr (.inr (.inl ⟨rfl, hi, .inl ⟨rfl, hb⟩⟩))
  · obtain rfl := hx.trans (faultOf_start (by omega) (by omega))
    exact .inr (.inr (.inl ⟨rfl, hi, .inr (.inl ⟨rfl, hb⟩)⟩))
  · obtain rfl := hx.trans (faultOf_start (by omega) (by omega))
    exact .inr (.inr (.inl ⟨rfl, hi, .inr (.inr ⟨rfl, hb⟩)⟩))
  · rw [faultOf_length] at hx
    split_ifs at hx with hs hl <;> subst hx
    · exact .inr (.inr (.inr (.inl ⟨rfl, hi, rfl, by simp [lcsHolds, l, ← sumsToZero_iff, hs]⟩)))
    all_goals rw [Bool.not_eq_false, sumsToZero_iff] at hs
    · exact .inr (.inr (.inr (.inr (.inl ⟨rfl, hi, rfl, hs, hl⟩))))
    · exact .inr (.inr (.inr (.inr (.inr (.inl ⟨rfl, hi, rfl, hs, by omega⟩)))))
  · obtain rfl := hx.trans faultOf_dcs
    exact .inr (.inr (.inr (.inr (.inr (.inr (.inl ⟨rfl, hi, rfl, hb⟩))))))
  · obtain rfl := hx.trans faultOf_post
    exact .inr (.inr (.inr (.inr (.inr (.inr (.inr ⟨rfl, hi, by simp only [p, l]; omega, hq, hb⟩))))))

end Sys2Proof.Machine
end

section
/-! PROOFS. What the scan's outcome depends on: the bytes it reads, and every byte of a valid frame (42_frame_parse.md
R123, R125, R131); and the frame those bytes are (30_encoding.md R60). -/

namespace Sys2Proof.Machine

/-! ## What the scan does not read -/

section Congruence

variable {rd rd' : Nat → Byte} {n maxLen m q i : Nat}

/-- A test reads no byte beyond its index. -/
theorem PassesAt.congr (h : PassesAt rd maxLen m q i) (heq : ∀ j ≤ i, rd' j = rd j) : PassesAt rd' maxLen m q i := by
  have hi : rd' i = rd i := heq i le_rfl
  rcases lt_or_ge i (m + 3) with hlt | hge
  · exact { marker := hi ▸ h.marker, sof0 := hi ▸ h.sof0, sof1 := hi ▸ h.sof1, sof2 := hi ▸ h.sof2 }
  · have hlen : rd' (m + 3) = rd (m + 3) := heq _ hge
    exact
      { lcs := by rw [hi, hlen]; exact h.lcs
        dcs := fun hdcs => by
          rw [hlen] at hdcs ⊢
          rw [hi, List.map_congr_left fun k hk => heq _ (by have := List.mem_range.mp hk; omega)]
          exact h.dcs hdcs
        post := by rw [hi, hlen]; exact h.post }

theorem passesAt_congr (heq : ∀ j ≤ i, rd' j = rd j) :
    PassesAt rd' maxLen m q i ↔ PassesAt rd maxLen m q i :=
  ⟨fun h => h.congr fun j hj => (heq j hj).symm, fun h => h.congr heq⟩

theorem Reaches.congr (h : Reaches rd n maxLen m q i) (heq : ∀ j ≤ i, rd' j = rd j) : Reaches rd' n maxLen m q i :=
  ⟨h.within, fun j hj => (h.tests j hj).congr fun k hk => heq k (by omega)⟩

theorem faultOf_congr (heq : ∀ j ≤ i, rd' j = rd j) (hi : m + 4 ≤ i ∨ i < m + 3) :
    faultOf rd' m i = faultOf rd m i := by
  unfold faultOf
  rcases hi with hi | hi
  · rw [heq (m + 3) (by omega), heq (m + 4) hi]
  · simp [hi]

/-- The first fault is decided by the bytes up to its index (42_frame_parse.md R123). -/
theorem FirstFault.congr {x : ScanError} (h : FirstFault rd n maxLen m q i x) (heq : ∀ j ≤ i, rd' j = rd j) :
    FirstFault rd' n maxLen m q i x := by
  refine ⟨h.1.congr heq, h.2.imp ?trunc ?fault⟩
  case trunc =>
    rintro ⟨rfl, hn, hx⟩
    refine ⟨rfl, ?_, hx⟩
    rcases lt_or_ge i (m + 3) with hlt | hge
    · omega
    · rwa [heq _ hge]
  case fault =>
    rintro ⟨hn, hfail, hx⟩
    refine ⟨hn, mt (passesAt_congr heq).mp hfail, hx.trans (faultOf_congr heq ?_).symm⟩
    by_contra hlen
    obtain rfl : i = m + 3 := by omega
    exact hfail passesAt_len

/-- The bytes at the end of a valid frame or beyond are not tested. -/
theorem validFrame_congr (hm : m ≤ 1) (hq : q ≤ 1) (h : validFrame rd n maxLen m q)
    (heq : ∀ j < m + 5 + (rd (m + 3)).toNat + 1 + q, rd' j = rd j) : validFrame rd' n maxLen m q := by
  obtain ⟨hn, hpass⟩ := (validFrame_iff hm hq).mp h
  have hlen : rd' (m + 3) = rd (m + 3) := heq _ (by omega)
  refine (validFrame_iff hm hq).mpr ⟨by rwa [hlen], fun i => ?_⟩
  rcases lt_or_ge i (m + 5 + (rd (m + 3)).toNat + 1 + q) with hlt | hge
  · exact (hpass i).congr fun j hj => heq j (by omega)
  · rw [← hlen] at hge
    exact {}

end Congruence

/-! ## A changed byte -/

section SingleByte

variable {rd rd' : Nat → Byte} {n maxLen m q k : Nat}

/-- One byte alone completes a sum. -/
theorem completes_inj {a : Nat} {c d : Byte} (hc : (a + c.toNat) % 0x100 = 0) (hd : (a + d.toNat) % 0x100 = 0) :
    c = d :=
  ((completes_iff_eq_lcsOf a c).mp hc).trans ((completes_iff_eq_lcsOf a d).mp hd).symm

theorem natSum_range_map (f : Nat → Byte) (l : Nat) :
    natSum ((List.range l).map f) = ∑ j ∈ Finset.range l, (f j).toNat := by
  rw [natSum_eq_sum_map, List.map_map]
  rfl

/-- Changing one byte changes the exact sum by the difference. -/
theorem natSum_change {f g : Nat → Byte} {l j : Nat} (hj : j < l) (heq : ∀ i, i ≠ j → g i = f i) :
    natSum ((List.range l).map g) + (f j).toNat = natSum ((List.range l).map f) + (g j).toNat := by
  have hmem : j ∈ Finset.range l := Finset.mem_range.mpr hj
  rw [natSum_range_map, natSum_range_map, ← Finset.add_sum_erase _ _ hmem, ← Finset.add_sum_erase _ _ hmem,
    Finset.sum_congr rfl fun i hi => by rw [heq i (Finset.ne_of_mem_erase hi)]]
  omega

/-- The tests of the marker and of the start sequence name the byte they accept. -/
theorem PassesAt.head_eq (hm : m ≤ 1) (hk : k < m + 3) (h : PassesAt rd maxLen m q k)
    (h' : PassesAt rd' maxLen m q k) : rd' k = rd k := by
  obtain ⟨rfl, rfl⟩ | rfl | rfl | rfl : (k = 0 ∧ m = 1) ∨ k = m ∨ k = m + 1 ∨ k = m + 2 := by omega
  · rw [h.marker rfl rfl, h'.marker rfl rfl]
  · rw [h.sof0 rfl, h'.sof0 rfl]
  · rw [h.sof1 rfl, h'.sof1 rfl]
  · rw [h.sof2 rfl, h'.sof2 rfl]

/-- Each of the two length bytes is the only one that completes the other. -/
theorem PassesAt.length_eq_iff (h : PassesAt rd maxLen m q (m + 4)) (h' : PassesAt rd' maxLen m q (m + 4)) :
    rd' (m + 3) = rd (m + 3) ↔ rd' (m + 4) = rd (m + 4) := by
  obtain ⟨hlcs, -⟩ := passesAt_lcs.mp h
  obtain ⟨hlcs', -⟩ := passesAt_lcs.mp h'
  refine ⟨fun heq => ?_, fun heq => ?_⟩ <;> rw [heq] at hlcs'
  · exact completes_inj hlcs' hlcs
  · rw [Nat.add_comm] at hlcs hlcs'
    exact completes_inj hlcs' hlcs

/-- Within the payload and its checksum, no single byte can change alone. -/
theorem PassesAt.data_eq (hk : m + 5 ≤ k ∧ k ≤ m + 5 + (rd (m + 3)).toNat) (hlen : rd' (m + 3) = rd (m + 3))
    (h : PassesAt rd maxLen m q (m + 5 + (rd (m + 3)).toNat))
    (h' : PassesAt rd' maxLen m q (m + 5 + (rd (m + 3)).toNat)) (heq : ∀ i, i ≠ k → rd' i = rd i) :
    rd' k = rd k := by
  have hdcs := passesAt_dcs.mp h
  have hdcs' := h'.dcs (by rw [hlen])
  rw [hlen] at hdcs'
  obtain ⟨j, rfl⟩ := Nat.exists_eq_add_of_le hk.1
  obtain hj | rfl : j < (rd (m + 3)).toNat ∨ j = (rd (m + 3)).toNat := by omega
  case inl =>
    have hsum : _ + (rd (m + 5 + j)).toNat = _ + (rd' (m + 5 + j)).toNat :=
      natSum_change (f := fun i => rd (m + 5 + i)) hj fun i hi => heq (m + 5 + i) (by omega)
    rw [heq (m + 5 + (rd (m + 3)).toNat) (by omega)] at hdcs'
    refine BitVec.eq_of_toNat_eq ?_
    have := (rd (m + 5 + j)).isLt
    have := (rd' (m + 5 + j)).isLt
    omega
  case inr =>
    rw [List.map_congr_left fun i hi => heq (m + 5 + i) (by have := List.mem_range.mp hi; omega)] at hdcs'
    exact completes_inj hdcs' hdcs

/-- No byte of a valid frame can change alone (42_frame_parse.md R131 (c)). -/
theorem not_validFrame_of_change (hm : m ≤ 1) (hq : q ≤ 1) (h : validFrame rd n maxLen m q)
    (hk : k < m + 5 + (rd (m + 3)).toNat + 1 + q) (heq : ∀ i, i ≠ k → rd' i = rd i) (hne : rd' k ≠ rd k) :
    ¬ validFrame rd' n maxLen m q := by
  intro h'
  obtain ⟨-, hpass⟩ := (validFrame_iff hm hq).mp h
  obtain ⟨-, hpass'⟩ := (validFrame_iff hm hq).mp h'
  have hlength := (hpass (m + 4)).length_eq_iff (hpass' (m + 4))
  refine hne ?_
  obtain hhead | rfl | rfl | hdata | ⟨rfl, rfl⟩ : k < m + 3 ∨ k = m + 3 ∨ k = m + 4 ∨
      (m + 5 ≤ k ∧ k ≤ m + 5 + (rd (m + 3)).toNat) ∨ (k = m + 5 + (rd (m + 3)).toNat + 1 ∧ q = 1) := by omega
  · exact (hpass k).head_eq hm hhead (hpass' k)
  · exact hlength.mpr (heq _ (by omega))
  · exact hlength.mp (heq _ (by omega))
  · exact (hpass _).data_eq hdata (heq _ (by omega)) (hpass' _) heq
  · have hlen : rd' (m + 3) = rd (m + 3) := heq _ (by omega)
    rw [(hpass _).post rfl rfl, (hpass' _).post (by rw [hlen]) rfl]

end SingleByte

/-! ## The frame read as bytes -/

theorem map_range_eq_take {f : Nat → Byte} {bs : List Byte} {k : Nat} (hk : k ≤ bs.length)
    (h : ∀ i < k, f i = bs.getD i 0) : (List.range k).map f = bs.take k := by
  refine List.ext_getElem (by simp [hk]) fun i hi _ => ?_
  have hi : i < k := by simpa using hi
  simp [h i hi, show i < bs.length by omega]

section FrameBytes

variable {rd : Nat → Byte} {n maxLen m q : Nat}

/-- A valid frame reads, behind the marker, as the frame of its payload (30_encoding.md R60); its last byte only where
it is tested. -/
theorem validFrame_reads (hq : q ≤ 1) (h : validFrame rd n maxLen m q) {i : Nat}
    (hi : i < 5 + (rd (m + 3)).toNat + 1 + q) :
    rd (m + i) = (frameOf ((List.range (rd (m + 3)).toNat).map fun k => rd (m + 5 + k))).getD i 0 := by
  obtain ⟨-, -, h0, h1, h2, hlcs, -, -, -, hdcs, hpost⟩ := h
  set p := (List.range (rd (m + 3)).toNat).map fun k => rd (m + 5 + k) with hp
  have hlen : p.length = (rd (m + 3)).toNat := by simp [hp]
  obtain ⟨f0, f1, f2, flen, flcs, fpay, fdcs, fpost⟩ := frameOf_fields p
  rw [hlen] at flen flcs fpay fdcs fpost
  obtain rfl | rfl | rfl | rfl | rfl | hpay | rfl | ⟨rfl, rfl⟩ : i = 0 ∨ i = 1 ∨ i = 2 ∨ i = 3 ∨ i = 4 ∨
    (5 ≤ i ∧ i < 5 + (rd (m + 3)).toNat) ∨ i = 5 + (rd (m + 3)).toNat ∨ (i = 6 + (rd (m + 3)).toNat ∧ q = 1) := by
      omega
  · exact h0.trans f0.symm
  · exact h1.trans f1.symm
  · exact h2.trans f2.symm
  · rw [flen, BitVec.ofNat_toNat, BitVec.setWidth_eq]
  · rw [flcs, (completes_iff_eq_lcsOf _ _).mp hlcs]
  · obtain ⟨k, rfl⟩ := Nat.exists_eq_add_of_le hpay.1
    have hk : k < (rd (m + 3)).toNat := by omega
    rw [fpay k hk, ← Nat.add_assoc]
    simp [hp, hk]
  · rw [fdcs, dcsOf_eq_lcsOf, ← Nat.add_assoc, (completes_iff_eq_lcsOf _ _).mp hdcs]
  · rw [fpost, ← Nat.add_assoc, hpost.resolve_left (by decide)]

/-- The bytes below POS are the marker and the frame of the payload, as far as POS goes (42_frame_parse.md R121). -/
theorem validFrame_bytes {mark : Bool} (hq : q ≤ 1) (h : validFrame rd n maxLen mark.toNat q) :
    let l := (rd (mark.toNat + 3)).toNat
    let stop := mark.toNat + 5 + l + 1 + q
    (List.range stop).map rd = ((if mark then [0x01] else []) ++
      frameOf ((List.range l).map fun k => rd (mark.toNat + 5 + k))).take stop := by
  intro l stop
  have hreads := fun i => validFrame_reads hq h (i := i)
  refine map_range_eq_take ?fits fun i hi => ?byte
  case fits => cases mark <;> simp [stop, l] <;> omega
  case byte =>
    cases mark with
    | false => simpa [l] using hreads i (by simp [stop, l] at hi ⊢; omega)
    | true =>
      cases i with
      | zero => exact h.2.1.resolve_left (by decide)
      | succ i => simpa [l, Nat.add_comm 1] using hreads i (by simp [stop, l] at hi ⊢; omega)

end FrameBytes

end Sys2Proof.Machine
end

section
/-! PROOFS. PARSE (42_frame_parse.md R120 to R131): what it answers, and the statements about it. -/

namespace Sys2Proof.Machine

/-! ## What PARSE answers -/

/-- The state PARSE answers with when FBUF holds a frame (42_frame_parse.md R121). -/
def State.parsed (s : State) : State :=
  let m := (ctrlMark s.regs.ctrl).toNat
  let l := (s.byteAt .fbuf (m + 3)).toNat
  complete true (setPos (m + 5 + l + 1 + (ctrlPost s.regs.ctrl).toNat) (setPay (m + 5) l s))

/-- The first fault of FBUF[0..FCNT), at index i and with the report x. -/
def State.firstFault (s : State) (i : Nat) (x : ScanError) : Prop :=
  FirstFault (s.byteAt .fbuf) s.regs.fcnt.toNat s.cfg.maxLen (ctrlMark s.regs.ctrl).toNat
    (ctrlPost s.regs.ctrl).toNat i x

section Parse

variable {s t : State}

theorem exec_parse_frame (h : s.holdsFrame) : exec .parse s = .next s.parsed := exec_parse_of_holdsFrame h

theorem exec_parse_beyond (h : s.regs.fcnt.toNat > s.cfg.fbSize) : exec .parse s = .next (parseFail .range 0 s) :=
  if_pos h

theorem exec_parse_fault {i : Nat} {x : ScanError} (hfit : s.regs.fcnt.toNat ≤ s.cfg.fbSize)
    (h : s.firstFault i x) : exec .parse s = .next (parseFail x.err x.pos s) := by
  change execParse s = _
  rw [execParse, if_neg (not_lt.mpr hfit), scanFrame_of_fault h]

/-- FBUF holds a frame, or FCNT is beyond the capacity, or the scan has a first fault. -/
theorem State.parse_cases (s : State) : s.holdsFrame ∨ s.regs.fcnt.toNat > s.cfg.fbSize ∨
    s.regs.fcnt.toNat ≤ s.cfg.fbSize ∧ ∃ i x, s.firstFault i x := by
  rcases execParse_cases s with ⟨hn, -⟩ | ⟨hn, x, hx, -⟩ | ⟨hn, f, hf, -⟩
  · exact .inr (.inl hn)
  · obtain ⟨i, h⟩ := fault_of_scanFrame hx
    exact .inr (.inr ⟨hn, i, x, h⟩)
  · exact .inl ⟨hn, ((scanFrame_ok ..).mp hf).1⟩

theorem exec_parse_noFrame (h : ¬ s.holdsFrame) : ∃ e p, exec .parse s = .next (parseFail e p s) := by
  rcases s.parse_cases with hframe | hn | ⟨hn, i, x, hx⟩
  · exact absurd hframe h
  · exact ⟨_, _, exec_parse_beyond hn⟩
  · exact ⟨_, _, exec_parse_fault hn hx⟩

/-! ### An error completion, in the words of the statements -/

theorem parseFail_failedWith (e : ErrCode) (p : Nat) (s : State) : failedWith e (parseFail e p s) :=
  raise_failedWith e (setPos p (setPay 0 0 s))

theorem parseFail_onlyS (e : ErrCode) (p : Nat) (s : State) :
    onlyS { s.regs with pos := (parseFail e p s).regs.pos, payoff := 0, paylen := 0 } s (parseFail e p s) :=
  ⟨parseFail_spec s e p, statusError_high s.regs.status⟩

theorem parseFail_sameBytes (e : ErrCode) (p : Nat) (s : State) : sameBytes s (parseFail e p s) :=
  fun _ _ => raiseAt_byteAt ..

theorem parseFail_pos {e : ErrCode} {p : Nat} (hp : p ≤ s.regs.fcnt.toNat) : (parseFail e p s).regs.pos.toNat = p :=
  Nat.mod_eq_of_lt (hp.trans_lt s.regs.fcnt.isLt)

/-- PARSE without an error found a frame. -/
theorem holdsFrame_of_noError (h : exec .parse s = .next t) (herr : t.flag .err = false) :
    s.holdsFrame ∧ t = s.parsed := by
  by_cases hframe : s.holdsFrame
  · cases (exec_parse_frame hframe).symm.trans h
    exact ⟨hframe, rfl⟩
  · obtain ⟨e, p, hfail⟩ := exec_parse_noFrame hframe
    cases hfail.symm.trans h
    obtain ⟨-, -, he, -⟩ := parseFail_failedWith e p s
    simp [he] at herr

end Parse

/-! ### A normal completion -/

section Parsed

variable (s : State)

theorem State.parsed_completedWith : completedWith true s.parsed := complete_completedWith ..

theorem State.parsed_noError : s.parsed.flag .err = false := by
  obtain ⟨-, -, herr, -⟩ := s.parsed_completedWith
  exact herr

theorem State.parsed_payoff : s.parsed.regs.payoff.toNat = (ctrlMark s.regs.ctrl).toNat + 5 := by
  have := Bool.toNat_le (ctrlMark s.regs.ctrl)
  exact Nat.mod_eq_of_lt (by omega)

theorem State.parsed_paylen : s.parsed.regs.paylen = s.byteAt .fbuf ((ctrlMark s.regs.ctrl).toNat + 3) := by
  simp [State.parsed]

theorem State.parsed_pos : s.parsed.regs.pos.toNat = (ctrlMark s.regs.ctrl).toNat + 5 +
    (s.byteAt .fbuf ((ctrlMark s.regs.ctrl).toNat + 3)).toNat + 1 + (ctrlPost s.regs.ctrl).toNat := by
  have := Bool.toNat_le (ctrlMark s.regs.ctrl)
  have := Bool.toNat_le (ctrlPost s.regs.ctrl)
  have := (s.byteAt .fbuf ((ctrlMark s.regs.ctrl).toNat + 3)).isLt
  exact Nat.mod_eq_of_lt (by omega)

@[simp] theorem State.parsed_byteAt (b : Buffer) (i : Nat) : s.parsed.byteAt b i = s.byteAt b i := by
  simp [State.parsed]

theorem State.parsed_sameBytes : sameBytes s s.parsed := s.parsed_byteAt

theorem State.parsed_onlyS :
    onlyS { s.regs with pos := s.parsed.regs.pos, payoff := s.parsed.regs.payoff, paylen := s.parsed.regs.paylen } s
      s.parsed :=
  ⟨rfl, statusDone_high true s.regs.status⟩

end Parsed

/-! ## The statements -/

/-- A write leaves the other bytes of its buffer alone. -/
theorem State.byteAt_writeByte_ne (s : State) {b : Buffer} {j k : Nat} (hj : j ≠ k) (v : Byte) :
    (s.writeByte b k v).byteAt b j = s.byteAt b j := by
  rw [State.byteAt_writeByte, if_neg fun h => hj h.2.1]

/-- Settles O26: PARSE without an error found a frame, and it completes on every frame. -/
theorem parseAcceptsExactlyFrames : Obligations.ParseAcceptsExactlyFrames := by
  unfold Obligations.ParseAcceptsExactlyFrames
  refine fun s => ⟨?_, fun h => ⟨_, exec_parse_frame h, s.parsed_completedWith⟩⟩
  rintro ⟨t, ht, -, -, herr, -⟩
  exact (holdsFrame_of_noError ht herr).1

/-- Settles O27: no result is cut by its register's width, and the bytes below POS are those of the frame. -/
theorem parseSuccessOutputs : Obligations.ParseSuccessOutputs := by
  unfold Obligations.ParseSuccessOutputs
  intro s _ h
  refine ⟨s.parsed, exec_parse_frame h, s.parsed_completedWith, ?payoff, ?paylen, ?nonempty, ?pos, ?bytes,
    s.parsed_onlyS, s.parsed_sameBytes⟩
  case payoff => rw [s.parsed_payoff, Nat.add_comm]
  case paylen => rw [s.parsed_paylen, Nat.add_comm]
  case nonempty =>
    obtain ⟨-, -, -, -, -, -, -, hmin, -⟩ := h
    rwa [s.parsed_paylen]
  case pos => rw [s.parsed_pos, s.parsed_payoff, s.parsed_paylen]
  case bytes =>
    rw [s.parsed_pos, s.parsed_payoff, s.parsed_paylen]
    exact validFrame_bytes (Bool.toNat_le _) h.2

/-- Settles O28: PARSE of no frame answers RANGE or the first fault of the scan. -/
theorem parseFailureOutputs : Obligations.ParseFailureOutputs := by
  unfold Obligations.ParseFailureOutputs
  intro s _ hframe
  rcases s.parse_cases with h | hn | ⟨hn, i, x, hx⟩
  · exact absurd h hframe
  · exact ⟨_, .range, exec_parse_beyond hn, parseFail_failedWith .., rfl, rfl, parseFail_onlyS ..,
      parseFail_sameBytes _ _ s, .inl ⟨rfl, hn, rfl⟩⟩
  · refine ⟨_, x.err, exec_parse_fault hn hx, parseFail_failedWith .., rfl, rfl, parseFail_onlyS ..,
      parseFail_sameBytes _ _ s, ?_⟩
    rw [parseFail_pos hx.pos_le]
    exact .inr ⟨hn, (hx.1.mono hx.pos_le_index).testsPassed, hx.reports⟩

/-- Settles O29: the first fault is the same one where the bytes up to its index are. -/
theorem parseErrorIgnoresLaterBytes : Obligations.ParseErrorIgnoresLaterBytes := by
  unfold Obligations.ParseErrorIgnoresLaterBytes
  intro s s' t _ hcfg hctrl hfcnt ht herr heq
  rcases s.parse_cases with hframe | hn | ⟨hn, i, x, hx⟩
  · cases (exec_parse_frame hframe).symm.trans ht
    simp [s.parsed_noError] at herr
  · cases (exec_parse_beyond hn).symm.trans ht
    obtain ⟨-, -, herr', -⟩ := parseFail_failedWith .range 0 s'
    exact ⟨_, exec_parse_beyond (by rwa [hfcnt, hcfg]), herr', rfl, rfl⟩
  · cases (exec_parse_fault hn hx).symm.trans ht
    obtain ⟨-, -, herr', -⟩ := parseFail_failedWith x.err x.pos s'
    rw [parseFail_pos hx.pos_le] at heq
    refine ⟨_, exec_parse_fault (i := i) (by rwa [hfcnt, hcfg]) ?_, herr', rfl, rfl⟩
    unfold State.firstFault
    rw [hfcnt, hctrl, hcfg]
    exact hx.congr fun j hj => heq j (hj.trans hx.le_pos)

/-- Settles O30: with one byte changed FBUF holds no frame, and PARSE of no frame fails. -/
theorem singleByteErrorDetected : Obligations.SingleByteErrorDetected := by
  unfold Obligations.SingleByteErrorDetected
  intro s t k v _ ht herr hk hv
  obtain ⟨⟨hfit, hvalid⟩, rfl⟩ := holdsFrame_of_noError ht herr
  rw [s.parsed_pos] at hk
  obtain ⟨hn, -⟩ := (validFrame_iff (Bool.toNat_le _) (Bool.toNat_le _)).mp hvalid
  have hcap : k < capacity s.cfg .fbuf := hk.trans_le (hn.trans hfit)
  have hframe : ¬ (s.writeByte .fbuf k v).holdsFrame := by
    rw [State.holdsFrame, State.writeByte_regs, State.writeByte_cfg]
    rintro ⟨-, hvalid'⟩
    refine not_validFrame_of_change (Bool.toNat_le _) (Bool.toNat_le _) hvalid hk
      (fun i hi => State.byteAt_writeByte_ne s hi v) ?_ hvalid'
    simpa [State.byteAt_writeByte, hcap] using hv
  obtain ⟨e, p, hfail⟩ := exec_parse_noFrame hframe
  obtain ⟨-, -, herr, ht, -⟩ := parseFail_failedWith e p (s.writeByte .fbuf k v)
  exact ⟨_, hfail, herr, ht, rfl, rfl⟩

/-- Settles O31: the tests of a valid frame read no byte at its end or beyond. -/
theorem trailingBytesIgnored : Obligations.TrailingBytesIgnored := by
  unfold Obligations.TrailingBytesIgnored
  intro s t k v _ ht herr hk
  obtain ⟨⟨hfit, hvalid⟩, rfl⟩ := holdsFrame_of_noError ht herr
  rw [s.parsed_pos] at hk
  have hframe : (s.writeByte .fbuf k v).holdsFrame := by
    rw [State.holdsFrame, State.writeByte_regs, State.writeByte_cfg]
    exact ⟨hfit, validFrame_congr (Bool.toNat_le _) (Bool.toNat_le _) hvalid fun j hj =>
      State.byteAt_writeByte_ne s (by omega) v⟩
  refine ⟨_, exec_parse_frame hframe, State.parsed_noError _, ?_⟩
  have hk3 : (ctrlMark s.regs.ctrl).toNat + 3 ≠ k := by omega
  simp [State.parsed, State.byteAt_writeByte_ne s hk3]

/-- Settles O32: CHKL and CHKD test the relations PARSE tested at the LCS and DCS bytes. -/
theorem acceptedFrameMeetsChecks : Obligations.AcceptedFrameMeetsChecks := by
  unfold Obligations.AcceptedFrameMeetsChecks
  intro s t _ ht herr
  obtain ⟨⟨-, hvalid⟩, rfl⟩ := holdsFrame_of_noError ht herr
  obtain ⟨-, hpass⟩ := (validFrame_iff (Bool.toNat_le _) (Bool.toNat_le _)).mp hvalid
  obtain ⟨hlcs, -, hmax⟩ := passesAt_lcs.mp (hpass _)
  have hdcs := passesAt_dcs.mp (hpass _)
  rw [s.parsed_payoff, s.parsed_paylen]
  refine ⟨?chkl, fun v hcfg hpcnt hbytes hb => ?chkd⟩
  case chkl =>
    rw [exec_chkl_validates_iff, s.parsed_byteAt, s.parsed_byteAt]
    exact (completes_iff_eq_lcsOf _ _).mp hlcs
  case chkd =>
    simp only [s.parsed_byteAt] at hbytes hb
    have hfit : v.regs.pcnt.toNat ≤ v.cfg.pbSize := by rw [hpcnt, hcfg]; exact hmax
    refine ⟨_, exec_chkd_within hfit, ?_⟩
    rw [complete_flag_t, sumsToZero_sum8, State.payload_eq_map, hpcnt, hb,
      List.map_congr_left fun k hk => hbytes k (List.mem_range.mp hk)]
    exact hdcs

/-- Settles O33: the length byte 00 is not completed by FF, and every test before passes. -/
theorem ackIsNoFrame : Obligations.AckIsNoFrame := by
  unfold Obligations.AckIsNoFrame
  intro s hmark hn hfit hbytes
  have hx : s.firstFault 5 ⟨.lcs, 5⟩ := by
    unfold State.firstFault
    rw [hmark, Bool.toNat_true]
    refine Reaches.fault ⟨by omega, fun i hi => ?passes⟩ (by omega) (mt passesAt_lcs.mp ?fails)
      (faultOf_length.trans ?fault)
    case passes =>
      interval_cases i
      · exact passesAt_marker.mpr (hbytes 0 (by omega))
      · exact passesAt_sof0.mpr (hbytes 1 (by omega))
      · exact passesAt_sof1.mpr (hbytes 2 (by omega))
      · exact passesAt_sof2.mpr (hbytes 3 (by omega))
      · exact passesAt_len
    all_goals
      have hlen := hbytes 4 (by omega)
      have hlcs := hbytes 5 (by omega)
    case fails => simp [hlen, hlcs]
    case fault => simp [hlen, hlcs, sumsToZero]
  exact ⟨_, exec_parse_fault hfit hx, parseFail_failedWith .., rfl⟩

end Sys2Proof.Machine
end

section
/-! PROOFS. The steps of a comparison: the accept step of VERIFY and of VACK, the receive step, the settle-end step
(43_verify.md R141, R150), and a comparison that waits for its collaborator (R151). -/

namespace Sys2Proof.Machine

/-! ## The accept step (43_verify.md R141) -/

section Accept

variable (n : Nat) (src : VSrc) (s : State)

theorem startCompare_regs :
    (startCompare n src s).regs = { s.regs with status := statusAccept s.regs.status, ecode := 0x00 } := by
  rw [startCompare_spec]

theorem startCompare_cmp : (startCompare n src s).cmp =
    { phase := if n > 0 then .rx else .settle, rxn := n, rxk := 0, mis := false, mispos := 0, vsrc := src } := by
  rw [startCompare_spec]

/-- BUSY is 1 and the three result flags are 0. -/
theorem startCompare_flags :
    (startCompare n src s).flag .busy = true ∧ (startCompare n src s).flag .done = false ∧
    (startCompare n src s).flag .err = false ∧ (startCompare n src s).flag .t = false := by
  simp [State.flag, startCompare_regs]

theorem startCompare_sameOverrun : sameOverrun s (startCompare n src s) := by
  rw [sameOverrun, startCompare_regs]
  exact statusAccept_high _

theorem startCompare_sameBytes : sameBytes s (startCompare n src s) := by
  rw [startCompare_spec]
  exact fun _ _ => rfl

/-- The registers but for STATUS and ECODE, the buffers, the host's port and the turns stay. -/
theorem startCompare_frame : startCompare n src s =
    { s with
      regs := { s.regs with status := (startCompare n src s).regs.status, ecode := 0x00 }
      cmp := (startCompare n src s).cmp
      bus := (startCompare n src s).bus
      sleeper := (startCompare n src s).sleeper } := by
  rw [startCompare_spec]

variable {n}

/-- With bytes to compare, they are asked for in one request and no delay is. -/
theorem startCompare_asks_bytes (h : n > 0) :
    (startCompare n src s).cmp.phase = .rx ∧ (startCompare n src s).busRequest? = some n ∧
    (startCompare n src s).bus = { s.bus with requests := n :: s.bus.requests } ∧
    (startCompare n src s).sleeper = s.sleeper := by
  simp [startCompare_spec, State.busRequest?, h]

/-- With no byte to compare, the delay is asked for at once and no byte is (43_verify.md R146). -/
theorem startCompare_zero_asks_delay (h : n = 0) :
    (startCompare n src s).cmp.phase = .settle ∧ (startCompare n src s).bus = s.bus ∧
    (startCompare n src s).sleeper = { s.sleeper with asked := s.sleeper.asked + 1 } := by
  simp [startCompare_spec, h]

end Accept

theorem exec_verify_within {s : State} (h : s.regs.ecnt.toNat ≤ s.cfg.ebSize) :
    exec .verify s = .next (startCompare s.regs.ecnt.toNat .ebuf s) := if_neg (not_lt.mpr h)

theorem exec_verify_beyond {s : State} (h : s.regs.ecnt.toNat > s.cfg.ebSize) :
    exec .verify s = .next (raise .range s) := if_pos h

theorem exec_vack (s : State) : exec .vack s = .next (startCompare 7 .ackrom s) := rfl

/-- Settles O34: VERIFY within the capacity is the accept step of a comparison of ECNT bytes with EBUF. -/
theorem verifyAccepts : Obligations.VerifyAccepts := by
  unfold Obligations.VerifyAccepts
  refine ⟨rfl, fun s h => ⟨_, exec_verify_within h, ?_⟩⟩
  generalize s.regs.ecnt.toNat = n
  obtain ⟨hbusy, hdone, herr, ht⟩ := startCompare_flags n .ebuf s
  have hregs := startCompare_regs n .ebuf s
  have hcmp := startCompare_cmp n .ebuf s
  have hstream := startCompare_stream n .ebuf s
  refine ⟨hbusy, hdone, herr, ht, by rw [hregs], by rw [hcmp], by rw [hcmp], by rw [hcmp], by rw [hcmp],
    fun hn => ?bytes, fun hn => ?none, hstream.pending, hstream.taken, startCompare_sameBytes n .ebuf s,
    startCompare_sameOverrun n .ebuf s, startCompare_frame n .ebuf s⟩
  case bytes =>
    obtain ⟨hphase, hrequest, hbus, hsleeper⟩ := startCompare_asks_bytes .ebuf s hn
    exact ⟨hphase, hrequest, congrArg Bus.requests hbus, hsleeper⟩
  case none =>
    obtain ⟨hphase, hbus, hsleeper⟩ := startCompare_zero_asks_delay .ebuf s hn
    exact ⟨hphase, congrArg Bus.requests hbus, hsleeper⟩

/-- Settles O35: beyond the capacity VERIFY is the error completion, which touches nothing but STATUS and ECODE. -/
theorem verifyRefusesRange : Obligations.VerifyRefusesRange := by
  unfold Obligations.VerifyRefusesRange
  exact fun s h =>
    ⟨_, exec_verify_beyond h, raise_failedWith .range s, raise_onlyS .range s, raise_sameBytes .range s⟩

/-- Settles O36: VACK is the accept step of a comparison of seven bytes with the acknowledgement constant. -/
theorem vackAccepts : Obligations.VackAccepts := by
  unfold Obligations.VackAccepts
  refine ⟨rfl, fun s => ⟨_, exec_vack s, ?_⟩⟩
  obtain ⟨hbusy, hdone, herr, ht⟩ := startCompare_flags 7 .ackrom s
  obtain ⟨hphase, hrequest, hbus, hsleeper⟩ := startCompare_asks_bytes (n := 7) .ackrom s (by decide)
  exact ⟨hbusy, hdone, herr, ht, rfl, hphase, rfl, rfl, rfl, rfl, hrequest, hbus, startCompare_sameBytes 7 .ackrom s,
    startCompare_sameOverrun 7 .ackrom s, rfl⟩

/-! ## The steps of the collaborators (43_verify.md R150) -/

/-- The receive step, whole, whether or not its byte is the last. -/
theorem step_receive {s : State} {b : Byte} {rest : List Byte} {ts : List Agent}
    (hturns : s.turns = .transport :: ts) (hphase : s.cmp.phase = .rx) (hpending : s.bus.pending = b :: rest) :
    step s = .next { s with
      cmp := { compareByte s.cmp (s.expected s.cmp.rxk) b with
        phase := if s.cmp.rxk + 1 = s.cmp.rxn then .settle else .rx }
      bus := { s.bus with pending := rest, taken := s.bus.taken + 1 }
      sleeper := if s.cmp.rxk + 1 = s.cmp.rxn then { s.sleeper with asked := s.sleeper.asked + 1 } else s.sleeper
      turns := ts } := by
  by_cases hlast : s.cmp.rxk + 1 = s.cmp.rxn
  · simp only [step_receive_last hturns hphase hpending hlast, if_pos hlast]
  · have hrx : (compareByte s.cmp (s.expected s.cmp.rxk) b).phase = .rx := (compareByte_phase ..).trans hphase
    simp only [step_receive_more hturns hphase hpending hlast, if_neg hlast, ← hrx]

/-- Settles O37: the receive step is `compareByte` on the hidden state, and enters SETTLE when the count is reached. -/
theorem receiveStep : Obligations.ReceiveStep := by
  unfold Obligations.ReceiveStep
  intro s b rest ts hturns hphase hpending
  obtain ⟨hmis, hmispos⟩ := compareByte_mis s.cmp (s.expected s.cmp.rxk) b
  refine ⟨_, step_receive hturns hphase hpending, rfl, compareByte_rxk .., compareByte_rxn .., compareByte_vsrc ..,
    hmis, fun hold => ?kept, fun hnone hne => ?first, fun hlast => ⟨if_pos hlast, if_pos hlast⟩,
    fun hmore => ⟨if_neg hmore, if_neg hmore⟩, rfl, rfl, fun _ _ => rfl, rfl, rfl⟩
  case kept => exact hmispos.trans (if_neg fun h => by simp [hold] at h)
  case first => exact hmispos.trans (if_pos ⟨hnone, hne⟩)

theorem settleEnd_completedWith (s : State) : completedWith (!s.cmp.mis) (settleEnd s) := complete_completedWith ..

/-- Settles O38: the settle-end step is POS and a normal completion. -/
theorem settleEndStep : Obligations.SettleEndStep := by
  unfold Obligations.SettleEndStep
  exact fun s ts hturns hphase => ⟨_, step_settle hturns hphase, settleEnd_completedWith _, rfl, rfl,
    ⟨settleEnd_spec _, statusDone_high ..⟩, fun _ _ => rfl⟩

/-! ## A comparison without its collaborator (43_verify.md R151) -/

/-- No step can carry the comparison of `s` on: its collaborator is silent and no reset comes. -/
structure State.Stuck (s : State) : Prop where
  busy : s.flag .busy = true
  no_reset : .resetPin ∉ s.turns
  silent : (s.cmp.phase = .rx ∧ s.bus.pending = []) ∨ (s.cmp.phase = .settle ∧ .sleeper ∉ s.turns)

/-- `t` is at the same point of the comparison as `s`, some turns later. -/
structure SamePoint (s t : State) : Prop where
  busy : t.flag .busy = s.flag .busy
  cmp : t.cmp = s.cmp
  pos : t.regs.pos = s.regs.pos
  bus : t.bus = s.bus
  turns : t.turns <:+ s.turns

theorem SamePoint.refl (s : State) : SamePoint s s := ⟨rfl, rfl, rfl, rfl, List.suffix_rfl⟩

theorem SamePoint.trans {s t u : State} (h : SamePoint s t) (h' : SamePoint t u) : SamePoint s u :=
  ⟨h'.busy.trans h.busy, h'.cmp.trans h.cmp, h'.pos.trans h.pos, h'.bus.trans h.bus, h'.turns.trans h.turns⟩

/-- Taking a turn that does nothing. -/
theorem SamePoint.setTurns {s : State} {who : Agent} {ts : List Agent} (h : s.turns = who :: ts) :
    SamePoint s (s.setTurns ts) := ⟨rfl, rfl, rfl, rfl, h ▸ List.suffix_cons who ts⟩

theorem State.Stuck.samePoint {s t : State} (h : s.Stuck) (hst : SamePoint s t) : t.Stuck where
  busy := hst.busy.trans h.busy
  no_reset hr := h.no_reset (hst.turns.subset hr)
  silent := by
    rw [hst.cmp, hst.bus]
    exact h.silent.imp_right fun ⟨hphase, hsleeper⟩ => ⟨hphase, fun hr => hsleeper (hst.turns.subset hr)⟩

/-- While BUSY is 1 the host's turn answers, and leaves the comparison where it is (20_memory.md R49). -/
theorem hostTurn_samePoint {s : State} (hb : s.flag .busy = true) : ∃ t, hostTurn s = .next t ∧ SamePoint s t := by
  have hanswers : ∃ t, hostTurn s = .next t := by
    rcases hostTurn_cases s with hs | ⟨act, p, hs⟩
    · exact ⟨_, hs⟩
    · rcases hostAct_busy act (s.setHost p) hb with ha | ha | ⟨v, ha⟩ <;> exact ⟨_, hs.trans ha⟩
  obtain ⟨t, ht⟩ := hanswers
  refine ⟨t, ht, ?_⟩
  obtain ⟨p, rfl | rfl⟩ := hostTurn_busy hb ht
  · exact ⟨rfl, rfl, rfl, rfl, List.suffix_rfl⟩
  · exact ⟨setOverrun_flag (s.setHost p) .busy, rfl, rfl, rfl, List.suffix_rfl⟩

theorem State.Stuck.transportTurn_eq {s : State} (h : s.Stuck) : transportTurn s = s := by
  rcases transportTurn_cases s with ⟨b, rest, hphase, hpending, -⟩ | ⟨-, hs⟩
  · rcases h.silent with ⟨-, hempty⟩ | ⟨hsettle, -⟩
    · simp [hempty] at hpending
    · simp [hsettle] at hphase
  · exact hs

/-- A step from a stuck comparison answers, and leaves it where it is. -/
theorem State.Stuck.step_samePoint {s : State} (h : s.Stuck) : ∃ t, step s = .next t ∧ SamePoint s t := by
  cases hturns : s.turns with
  | nil => exact ⟨s, step_nil s hturns, .refl s⟩
  | cons who ts =>
    have htaken : SamePoint s (s.setTurns ts) := .setTurns hturns
    rw [step_cons s who ts hturns]
    cases who with
    | host =>
      obtain ⟨t, ht, hsame⟩ := hostTurn_samePoint (htaken.busy.trans h.busy)
      exact ⟨t, ht, htaken.trans hsame⟩
    | transport => exact ⟨_, congrArg Host.Outcome.next (h.samePoint htaken).transportTurn_eq, htaken⟩
    | sleeper =>
      rcases h.silent with ⟨hrx, -⟩ | ⟨-, hsleeper⟩
      · rcases sleeperTurn_cases (s.setTurns ts) with ⟨hsettle, -⟩ | ⟨-, hs⟩
        · exact absurd (hrx.symm.trans hsettle) (by decide)
        · exact ⟨_, congrArg Host.Outcome.next hs, htaken⟩
      · exact absurd (hturns ▸ List.mem_cons_self) hsleeper
    | resetPin => exact absurd (hturns ▸ List.mem_cons_self) h.no_reset

theorem State.Stuck.runSteps_samePoint (k : Nat) {s : State} (h : s.Stuck) :
    ∃ t, runSteps k s = .next t ∧ SamePoint s t := by
  induction k generalizing s with
  | zero => exact ⟨s, rfl, .refl s⟩
  | succ k ih =>
    obtain ⟨u, hstep, hsu⟩ := h.step_samePoint
    obtain ⟨t, hrun, hut⟩ := ih (h.samePoint hsu)
    exact ⟨t, (runSteps_succ k hstep).trans hrun, hsu.trans hut⟩

/-- Settles O42: a stuck comparison stays stuck, by induction on the number of steps. -/
theorem silentCollaboratorHangs : Obligations.SilentCollaboratorHangs := by
  unfold Obligations.SilentCollaboratorHangs
  intro s k hbusy hreset hsilent
  obtain ⟨t, hrun, hst⟩ := State.Stuck.runSteps_samePoint k ⟨hbusy, hreset, hsilent⟩
  exact ⟨t, hrun, hst.busy.trans hbusy, hst.cmp, hst.pos⟩

end Sys2Proof.Machine
end

section
/-! PROOFS. A comparison from its accept step to its completion (43_verify.md R142 to R147). -/

namespace Sys2Proof.Machine

/-! ## The first mismatch (43_verify.md R143) -/

theorem firstMismatch_cons (w g : Byte) (ws gs : List Byte) :
    firstMismatch (w :: ws) (g :: gs) = if g = w then (firstMismatch ws gs).map (· + 1) else some 0 := rfl

/-- There is no mismatch exactly when the bytes are the wanted ones. -/
theorem firstMismatch_eq_none_iff {want got : List Byte} (h : want.length = got.length) :
    firstMismatch want got = none ↔ got = want := by
  induction want generalizing got with
  | nil => simp [List.length_eq_zero_iff.mp h.symm, firstMismatch]
  | cons w ws ih =>
    obtain _ | ⟨g, gs⟩ := got
    · simp at h
    · rw [firstMismatch_cons, List.cons.injEq, ← ih (by simpa using h)]
      split <;> simp [*]

theorem firstMismatch_lt {want got : List Byte} {j : Nat} (h : firstMismatch want got = some j) : j < got.length := by
  induction want generalizing got j with
  | nil => simp [firstMismatch] at h
  | cons w ws ih =>
    obtain _ | ⟨g, gs⟩ := got
    · simp [firstMismatch] at h
    · rw [firstMismatch_cons] at h
      split at h
      · obtain ⟨i, hi, rfl⟩ := Option.map_eq_some_iff.mp h
        exact Nat.succ_lt_succ (ih hi)
      · cases h
        exact Nat.succ_pos _

/-! ## The hidden state over a run of bytes (43_verify.md R145) -/

/-- The hidden state after a run of bytes, `want` giving the expected byte of an index. -/
def compareBytes (want : Nat → Byte) (c : Compare) (bs : List Byte) : Compare :=
  match bs with
  | [] => c
  | b :: bs => compareBytes want (compareByte c (want c.rxk) b) bs

/-- After a mismatch the bytes are only counted. -/
theorem compareBytes_of_mis (want : Nat → Byte) (bs : List Byte) {c : Compare} (h : c.mis = true) :
    compareBytes want c bs = { c with rxk := c.rxk + bs.length } := by
  induction bs generalizing c with
  | nil => rfl
  | cons b bs ih =>
    have hb : compareByte c (want c.rxk) b = { c with rxk := c.rxk + 1 } := if_neg (by simp [h])
    rw [compareBytes, hb, ih (c := { c with rxk := c.rxk + 1 }) h, List.length_cons, Nat.add_assoc, Nat.add_comm 1]

/-- Without an earlier mismatch, MIS and MISPOS report the first one of the run. -/
theorem compareBytes_of_not_mis (want : Nat → Byte) (bs : List Byte) {c : Compare} (h : c.mis = false) :
    compareBytes want c bs = { c with
      rxk := c.rxk + bs.length
      mis := (firstMismatch ((List.range' c.rxk bs.length).map want) bs).isSome
      mispos := ((firstMismatch ((List.range' c.rxk bs.length).map want) bs).map (c.rxk + ·)).getD c.mispos } := by
  induction bs generalizing c with
  | nil => simp [compareBytes, firstMismatch, ← h]
  | cons b bs ih =>
    rw [compareBytes, List.length_cons, List.range'_succ, List.map_cons, firstMismatch_cons]
    by_cases hb : b = want c.rxk
    · have hmatch : compareByte c (want c.rxk) b = { c with rxk := c.rxk + 1 } := if_neg (by simp [hb])
      rw [hmatch, ih (c := { c with rxk := c.rxk + 1 }) h, if_pos hb]
      simp [Function.comp_def, Nat.add_assoc, Nat.add_comm 1]
    · have hmiss : compareByte c (want c.rxk) b = { c with mis := true, mispos := c.rxk, rxk := c.rxk + 1 } :=
        if_pos ⟨h, hb⟩
      rw [hmiss, compareBytes_of_mis want bs rfl, if_neg hb]
      simp [Nat.add_assoc, Nat.add_comm 1]

/-! ## The receive steps -/

/-- A receive step leaves the expected bytes alone. -/
theorem State.expected_received (s : State) (w b : Byte) (bus : Bus) (ts : List Agent) :
    State.expected { s with cmp := compareByte s.cmp w b, bus := bus, turns := ts } = s.expected :=
  funext (State.expected_congr (compareByte_vsrc ..) rfl rfl rfl)

/-- The receive steps of all the bytes that a comparison still has to read. -/
theorem runSteps_receive {bs rest : List Byte} {ts : List Agent} (hne : bs ≠ []) {s : State}
    (hturns : s.turns = List.replicate bs.length .transport ++ ts) (hphase : s.cmp.phase = .rx)
    (hpending : s.bus.pending = bs ++ rest) (hcount : s.cmp.rxk + bs.length = s.cmp.rxn) :
    runSteps bs.length s = .next { s with
      cmp := { compareBytes s.expected s.cmp bs with phase := .settle }
      bus := { s.bus with pending := rest, taken := s.bus.taken + bs.length }
      sleeper := { s.sleeper with asked := s.sleeper.asked + 1 }
      turns := ts } := by
  induction bs generalizing s with
  | nil => exact absurd rfl hne
  | cons b bs ih =>
    rw [List.length_cons] at hcount
    by_cases hlast : bs = []
    · subst hlast
      exact runSteps_succ 0 (step_receive_last hturns hphase hpending hcount)
    · have hmore : s.cmp.rxk + 1 ≠ s.cmp.rxn := by
        have := List.length_pos_iff.mpr hlast
        omega
      rw [List.length_cons, runSteps_succ _ (step_receive_more hturns hphase hpending hmore),
        ih hlast rfl ((compareByte_phase ..).trans hphase) rfl (by simp; omega), State.expected_received, compareBytes]
      simp only [Nat.add_assoc, Nat.add_comm 1]

/-! ## From accept to completion -/

/-- The comparison of `bs` with `want` at its settle-end step: `s` is the state of its accept, `rest` what the stream
still holds, `ts` the turns to come. -/
def State.settling (s : State) (src : VSrc) (want bs rest : List Byte) (ts : List Agent) : State :=
  { s with
    regs := { s.regs with status := statusAccept s.regs.status, ecode := 0x00 }
    cmp := {
      phase := .settle
      rxn := bs.length
      rxk := bs.length
      mis := (firstMismatch want bs).isSome
      mispos := (firstMismatch want bs).getD 0
      vsrc := src }
    bus := {
      pending := rest
      taken := s.bus.taken + bs.length
      requests := if bs = [] then s.bus.requests else bs.length :: s.bus.requests }
    sleeper := { s.sleeper with asked := s.sleeper.asked + 1 }
    turns := ts }

/-- The comparison of `bs` with `want` once its delay has ended. -/
def State.compared (s : State) (src : VSrc) (want bs rest : List Byte) (ts : List Agent) : State :=
  settleEnd ((s.settling src want bs rest ts).setSleeper
    { asked := s.sleeper.asked + 1, ended := s.sleeper.ended + 1 })

section Run

variable {s : State} {src : VSrc} {want bs rest : List Byte} {ts : List Agent}

/-- The hidden state from accept to the last byte. -/
theorem compareBytes_startCompare (hwant : (List.range bs.length).map (startCompare bs.length src s).expected = want) :
    compareBytes (startCompare bs.length src s).expected (startCompare bs.length src s).cmp bs =
      { (startCompare bs.length src s).cmp with
        rxk := bs.length
        mis := (firstMismatch want bs).isSome
        mispos := (firstMismatch want bs).getD 0 } := by
  rw [compareBytes_of_not_mis _ _ (by rw [startCompare_cmp]), startCompare_cmp, ← List.range_eq_range', hwant]
  simp

/-- The run of a comparison up to its settle-end step; with no byte to read it is there at once. -/
theorem runSteps_startCompare (hwant : (List.range bs.length).map (startCompare bs.length src s).expected = want)
    (hpending : s.bus.pending = bs ++ rest) (hturns : s.turns = List.replicate bs.length .transport ++ ts) :
    runSteps bs.length (startCompare bs.length src s) = .next (s.settling src want bs rest ts) := by
  by_cases hne : bs = []
  · subst hne
    subst hpending
    subst hturns
    simp [startCompare_spec, State.settling, firstMismatch, ← hwant]
  · have hpos : bs.length > 0 := List.length_pos_iff.mpr hne
    obtain ⟨hphase, -, hbus, hsleeper⟩ := startCompare_asks_bytes src s hpos
    rw [runSteps_receive hne (by rw [startCompare_frame]; exact hturns) hphase (by rw [hbus]; exact hpending)
      (by simp [startCompare_cmp]), compareBytes_startCompare hwant, hbus, hsleeper, startCompare_cmp]
    simp [startCompare_spec, State.settling, hne]

/-- The run of a comparison, whole. -/
theorem runSteps_compared (hwant : (List.range bs.length).map (startCompare bs.length src s).expected = want)
    (hpending : s.bus.pending = bs ++ rest)
    (hturns : s.turns = List.replicate bs.length .transport ++ .sleeper :: ts) :
    runSteps (bs.length + 1) (startCompare bs.length src s) = .next (s.compared src want bs rest ts) := by
  rw [runSteps_add _ 1 (runSteps_startCompare hwant hpending hturns)]
  exact runSteps_succ 0 (step_settle rfl rfl)

/-- T says whether the bytes are the wanted ones (43_verify.md R143). -/
theorem State.compared_completedWith (hlen : want.length = bs.length) :
    completedWith (decide (bs = want)) (s.compared src want bs rest ts) := by
  have ht : decide (bs = want) = !(firstMismatch want bs).isSome := by
    rw [Bool.eq_iff_iff, decide_eq_true_iff, ← firstMismatch_eq_none_iff hlen]
    simp
  rw [ht]
  exact settleEnd_completedWith _

/-- POS is the first mismatch, or the count without one (43_verify.md R143). -/
theorem State.compared_pos (h : bs.length < 0x10000) :
    (s.compared src want bs rest ts).regs.pos.toNat = (firstMismatch want bs).getD bs.length := by
  change (if (firstMismatch want bs).isSome then (firstMismatch want bs).getD 0 else bs.length) % 2 ^ 16 = _
  cases hm : firstMismatch want bs with
  | none => exact Nat.mod_eq_of_lt h
  | some j => exact Nat.mod_eq_of_lt ((firstMismatch_lt hm).trans h)

theorem State.compared_sameOverrun : sameOverrun s (s.compared src want bs rest ts) :=
  (statusDone_high ..).trans (statusAccept_high _)

end Run

/-! ## The statements -/

/-- Settles O39: VERIFY within the capacity is the run of a comparison with EBUF. -/
theorem verifyRun : Obligations.VerifyRun := by
  unfold Obligations.VerifyRun
  intro s bs rest ts hfit hlen hpending hturns
  have hwant : (List.range bs.length).map (startCompare bs.length .ebuf s).expected =
      (List.range bs.length).map (s.byteAt .ebuf) := by
    rw [startCompare_spec]
    rfl
  have haccept : exec .verify s = .next (startCompare bs.length .ebuf s) := hlen ▸ exec_verify_within hfit
  exact ⟨_, _, haccept, runSteps_compared hwant hpending hturns,
    State.compared_completedWith (by simp), State.compared_pos (hlen ▸ s.regs.ecnt.isLt), rfl, rfl, rfl, rfl, rfl,
    rfl, rfl, State.compared_sameOverrun, rfl, fun _ _ => rfl, rfl⟩

/-- Settles O40: VACK is the run of a comparison with the acknowledgement constant. -/
theorem vackRun : Obligations.VackRun := by
  unfold Obligations.VackRun
  intro s bs rest ts hlen hpending hturns
  have hne : bs ≠ [] := by rintro rfl; cases hlen
  have hrun := runSteps_compared (s := s) (src := .ackrom) (bs := bs) (want := ackRom) (by rw [hlen]; rfl) hpending
    (hlen ▸ hturns)
  rw [hlen] at hrun
  exact ⟨_, _, exec_vack s, hrun, State.compared_completedWith hlen.symm,
    hlen ▸ State.compared_pos (by rw [hlen]; decide), rfl, hlen ▸ rfl, hlen ▸ if_neg hne, rfl, rfl, rfl, rfl,
    State.compared_sameOverrun, rfl, fun _ _ => rfl, rfl⟩

end Sys2Proof.Machine
end

section
/-! PROOFS. NDEFHDR (44_ndef_header.md R161 to R169): what it answers, and the statements about it. -/

namespace Sys2Proof.Machine

/-! ## The usable region (44_ndef_header.md R161) -/

theorem regionEnd_of_le {cfg : Config} {n : Nat} (h : cfg.ndefHdrSkip + cfg.ndefTrailSkip ≤ n) :
    regionEnd cfg n = n - cfg.ndefTrailSkip := if_pos h

theorem regionEnd_of_lt {cfg : Config} {n : Nat} (h : n < cfg.ndefHdrSkip + cfg.ndefTrailSkip) :
    regionEnd cfg n = cfg.ndefHdrSkip := if_neg (not_le.mpr h)

/-- POS can hold the end of the region (log 5). -/
theorem State.regionEnd_lt {s : State} (hwf : s.cfg.wf = true) : regionEnd s.cfg s.regs.fcnt.toNat < 0x10000 := by
  obtain ⟨-, -, hskip⟩ := (Config.wf_iff s.cfg).mp hwf
  have hfcnt := s.regs.fcnt.isLt
  rcases le_or_gt (s.cfg.ndefHdrSkip + s.cfg.ndefTrailSkip) s.regs.fcnt.toNat with h | h
  · rw [regionEnd_of_le h]
    omega
  · rwa [regionEnd_of_lt h]

/-- A header pattern ends within the 263 bytes of the largest FBUF. -/
theorem State.headerAt.lt {s : State} {i : Nat} (h : s.headerAt i) (hwf : s.cfg.wf = true)
    (hfit : s.regs.fcnt.toNat ≤ s.cfg.fbSize) : i + 5 < 263 := by
  obtain ⟨-, hmax, -⟩ := (Config.wf_iff s.cfg).mp hwf
  exact (State.headerAt_lt_fbSize hfit h).trans_le (Nat.add_le_add_right hmax 8)

/-! ## How the operation ends -/

/-- A normal completion of NDEFHDR with result r, index p and the four results. -/
def ndefDone (r : Bool) (p hidx langlen textlen textoff : Nat) (s : State) : State :=
  complete r (setPos p (setNdef hidx langlen textlen textoff s))

section Completions

variable {r : Bool} {e : ErrCode} {p h l t f : Nat} {s : State}

theorem ndefDone_completedWith : completedWith r (ndefDone r p h l t f s) := complete_completedWith ..

/-- No result that fits its register is cut. -/
theorem ndefDone_results (hh : h < 0x10000) (hl : l < 0x100) (ht : t < 0x100) (hf : f < 0x10000) :
    (ndefDone r p h l t f s).regs.hidx.toNat = h ∧ (ndefDone r p h l t f s).regs.langlen.toNat = l ∧
    (ndefDone r p h l t f s).regs.textlen.toNat = t ∧ (ndefDone r p h l t f s).regs.textoff.toNat = f :=
  ⟨Nat.mod_eq_of_lt hh, Nat.mod_eq_of_lt hl, Nat.mod_eq_of_lt ht, Nat.mod_eq_of_lt hf⟩

theorem ndefDone_pos (hp : p < 0x10000) : (ndefDone r p h l t f s).regs.pos.toNat = p := Nat.mod_eq_of_lt hp

theorem ndefDone_onlyS :
    onlyS { s.regs with
      hidx := BitVec.ofNat 16 h, langlen := BitVec.ofNat 8 l, textlen := BitVec.ofNat 8 t,
      textoff := BitVec.ofNat 16 f, pos := BitVec.ofNat 16 p } s (ndefDone r p h l t f s) :=
  ⟨rfl, statusDone_high r s.regs.status⟩

theorem ndefDone_sameBytes : sameBytes s (ndefDone r p h l t f s) := fun _ _ => complete_byteAt ..

theorem ndefFail_failedWith : failedWith e (ndefFail e p s) := raise_failedWith e (setPos p (setNdef 0 0 0 0 s))

theorem ndefFail_pos (hp : p < 0x10000) : (ndefFail e p s).regs.pos.toNat = p := Nat.mod_eq_of_lt hp

theorem ndefFail_onlyS :
    onlyS { s.regs with hidx := 0, langlen := 0, textlen := 0, textoff := 0, pos := BitVec.ofNat 16 p } s
      (ndefFail e p s) :=
  ⟨ndefFail_spec s e p, statusError_high s.regs.status⟩

theorem ndefFail_sameBytes : sameBytes s (ndefFail e p s) := fun _ _ => raiseAt_byteAt ..

end Completions

/-! ## What the operation answers (44_ndef_header.md R162) -/

section Answer

variable {s : State} {i : Nat}

theorem exec_ndefhdr_beyond (hndef : s.cfg.hasNdef = true) (h : s.regs.fcnt.toNat > s.cfg.fbSize) :
    exec .ndefhdr s = .next (ndefFail .range 0 s) := by
  rw [exec_ndefhdr, if_pos hndef, ndefHeader, if_pos h]

theorem exec_ndefhdr_noHeader (hndef : s.cfg.hasNdef = true) (hfit : s.regs.fcnt.toNat ≤ s.cfg.fbSize)
    (h : ∀ i, ¬ s.headerAt i) :
    exec .ndefhdr s = .next (ndefDone false (regionEnd s.cfg s.regs.fcnt.toNat) 0 0 0 0 s) := by
  rcases headerScan_cases s with ⟨j, -, hj⟩ | ⟨hscan, -⟩
  · exact absurd hj.1 (h j)
  · rw [exec_ndefhdr, if_pos hndef, ndefHeader, if_neg (not_lt.mpr hfit)]
    simp only [hscan, ndefDone]

theorem exec_ndefhdr_header (hndef : s.cfg.hasNdef = true) (hfit : s.regs.fcnt.toNat ≤ s.cfg.fbSize)
    (h : s.firstHeader i) : exec .ndefhdr s = .next (decodeHeader (regionEnd s.cfg s.regs.fcnt.toNat) i s) := by
  rcases headerScan_cases s with ⟨j, hscan, hj⟩ | ⟨-, hnone⟩
  · rw [exec_ndefhdr, if_pos hndef, ndefHeader, if_neg (not_lt.mpr hfit)]
    simp only [hscan, State.firstHeader_unique h hj]
  · exact absurd h.1 (hnone i)

end Answer

/-- FCNT is beyond the capacity, or the region holds no header pattern, or it holds a first one. -/
theorem State.ndef_cases (s : State) : s.regs.fcnt.toNat > s.cfg.fbSize ∨
    s.regs.fcnt.toNat ≤ s.cfg.fbSize ∧ ((∀ i, ¬ s.headerAt i) ∨ ∃ i, s.firstHeader i) := by
  refine (lt_or_ge s.cfg.fbSize s.regs.fcnt.toNat).imp_right fun hfit => ⟨hfit, ?_⟩
  rcases headerScan_cases s with ⟨i, -, hi⟩ | ⟨-, hnone⟩
  · exact .inr ⟨i, hi⟩
  · exact .inl hnone

section Decode

variable {hi i : Nat} {s : State}

theorem decodeHeader_trunc (h : hi ≤ i + 6) : decodeHeader hi i s = ndefFail .hdrtrunc (i + 6) s := if_pos h

theorem decodeHeader_short (h : i + 6 < hi)
    (hshort : (s.byteAt .fbuf (i + 4)).toNat < (s.byteAt .fbuf (i + 6)).toNat % 64 + 1) :
    decodeHeader hi i s = ndefFail .hdrlen (i + 4) s := by
  rw [← langLen_mod] at hshort
  rw [decodeHeader, if_neg (not_le.mpr h)]
  exact if_pos hshort

theorem decodeHeader_found (h : i + 6 < hi)
    (hlong : (s.byteAt .fbuf (i + 6)).toNat % 64 + 1 ≤ (s.byteAt .fbuf (i + 4)).toNat) :
    decodeHeader hi i s = ndefDone true i i ((s.byteAt .fbuf (i + 6)).toNat % 64)
      ((s.byteAt .fbuf (i + 4)).toNat - (s.byteAt .fbuf (i + 6)).toNat % 64 - 1)
      (i + 7 + (s.byteAt .fbuf (i + 6)).toNat % 64) s := by
  rw [← langLen_mod] at hlong ⊢
  rw [decodeHeader, if_neg (not_le.mpr h)]
  exact if_neg (not_lt.mpr hlong)

end Decode

/-! ## What the answer depends on (44_ndef_header.md R169) -/

/-- `s'` has the parameters, FCNT and the bytes of the usable region of `s`. -/
def sameRegion (s s' : State) : Prop :=
  s'.cfg = s.cfg ∧ s'.regs.fcnt = s.regs.fcnt ∧
    ∀ i, s.cfg.ndefHdrSkip ≤ i → i < regionEnd s.cfg s.regs.fcnt.toNat → s'.byteAt .fbuf i = s.byteAt .fbuf i

/-- `t` and `t'` report the same: the four registers, POS, ECODE, T and ERR. -/
def sameReport (t t' : State) : Prop :=
  t'.regs.hidx = t.regs.hidx ∧ t'.regs.langlen = t.regs.langlen ∧ t'.regs.textlen = t.regs.textlen ∧
    t'.regs.textoff = t.regs.textoff ∧ t'.regs.pos = t.regs.pos ∧ t'.regs.ecode = t.regs.ecode ∧
    t'.flag .t = t.flag .t ∧ t'.flag .err = t.flag .err

theorem completedWith.flags_eq {r : Bool} {t t' : State} (h : completedWith r t) (h' : completedWith r t') :
    t'.flag .t = t.flag .t ∧ t'.flag .err = t.flag .err := by
  obtain ⟨-, -, herr, ht, -⟩ := h
  obtain ⟨-, -, herr', ht', -⟩ := h'
  exact ⟨ht'.trans ht.symm, herr'.trans herr.symm⟩

theorem failedWith.flags_eq {e : ErrCode} {t t' : State} (h : failedWith e t) (h' : failedWith e t') :
    t'.flag .t = t.flag .t ∧ t'.flag .err = t.flag .err := by
  obtain ⟨-, -, herr, ht, -⟩ := h
  obtain ⟨-, -, herr', ht', -⟩ := h'
  exact ⟨ht'.trans ht.symm, herr'.trans herr.symm⟩

theorem ndefDone_sameReport (r : Bool) (p h l t f : Nat) (s s' : State) :
    sameReport (ndefDone r p h l t f s) (ndefDone r p h l t f s') :=
  ⟨rfl, rfl, rfl, rfl, rfl, rfl, ndefDone_completedWith.flags_eq ndefDone_completedWith⟩

theorem ndefFail_sameReport (e : ErrCode) (p : Nat) (s s' : State) :
    sameReport (ndefFail e p s) (ndefFail e p s') :=
  ⟨rfl, rfl, rfl, rfl, rfl, rfl, ndefFail_failedWith.flags_eq ndefFail_failedWith⟩

section Region

variable {s s' : State} {i : Nat}

theorem sameRegion.headerAt_iff (h : sameRegion s s') (i : Nat) : s'.headerAt i ↔ s.headerAt i := by
  obtain ⟨hcfg, hfcnt, hbytes⟩ := h
  unfold State.headerAt
  rw [hcfg, hfcnt]
  refine and_congr_right fun hlo => and_congr_right fun hhi => ?_
  rw [hbytes i hlo (by omega), hbytes (i + 5) (by omega) hhi]

theorem sameRegion.firstHeader_iff (h : sameRegion s s') (i : Nat) : s'.firstHeader i ↔ s.firstHeader i := by
  simp only [State.firstHeader, h.headerAt_iff]

/-- The header at i is decoded from the bytes at i + 4 and i + 6 of the region. -/
theorem sameRegion.decodeHeader_sameReport (h : sameRegion s s') (hheader : s.headerAt i) :
    sameReport (decodeHeader (regionEnd s.cfg s.regs.fcnt.toNat) i s)
      (decodeHeader (regionEnd s.cfg s.regs.fcnt.toNat) i s') := by
  obtain ⟨-, -, hbytes⟩ := h
  obtain ⟨hlo, hhi, -⟩ := hheader
  have hlen : s'.byteAt .fbuf (i + 4) = s.byteAt .fbuf (i + 4) := hbytes _ (by omega) (by omega)
  rcases le_or_gt (regionEnd s.cfg s.regs.fcnt.toNat) (i + 6) with htrunc | hin
  · rw [decodeHeader_trunc htrunc, decodeHeader_trunc htrunc]
    exact ndefFail_sameReport ..
  have hstatus : s'.byteAt .fbuf (i + 6) = s.byteAt .fbuf (i + 6) := hbytes _ (by omega) hin
  rcases lt_or_ge (s.byteAt .fbuf (i + 4)).toNat ((s.byteAt .fbuf (i + 6)).toNat % 64 + 1) with hshort | hlong
  · rw [decodeHeader_short hin hshort, decodeHeader_short hin (by rwa [hlen, hstatus])]
    exact ndefFail_sameReport ..
  · rw [decodeHeader_found hin hlong, decodeHeader_found hin (by rwa [hlen, hstatus]), hlen, hstatus]
    exact ndefDone_sameReport ..

end Region

/-! ## The statements -/

/-- Settles O43: the first header is decoded, and each of its numbers fits its register. -/
theorem ndefHeaderFound : Obligations.NdefHeaderFound := by
  unfold Obligations.NdefHeaderFound
  refine ⟨rfl, fun s i hwf hndef hfit hfirst hin hlong => ?_⟩
  have hlt := hfirst.1.lt hwf hfit
  have hpl := (s.byteAt .fbuf (i + 4)).isLt
  have hexec := exec_ndefhdr_header hndef hfit hfirst
  rw [decodeHeader_found hin hlong] at hexec
  obtain ⟨hhidx, hlanglen, htextlen, htextoff⟩ := ndefDone_results (r := true) (p := i) (s := s)
    (h := i) (l := (s.byteAt .fbuf (i + 6)).toNat % 64)
    (t := (s.byteAt .fbuf (i + 4)).toNat - (s.byteAt .fbuf (i + 6)).toNat % 64 - 1)
    (f := i + 7 + (s.byteAt .fbuf (i + 6)).toNat % 64) (by omega) (by omega) (by omega) (by omega)
  exact ⟨_, hexec, ndefDone_completedWith, hhidx, hlanglen, by rwa [hlanglen], by rwa [hlanglen],
    ndefDone_pos (by omega), ndefDone_onlyS, ndefDone_sameBytes⟩

/-- Settles O44: the two sides of the region's edge, and the scan that finds nothing. -/
theorem ndefHeaderNotFound : Obligations.NdefHeaderNotFound := by
  unfold Obligations.NdefHeaderNotFound
  exact ⟨fun cfg n => ⟨regionEnd_of_le, regionEnd_of_lt⟩, fun s hwf hndef hfit hnone =>
    ⟨_, exec_ndefhdr_noHeader hndef hfit hnone, ndefDone_completedWith, ndefDone_pos (State.regionEnd_lt hwf),
      ndefDone_onlyS, ndefDone_sameBytes⟩⟩

/-- Settles O45: each error is its own branch, and POS can hold the index it points at. -/
theorem ndefHeaderErrors : Obligations.NdefHeaderErrors := by
  unfold Obligations.NdefHeaderErrors
  refine fun s hwf hndef => ⟨fun hn => ?range, fun i hfit hfirst htrunc => ?hdrtrunc,
    fun i hfit hfirst hin hshort => ?hdrlen⟩
  case range =>
    exact ⟨_, exec_ndefhdr_beyond hndef hn, ndefFail_failedWith, rfl, ndefFail_onlyS, ndefFail_sameBytes⟩
  case hdrtrunc =>
    have hlt := hfirst.1.lt hwf hfit
    have hexec := exec_ndefhdr_header hndef hfit hfirst
    rw [decodeHeader_trunc htrunc] at hexec
    exact ⟨_, hexec, ndefFail_failedWith, ndefFail_pos (by omega), ndefFail_onlyS, ndefFail_sameBytes⟩
  case hdrlen =>
    have hlt := hfirst.1.lt hwf hfit
    have hexec := exec_ndefhdr_header hndef hfit hfirst
    rw [decodeHeader_short hin hshort] at hexec
    exact ⟨_, hexec, ndefFail_failedWith, ndefFail_pos (by omega), ndefFail_onlyS, ndefFail_sameBytes⟩

/-- Settles O46: both states are beyond the capacity, or neither region holds a header, or both hold the same first
one. -/
theorem ndefDependsOnRegionOnly : Obligations.NdefDependsOnRegionOnly := by
  unfold Obligations.NdefDependsOnRegionOnly
  intro s s' t hcfg hndef hfcnt hbytes ht
  have hsame : sameRegion s s' := ⟨hcfg, hfcnt, hbytes⟩
  have hndef' : s'.cfg.hasNdef = true := by rwa [hcfg]
  rcases s.ndef_cases with hn | ⟨hfit, hcase⟩
  · cases (exec_ndefhdr_beyond hndef hn).symm.trans ht
    exact ⟨_, exec_ndefhdr_beyond hndef' (by rwa [hfcnt, hcfg]), ndefFail_sameReport ..⟩
  have hfit' : s'.regs.fcnt.toNat ≤ s'.cfg.fbSize := by rwa [hfcnt, hcfg]
  rcases hcase with hnone | ⟨i, hfirst⟩
  · cases (exec_ndefhdr_noHeader hndef hfit hnone).symm.trans ht
    have hexec' := exec_ndefhdr_noHeader hndef' hfit' fun i => (hsame.headerAt_iff i).not.mpr (hnone i)
    rw [hcfg, hfcnt] at hexec'
    exact ⟨_, hexec', ndefDone_sameReport ..⟩
  · cases (exec_ndefhdr_header hndef hfit hfirst).symm.trans ht
    have hexec' := exec_ndefhdr_header hndef' hfit' ((hsame.firstHeader_iff i).mpr hfirst)
    rw [hcfg, hfcnt] at hexec'
    exact ⟨_, hexec', hsame.decodeHeader_sameReport hfirst.1⟩

end Sys2Proof.Machine
end

section
/-! PROOFS. Commands and completions (60_exceptions.md): the error codes, a write to CMD accepted or refused, the
operations that complete in their accepting step, and that every step answers. -/

namespace Sys2Proof.Machine

/-! ## The error codes (R183) -/

/-- Settles O58: the table of codes, and ECODE after an error completion. -/
theorem errorCodes : Obligations.ErrorCodes := by
  unfold Obligations.ErrorCodes
  exact ⟨rfl, rfl, rfl, rfl, rfl, rfl, rfl, rfl, rfl, rfl, rfl, rfl, rfl,
    fun e s => congrArg Regs.ecode (raise_regs s e)⟩

/-! ## A write to CMD while BUSY is 0 (R180, R185) -/

/-- The step of a CMD write while BUSY is 0, by number or by flat address. -/
theorem State.hostDoes_writeCmd {s s0 : State} {act : HostAction} {d : Half} (h : s.hostDoes act s0)
    (hact : writesReg act 0x00 d) (hb : s.flag .busy = false) : step s = issueCommand (d.setWidth 8) s0 := by
  have hnumber : hostAct act s0 = hostWrite .reg 0x00 d s0 := by
    rcases hact with rfl | rfl
    · rfl
    · exact (hostAct_flat rfl d).1
  have hidle : ¬ s0.flag .busy = true := by simp [State.hostDoes_flag h, hb]
  calc step s
      = hostAct act s0 := State.hostDoes_step h
    _ = hostWrite .reg 0x00 d s0 := hnumber
    _ = writeIdle .reg 0x00 d s0 := if_neg hidle

theorem issueCommand_legal {c : Byte} {s : State} {i : Instr} (h : decode s.cfg c = .ok i) :
    issueCommand c s = exec i (accept c s) := by
  simp only [issueCommand, h]

theorem issueCommand_illegal {c : Byte} {s : State} {e : Illegal} (h : decode s.cfg c = .error e) :
    issueCommand c s = .next (raise .illop (accept c s)) := by
  simp only [issueCommand, h]

theorem accept_flags (c : Byte) (s : State) :
    (accept c s).flag .busy = true ∧ (accept c s).flag .done = false ∧ (accept c s).flag .err = false ∧
    (accept c s).flag .t = false := by
  obtain ⟨hregs, -⟩ := accept_spec s c
  simp [State.flag, hregs]

theorem accept_sameOverrun (c : Byte) (s : State) : sameOverrun s (accept c s) := statusAccept_high s.regs.status

/-- The completion of an illegal command writes CMD, STATUS, ECODE and PHASE alone. -/
theorem raise_accept_onlyS (e : ErrCode) (c : Byte) (s : State) :
    onlyS { s.regs with cmd := c } s (raise e (accept c s)) :=
  ⟨raise_spec (accept c s) e, (statusError_high _).trans (accept_sameOverrun c s)⟩

/-- Settles O4: the decoder refuses the byte, and the accepted command is raised as ILLOP. -/
theorem illegalCommandCompletes : Obligations.IllegalCommandCompletes := by
  unfold Obligations.IllegalCommandCompletes
  intro s s0 d hdoes _ hb hillegal
  rw [← (State.hostDoes_keeps hdoes).1] at hillegal
  obtain ⟨e, he⟩ := (decode_illegal_iff s0.cfg (d.setWidth 8)).mpr hillegal
  exact ⟨_, (State.hostDoes_writeCmd hdoes (.inl rfl) hb).trans (issueCommand_illegal he), raise_failedWith .illop _,
    raise_accept_onlyS .illop _ s0⟩

/-- Settles O3: the state the operation runs from is the accept of the byte. -/
theorem stepRunsDecodedCommand : Obligations.StepRunsDecodedCommand := by
  unfold Obligations.StepRunsDecodedCommand
  intro s s0 act d i hdoes _ hact hb hdecode
  rw [← (State.hostDoes_keeps hdoes).1] at hdecode
  obtain ⟨hbusy, hdone, herr, ht⟩ := accept_flags (d.setWidth 8) s0
  exact ⟨accept (d.setWidth 8) s0, (State.hostDoes_writeCmd hdoes hact hb).trans (issueCommand_legal hdecode), rfl,
    hbusy, hdone, herr, ht, accept_sameOverrun _ s0⟩

/-! ## Operations that complete in their accepting step (R184) -/

/-- Nothing at the boundary of `u` differs from `s`: no byte and no delay is asked for, and the host's port is as it
was. -/
structure SameBoundary (s u : State) : Prop where
  bus : u.bus = s.bus
  sleeper : u.sleeper = s.sleeper
  host : u.host = s.host

/-- `t` is completed, by a completion or an error completion, and nothing was asked at the boundary of `s`. -/
structure CompletedAtOnce (s t : State) : Prop where
  busy : t.flag .busy = false
  done : t.flag .done = true
  phase : t.cmp.phase = .idle
  boundary : SameBoundary s t

theorem CompletedAtOnce.complete {s u : State} {r : Bool} (h : SameBoundary s u) :
    CompletedAtOnce s (complete r u) := by
  obtain ⟨hbusy, hdone, -, -, -, hphase⟩ := complete_completedWith r u
  exact ⟨hbusy, hdone, hphase, ⟨h.bus, h.sleeper, h.host⟩⟩

theorem CompletedAtOnce.raise {s u : State} {e : ErrCode} (h : SameBoundary s u) :
    CompletedAtOnce s (raise e u) := by
  obtain ⟨hbusy, hdone, -, -, -, hphase⟩ := raise_failedWith e u
  exact ⟨hbusy, hdone, hphase, ⟨h.bus, h.sleeper, h.host⟩⟩

theorem ndefHeader_completedAtOnce (s : State) : CompletedAtOnce s (ndefHeader s) := by
  rcases ndefHeader_cases s with ⟨e, p, h⟩ | h | ⟨i, -, -, -, h⟩ <;> rw [h]
  · exact .raise ⟨rfl, rfl, rfl⟩
  · exact .complete ⟨rfl, rfl, rfl⟩
  · exact .complete ⟨rfl, rfl, rfl⟩

/-- Every answer of an operation but VERIFY and VACK is a completion over results written to registers and FBUF. -/
theorem exec_completesAtOnce {i : Instr} (s : State) (hverify : i ≠ .verify) (hvack : i ≠ .vack) :
    ∃ t, exec i s = .next t ∧ CompletedAtOnce s t := by
  cases i with
  | lcs => exact ⟨_, exec_lcs s, .complete ⟨rfl, rfl, rfl⟩⟩
  | chkl => exact ⟨_, exec_chkl s, .complete ⟨rfl, rfl, rfl⟩⟩
  | dcs =>
    rcases le_or_gt s.regs.pcnt.toNat s.cfg.pbSize with h | h
    · exact ⟨_, exec_dcs_within h, .complete ⟨rfl, rfl, rfl⟩⟩
    · exact ⟨_, exec_dcs_beyond h, .raise ⟨rfl, rfl, rfl⟩⟩
  | chkd =>
    rcases le_or_gt s.regs.pcnt.toNat s.cfg.pbSize with h | h
    · exact ⟨_, exec_chkd_within h, .complete ⟨rfl, rfl, rfl⟩⟩
    · exact ⟨_, exec_chkd_beyond h, .raise ⟨rfl, rfl, rfl⟩⟩
  | build =>
    rcases execBuild_cases s with ⟨-, hs⟩ | ⟨-, -, hs⟩ | ⟨-, -, hs⟩
    · exact ⟨_, hs, .raise ⟨rfl, rfl, rfl⟩⟩
    · exact ⟨_, hs, .raise ⟨rfl, rfl, rfl⟩⟩
    · exact ⟨_, hs, .complete ⟨by simp, by simp, by simp⟩⟩
  | parse =>
    rcases execParse_cases s with ⟨-, hs⟩ | ⟨-, x, -, hs⟩ | ⟨-, f, -, hs⟩
    · exact ⟨_, hs, .raise ⟨rfl, rfl, rfl⟩⟩
    · exact ⟨_, hs, .raise ⟨rfl, rfl, rfl⟩⟩
    · exact ⟨_, hs, .complete ⟨rfl, rfl, rfl⟩⟩
  | verify => exact absurd rfl hverify
  | vack => exact absurd rfl hvack
  | ndefhdr =>
    rw [exec_ndefhdr]
    split
    · exact ⟨_, rfl, ndefHeader_completedAtOnce s⟩
    · exact ⟨_, rfl, .raise ⟨rfl, rfl, rfl⟩⟩

/-- Settles O49: each of the seven operations answers a completion. -/
theorem otherOperationsCompleteAtOnce : Obligations.OtherOperationsCompleteAtOnce := by
  unfold Obligations.OtherOperationsCompleteAtOnce
  intro i s hverify hvack
  obtain ⟨t, ht, hcompleted⟩ := exec_completesAtOnce s hverify hvack
  exact ⟨t, ht, hcompleted.busy, hcompleted.done, hcompleted.phase, hcompleted.boundary.bus,
    hcompleted.boundary.sleeper, hcompleted.boundary.host⟩

/-! ## Every step answers (R189) -/

theorem exec_isNext (i : Instr) (s : State) : ∃ t, exec i s = .next t := by
  by_cases hverify : i = .verify
  · subst hverify
    rcases le_or_gt s.regs.ecnt.toNat s.cfg.ebSize with h | h
    · exact ⟨_, exec_verify_within h⟩
    · exact ⟨_, exec_verify_beyond h⟩
  by_cases hvack : i = .vack
  · subst hvack
    exact ⟨_, exec_vack s⟩
  obtain ⟨t, ht, -⟩ := exec_completesAtOnce s hverify hvack
  exact ⟨t, ht⟩

theorem issueCommand_isNext (c : Byte) (s : State) : ∃ t, issueCommand c s = .next t := by
  cases h : decode s.cfg c with
  | ok i => exact issueCommand_legal h ▸ exec_isNext i (accept c s)
  | error e => exact ⟨_, issueCommand_illegal h⟩

theorem writeReg_isNext (n : RegName) (d : Half) (s : State) : ∃ t, writeReg n d s = .next t := by
  cases n with
  | cmd => exact issueCommand_isNext (d.setWidth 8) s
  | status | ctrl | a | b | pcnt | fcnt | ecnt
  | ecode | r | pos | payoff | paylen | hidx | langlen | textlen | textoff => exact ⟨_, rfl⟩

theorem hostWrite_isNext (sp : Space) (i : Nat) (d : Half) (s : State) : ∃ t, hostWrite sp i d s = .next t := by
  rcases hostWrite_cases sp i d s with ⟨-, -, -, h⟩ | ⟨-, h⟩ | ⟨-, b, -, h⟩ | ⟨-, -, n, -, h⟩ | ⟨-, h⟩
  · exact ⟨_, h⟩
  · exact ⟨_, h⟩
  · exact ⟨_, h⟩
  · exact h ▸ writeReg_isNext n d s
  · exact ⟨_, h⟩

theorem hostAct_isNext (act : HostAction) (s : State) : ∃ t, hostAct act s = .next t := by
  rcases hostAct_cases act s with ⟨sp, i, d, -, h⟩ | ⟨v, h⟩ | h
  · exact h ▸ hostWrite_isNext sp i d s
  · exact ⟨_, h⟩
  · exact ⟨_, h⟩

theorem hostTurn_isNext (s : State) : ∃ t, hostTurn s = .next t := by
  rcases hostTurn_cases s with h | ⟨act, p, h⟩
  · exact ⟨_, h⟩
  · exact h ▸ hostAct_isNext act (s.setHost p)

/-- Settles O50: only the host's turn can run an operation, and every operation answers. -/
theorem everyStepAnswers : Obligations.EveryStepAnswers := by
  unfold Obligations.EveryStepAnswers
  intro s
  cases hturns : s.turns with
  | nil => exact ⟨s, step_nil s hturns⟩
  | cons who ts =>
    rw [step_cons s who ts hturns]
    cases who with
    | host => exact hostTurn_isNext (s.setTurns ts)
    | transport | sleeper | resetPin => exact ⟨_, rfl⟩

end Sys2Proof.Machine
end

section
/-! PROOFS. The reset input (70_reset_and_hazards.md R210, R212): its step, and the statement about it. -/

namespace Sys2Proof.Machine

/-- The step of the reset input: the turn is taken, and the block is reset whatever it was doing. -/
theorem step_resetPin (s : State) (ts : List Agent) (h : s.turns = .resetPin :: ts) :
    step s = .next (pinReset (s.setTurns ts)) :=
  step_cons s .resetPin ts h

/-- Settles O51: the registers and PHASE are read off the reset values; the boundary and the instance are kept. -/
theorem resetInputEffect : Obligations.ResetInputEffect := by
  unfold Obligations.ResetInputEffect
  intro s ts hturns
  obtain ⟨hregs, hcmp, -, -, hcfg, hbus, hsleeper, hhost, hrest⟩ := pinReset_spec (s.setTurns ts)
  refine ⟨_, step_resetPin s ts hturns, ?_⟩
  rw [hregs, hcmp, hcfg, hbus, hsleeper, hhost, hrest]
  simp [Regs.reset, Compare.reset]

end Sys2Proof.Machine
end

section
/-! PROOFS. The table word as a command: where the convention of log 7 places it, and the statement about it. -/

namespace Sys2Proof.Machine

/-- The host's next action is the write of the word's byte to CMD, and taking it leaves the machine the word was placed
in. -/
theorem State.withFetchWord_hostDoes (s : State) (nbits w : Nat) :
    (s.withFetchWord nbits w).hostDoes (.write .reg 0x00 ((tableByte nbits w).setWidth 16)) s :=
  ⟨by simp, s.host.queue, s.turns, rfl, rfl, rfl⟩

/-- Placing a word touches no register. -/
@[simp] theorem State.withFetchWord_flag (s : State) (nbits w : Nat) (f : StatusFlag) :
    (s.withFetchWord nbits w).flag f = s.flag f := rfl

/-- Settles O5: the step is the host's CMD write of the word's byte, which the decoder accepts. -/
theorem fetchWordRuns : Obligations.FetchWordRuns := by
  unfold Obligations.FetchWordRuns
  intro s nbits w i hidle hdecode
  have hport : ((tableByte nbits w).setWidth 16).setWidth 8 = tableByte nbits w := by simp
  have hbusy : (s.withFetchWord nbits w).flag .busy = false := by rw [State.withFetchWord_flag, hidle]
  calc step (s.withFetchWord nbits w)
      = issueCommand (((tableByte nbits w).setWidth 16).setWidth 8) s :=
        State.hostDoes_writeCmd (s.withFetchWord_hostDoes nbits w) (.inl rfl) hbusy
    _ = issueCommand (tableByte nbits w) s := by rw [hport]
    _ = exec i (accept (tableByte nbits w) s) := issueCommand_legal hdecode

end Sys2Proof.Machine
end
